-- ==== Sys2Proof/Word.lean ====
section
/-!
DEFINITION. The fixed widths the block works at (00_scope.md R10) and the three-fold per-channel bank
(10_state.md R20): nothing here is specific to an operation. A reference and an index have a width that is
a parameter, REF_WIDTH or INDEX_WIDTH: they are natural numbers, kept below 2^REF_WIDTH or 2^INDEX_WIDTH
by every operation that writes one (entry 32).
-/

namespace Sys2Proof

/-- A byte: one element of buffer memory, one character, one command (20_memory.md R60). -/
abbrev Byte := BitVec 8

/-- A script word (30_encoding.md R90). -/
abbrev Word := BitVec 32

/-- A dense channel index in {0, 1, 2} (00_scope.md R17). -/
inductive Channel where
  | c0
  | c1
  | c2
deriving DecidableEq, Repr

/-- A transfer direction (30_encoding.md R97). -/
inductive Direction where
  | tx
  | rx
deriving DecidableEq, Repr

/-- One value for each of the NUM_CHANNELS = 3 serial channels (00_scope.md R10, 10_state.md R20). -/
structure PerChannel (α : Type) where
  ch0 : α
  ch1 : α
  ch2 : α
deriving DecidableEq, Repr

/-- The value of channel `c`. -/
def PerChannel.get {α : Type} (p : PerChannel α) : Channel → α
  | .c0 => p.ch0
  | .c1 => p.ch1
  | .c2 => p.ch2

/-- `p` with channel `c`'s value replaced by `a`. -/
def PerChannel.set {α : Type} (p : PerChannel α) (c : Channel) (a : α) : PerChannel α :=
  match c with
  | .c0 => { p with ch0 := a }
  | .c1 => { p with ch1 := a }
  | .c2 => { p with ch2 := a }

/-- The same value on every channel. -/
def PerChannel.all {α : Type} (a : α) : PerChannel α := ⟨a, a, a⟩

end Sys2Proof
end

