-- ==== Sys2Proof/Config.lean ====
section
/-!
DEFINITION. The parameters of 00_scope.md R10. Those the spec leaves open or gives a default that may be
overridden are the fields of `Cfg`, which `State` carries and no step writes (DESIGN CHOICE, safe,
entry 2); the numbers that are the source's own are constants; the OPEN parameters no rule reads are
opaque.
-/

namespace Sys2Proof

/-- The flags operand of US.INIT (30_encoding.md R96). `parity` keeps its two bits because the value 3
is reserved, not absent. -/
structure InitFlags where
  over8 : Bool
  wordlen : Bool
  parity : BitVec 2
  te : Bool
  re : Bool
  ieTc : Bool
  ieRxne : Bool
deriving DecidableEq, Repr

/-- One thing a callback body can do: any request a caller can make of the block (00_scope.md R9), or a
store of its own to buffer memory, which the caller owns (20_memory.md R60). The source sets no limit on
what a body does (60_exceptions.md R254; entry 20). References, lengths and start indexes are natural
numbers, taken at REF_WIDTH and INDEX_WIDTH bits (entry 32). -/
inductive CallbackAction where
  | stbCmd (byte : Byte)
  | stbChr (byte : Byte)
  | stbElow
  | lcdInit
  | write (text : Nat) (length : Nat)
  | goto (row col : Byte)
  | clear
  | command (byte : Byte)
  | init (sel : Byte) (flags : InitFlags) (clock baud : Word)
  | send (sel : Byte) (data : Nat) (length : Nat)
  | recv (sel : Byte) (dest : Nat) (start length : Nat)
  | sendb (sel byte : Byte)
  | recvb (sel : Byte)
  | regcb (sel : Byte) (dir : Direction) (handler : Nat)
  | store (address : Nat) (value : Byte)
deriving DecidableEq, Repr

/-- CB_BODY of one handler: a written-out list of actions, or a body about which nothing is known, whose
actions are a free value that may depend on the whole state it finds (`Machine.freeBody`, entry 20). -/
inductive CallbackBody where
  | listed (actions : List CallbackAction)
  | free
deriving DecidableEq, Repr

/-- RESULT_CODE, the number of each result code (30_encoding.md R103). -/
structure ResultNumbers where
  ok : BitVec 3
  nullArgument : BitVec 3
  invalidPosition : BitVec 3
  invalidChannel : BitVec 3
  bufferFull : BitVec 3
  busy : BitVec 3
deriving DecidableEq, Repr

/-- The settable parameters of 00_scope.md R10. NUM_SLOTS is the length of the slot table itself
(entry 3) and SR_RESET is an argument of reset (entry 5). -/
structure Cfg where
  /-- INIT_DELAY_TICKS, at least 19. -/
  initDelayTicks : Nat
  /-- CMD_FUNCTION_SET. -/
  cmdFunctionSet : Byte
  /-- CMD_DISPLAY_ON. -/
  cmdDisplayOn : Byte
  /-- CMD_CLEAR. -/
  cmdClear : Byte
  /-- SETPOS_CMD, as its value for each of the 2 × 16 positions, row by row. -/
  setposTable : Vector Byte 32
  /-- INDEX_WIDTH. -/
  indexWidth : Nat
  /-- REF_WIDTH. -/
  refWidth : Nat
  /-- NULL_REF, the reference value that means "absent". -/
  nullRef : Nat
  /-- RESULT_CODE. -/
  resultNumbers : ResultNumbers
  /-- CHANNEL_OF, as the list of accepted selectors with their channel (entry 25). -/
  channelOf : List (Byte × Channel)
  /-- NVIC_EN[c]: the interrupt controller routes channel c's line (60_exceptions.md R230). -/
  nvicEn : PerChannel Bool
  /-- DR_READ_CLEARS_RXNE (20_memory.md R69). -/
  drReadClearsRxne : Bool
  /-- DISARM_ON_COMPLETE (43_serial_interrupt_handler.md R211). -/
  disarmOnComplete : Bool
  /-- CB_BODY[h]; a handler that has no entry is log-only (43_serial_interrupt_handler.md R206). -/
  cbBody : List (Nat × CallbackBody)
deriving DecidableEq, Repr

/-- The defaults of 00_scope.md R10. NVIC_EN and CB_BODY are OPEN there: routed and log-only are the
values of every test vector (95_test_vectors.md, conventions; DESIGN CHOICE, unsafe, entry 23). -/
def Cfg.default : Cfg where
  initDelayTicks := 19
  cmdFunctionSet := 0x38
  cmdDisplayOn := 0x0C
  cmdClear := 0x01
  setposTable :=
    #v[0x80, 0x81, 0x82, 0x83, 0x84, 0x85, 0x86, 0x87, 0x88, 0x89, 0x8A, 0x8B, 0x8C, 0x8D, 0x8E, 0x8F,
       0xC0, 0xC1, 0xC2, 0xC3, 0xC4, 0xC5, 0xC6, 0xC7, 0xC8, 0xC9, 0xCA, 0xCB, 0xCC, 0xCD, 0xCE, 0xCF]
  indexWidth := 16
  refWidth := 32
  nullRef := 0
  resultNumbers := ⟨0, 1, 2, 3, 4, 5⟩
  channelOf := [(0, .c0), (1, .c1), (2, .c2)]
  nvicEn := PerChannel.all true
  drReadClearsRxne := true
  disarmOnComplete := false
  cbBody := []

/-- The first number that is not an address of MEM: 2^REF_WIDTH (20_memory.md R60). -/
def Cfg.memEnd (cfg : Cfg) : Nat := 2 ^ cfg.refWidth

/-- The first number that is not a value of an index register: 2^INDEX_WIDTH (00_scope.md R12). -/
def Cfg.indexEnd (cfg : Cfg) : Nat := 2 ^ cfg.indexWidth

/-- NUM_ROWS: rows accepted by LCD.GOTO (00_scope.md R10). -/
def Config.numRows : Nat := 2

/-- NUM_COLS: columns accepted by LCD.GOTO (00_scope.md R10). -/
def Config.numCols : Nat := 16

/-- The lower bound of INIT_DELAY_TICKS (00_scope.md R10, "≥19 ticks"). -/
def Config.minInitDelay : Nat := 19

/-- The mantissa of the baud-rate register has 12 bits: one that reaches 4096 does not fit
(10_state.md R43, 42_serial_submission.md R172). -/
def Config.mantissaEnd : Nat := 4096

/-- NUM_SLOTS at `State.reset`: OPEN in 00_scope.md R10, 4 in every test vector (DESIGN CHOICE,
unsafe, entry 3). -/
def Config.resetSlots : Nat := 4

/-- The named fields of the register surface, for USART_BITS (10_state.md R46). -/
inductive UsartField where
  | tc | rxne | over8 | m | parity | te | re | tcie | rxneie | ue
deriving DecidableEq, Repr

/-- The lines of unit STB, for PIN_MAP (40_strobe_driver.md R128). -/
inductive BusLine where
  | e
  | rs
  | rw
  | d (i : Fin 8)
deriving DecidableEq, Repr

/-- USART_BASE[c]: OPEN, and no rule depends on it (20_memory.md R72, entry 28). -/
opaque Config.usartBase : Channel → Word

/-- USART_BITS: OPEN, and no rule depends on it (10_state.md R46, entry 28). -/
opaque Config.usartBits : UsartField → Nat

/-- PIN_MAP, a port and a pin for each line: OPEN, and no rule depends on it
(40_strobe_driver.md R128, entry 28). -/
opaque Config.pinMap : BusLine → Nat × Nat

end Sys2Proof
end

