-- ==== Sys2Proof/Syntax.lean ====
section
/-!
DEFINITION. The 19 operations of 00_scope.md R9, one constructor per row of spec/opcode_table.json,
with the operands of 30_encoding.md R93 to R97. A length or start index is an operand of INDEX_WIDTH bits
and a reference one of REF_WIDTH bits (00_scope.md R10): natural numbers here, of which the script words
hold 16 and 32 bits (30_encoding.md R94; entry 32).
-/

namespace Sys2Proof

/-- An operation with its operands. -/
inductive Instr where
  /-- HW.NOP (R215) -/
  | nop
  /-- STB.CMD (R122) -/
  | stbCmd (byte : Byte)
  /-- STB.CHR (R123) -/
  | stbChr (byte : Byte)
  /-- STB.ELOW (R124) -/
  | stbElow
  /-- LCD.INIT (R140) -/
  | lcdInit
  /-- LCD.WRITE (R144) -/
  | lcdWrite (text : Nat) (length : Nat)
  /-- LCD.GOTO (R145) -/
  | lcdGoto (row col : Byte)
  /-- LCD.CLEAR (R146) -/
  | lcdClear
  /-- LCD.CMD (R147) -/
  | lcdCmd (byte : Byte)
  /-- US.INIT (R172) -/
  | usInit (sel : Byte) (flags : InitFlags) (clock baud : Word)
  /-- US.SEND (R175) -/
  | usSend (sel : Byte) (data : Nat) (length : Nat)
  /-- US.RECV (R176) -/
  | usRecv (sel : Byte) (dest : Nat) (start length : Nat)
  /-- US.SENDB (R182) -/
  | usSendb (sel : Byte) (byte : Byte)
  /-- US.RECVB (R183) -/
  | usRecvb (sel : Byte)
  /-- US.REGCB (R180) -/
  | usRegcb (sel : Byte) (dir : Direction) (handler : Nat)
  /-- LCD.TICK (R148) -/
  | lcdTick
  /-- US.IRQ (R201) -/
  | usIrq (channel : Channel)
  /-- HW.TXDONE (R212) -/
  | hwTxdone (channel : Channel)
  /-- HW.RXBYTE (R213) -/
  | hwRxbyte (channel : Channel) (byte : Byte)
deriving DecidableEq, Repr

/-- How many script words the operation occupies: its format S, R or T (30_encoding.md R92). -/
def Instr.wordCount : Instr → Nat
  | .nop => 1
  | .stbCmd _ => 1
  | .stbChr _ => 1
  | .stbElow => 1
  | .lcdInit => 1
  | .lcdWrite _ _ => 2
  | .lcdGoto _ _ => 1
  | .lcdClear => 1
  | .lcdCmd _ => 1
  | .usInit _ _ _ _ => 3
  | .usSend _ _ _ => 2
  | .usRecv _ _ _ _ => 3
  | .usSendb _ _ => 1
  | .usRecvb _ => 1
  | .usRegcb _ _ _ => 2
  | .lcdTick => 1
  | .usIrq _ => 1
  | .hwTxdone _ => 1
  | .hwRxbyte _ _ => 1

/-- Is the operation a foreground request? Opcodes with bit 7 clear are, except HW.NOP, which is
neither a request nor an event (30_encoding.md R93). -/
def Instr.isForeground : Instr → Bool
  | .nop => false
  | .stbCmd _ => true
  | .stbChr _ => true
  | .stbElow => true
  | .lcdInit => true
  | .lcdWrite _ _ => true
  | .lcdGoto _ _ => true
  | .lcdClear => true
  | .lcdCmd _ => true
  | .usInit _ _ _ _ => true
  | .usSend _ _ _ => true
  | .usRecv _ _ _ _ => true
  | .usSendb _ _ => true
  | .usRecvb _ => true
  | .usRegcb _ _ _ => true
  | .lcdTick => false
  | .usIrq _ => false
  | .hwTxdone _ => false
  | .hwRxbyte _ _ => false

end Sys2Proof
end

