-- ==== Sys2Proof/Machine/State.lean ====
section
/-!
DEFINITION. The state of the block, of its client the display sequencer and of the USART surface, as
plain data: 10_state.md R20 to R53. The reasons a step can stop: 60_exceptions.md R226 and R227.
-/

namespace Sys2Proof.Machine

/-- The lifecycle of the display sequencer (10_state.md R24). -/
inductive Life where
  | off
  | initializing
  | operational
deriving DecidableEq, Repr

/-- The init sub-state (10_state.md R25). -/
inductive InitSub where
  | powerOn
  | functionSet
  | displayControl
  | displayClear
  | done
deriving DecidableEq, Repr

/-- The progress of a slot (10_state.md R30). -/
inductive Progress where
  | start
  | inProgress
  | finished
deriving DecidableEq, Repr

/-- The kind of a slot with the payload of that kind (10_state.md R30; entry 8). The text reference of a
Write has REF_WIDTH bits and its length INDEX_WIDTH bits (entry 32). -/
inductive Kind where
  | none
  | write (text : Nat) (length : Nat)
  | clear
  | rawCommand (byte : Byte)
  | setPosition (row : BitVec 1) (col : BitVec 4)
  | done
deriving DecidableEq, Repr

/-- One entry of the request slot table (10_state.md R30). -/
structure Slot where
  occupied : Bool
  kind : Kind
  progress : Progress
deriving DecidableEq, Repr

/-- A slot as reset leaves it (10_state.md R52). -/
def Slot.free : Slot := ⟨false, .none, .start⟩

/-- The display sequencer (10_state.md R24 to R30). NUM_SLOTS is the length of `slots`; `widx` has
INDEX_WIDTH bits (entry 32). -/
structure Lcd where
  life : Life
  isub : InitSub
  delay : Nat
  cur : Nat
  widx : Nat
  cursorRow : BitVec 1
  cursorCol : BitVec 4
  slots : List Slot
deriving DecidableEq, Repr

/-- One latched byte with its mode (10_state.md R47). -/
structure LatchEntry where
  rs : Bool
  rw : Bool
  data : Byte
deriving DecidableEq, Repr

/-- Unit STB (10_state.md R21 to R23) with its latch log (R47). `eDriven` records that the block has
driven `E` at least once, since an `E` at its unspecified reset level counts as not 1
(40_strobe_driver.md R121; entry 9). -/
structure Bus where
  phase : Bool
  e : Bool
  eDriven : Bool
  rs : Bool
  rw : Bool
  d : Byte
  pinsCfg : Bool
  latchLog : List LatchEntry
deriving DecidableEq, Repr

/-- One bank of the channel state table (10_state.md R32). The indexes and lengths have INDEX_WIDTH bits
and the two references REF_WIDTH bits (entry 32). -/
structure ChBank where
  txBusy : Bool
  txIndex : Nat
  txLen : Nat
  txBuffer : Nat
  rxBusy : Bool
  rxIndex : Nat
  rxLen : Nat
  rxBuffer : Nat
deriving DecidableEq, Repr

/-- The status register of a channel (10_state.md R41). -/
structure StatusReg where
  tc : Bool
  rxne : Bool
deriving DecidableEq, Repr

/-- The control registers of a channel (10_state.md R44). -/
structure ControlReg where
  over8 : Bool
  m : Bool
  parity : BitVec 2
  te : Bool
  re : Bool
  tcie : Bool
  rxneie : Bool
  ue : Bool
deriving DecidableEq, Repr

/-- The interrupt-enable bits US.INIT stores for later arming (10_state.md R38). -/
structure IeDesired where
  tc : Bool
  rxne : Bool
deriving DecidableEq, Repr

/-- Everything one serial channel owns: `CH[c]` (10_state.md R32), `U[c]` (R40 to R44), `RDR[c]` (R42),
`TX_INFLIGHT[c]` (R39), `IE_DESIRED[c]` (R38), `CB[c]` (R36), two references of REF_WIDTH
bits (entry 32), and `TX_LOG[c]` (R48). -/
structure Uart where
  ch : ChBank
  sr : StatusReg
  brr : BitVec 16
  cr : ControlReg
  rdr : Byte
  txInflight : Bool
  ieDesired : IeDesired
  cbTx : Nat
  cbRx : Nat
  txLog : List Byte
deriving DecidableEq, Repr

/-- One callback invocation (10_state.md R49). -/
structure CbEntry where
  channel : Channel
  dir : Direction
  handler : Nat
  busySeen : Bool
  lenSeen : Nat
deriving DecidableEq, Repr

/-- The foreground wait marker (10_state.md R53). -/
inductive FgWait where
  | none
  | sendB (c : Channel)
  | recvB (c : Channel)
deriving DecidableEq, Repr

/-- The result codes (30_encoding.md R103). -/
inductive ResultCode where
  | ok
  | nullArgument
  | invalidPosition
  | invalidChannel
  | bufferFull
  | busy
deriving DecidableEq, Repr

/-- The response of a foreground request (30_encoding.md R100). -/
structure Response where
  code : ResultCode
  data : Byte
deriving DecidableEq, Repr

/-- Buffer memory as the list of the addresses that hold a value, in rising order
(20_memory.md R60; entry 10). -/
abbrev Memory := List Host.Cell

/-- The whole state. `cfg` is the parameters (entry 2), `responses` the observed responses, oldest
first (entry 19), `script` the words the run executes and `pc` the position in them
(30_encoding.md R90, 10_state.md R34; entry 1). -/
structure State where
  cfg : Cfg
  bus : Bus
  lcd : Lcd
  uarts : PerChannel Uart
  mem : Memory
  cbLog : List CbEntry
  fgWait : FgWait
  responses : List Response
  script : List Word
  pc : Nat
deriving DecidableEq, Repr

/-- Why the machine stops with a fault. -/
inductive Fault where
  /-- An access outside the promised window or through an invalid reference: raised by US.SEND, US.IRQ
  and LCD.TICK (20_memory.md R66, 60_exceptions.md R226). Safe: the hardware would go on with a stray
  access. -/
  | bufferBounds
deriving DecidableEq, Repr

/-- Why a step is refused: the situation is outside what the spec describes (60_exceptions.md R227). -/
inductive Refusal where
  /-- Raised by `exec` for an instruction that has no meaning yet. Safe. -/
  | notModelled (mnemonic : String)
  /-- A reserved word: raised by `step` at decoding, and by US.INIT given the reserved parity
  (30_encoding.md R98). Safe. -/
  | illegalRequest
  /-- The operand words are missing: raised by `step` at decoding (30_encoding.md R92). Safe. -/
  | truncatedScript
  /-- The script is executed to its end: raised by `step` when `pc` is not below the script's length
  (10_state.md R34; entry 16). Safe: the run is over. -/
  | scriptEnded
  /-- Raised by US.INIT with baud 0 (42_serial_submission.md R172). Safe. -/
  | baudZero
  /-- Raised by US.INIT when the mantissa needs more than 12 bits (42_serial_submission.md R172). Safe. -/
  | baudRange
  /-- Raised by every data-register write over a byte in flight (20_memory.md R68). Safe. -/
  | txOverwrite
  /-- Raised by HW.RXBYTE over an unread byte (43_serial_interrupt_handler.md R213). Safe. -/
  | rxOverrun
  /-- Raised by HW.TXDONE with no byte in flight (43_serial_interrupt_handler.md R212). Safe. -/
  | noByteInFlight
  /-- Raised by US.IRQ when the channel's interrupt is not pending (43_serial_interrupt_handler.md
  R201). Safe. -/
  | irqNotPending
  /-- Raised by US.SENDB and US.RECVB on a channel with asynchronous activity
  (42_serial_submission.md R181). Safe. -/
  | mixedBlockingAsync
  /-- Raised by `step` for a foreground request while the foreground busy-waits (10_state.md R53). Safe. -/
  | foregroundBlocked
  /-- Raised by US.IRQ when a callback body makes a blocking call whose flag is not set: every other step
  waits for the body to return (60_exceptions.md R254) and the flag is set by another step, so the call
  never returns (60_exceptions.md R228; entry 33). Safe: the run is over where the machine would hang. -/
  | callbackHangs
deriving DecidableEq, Repr

/-- The values the spec leaves unspecified at reset (10_state.md R52, 70_reset_and_hazards.md R262):
an argument of reset. -/
structure ResetLevels where
  e : Bool
  rs : Bool
  rw : Bool
  d : Byte
  sr : PerChannel StatusReg
  brr : PerChannel (BitVec 16)
  cr : PerChannel ControlReg
  rdr : PerChannel Byte
deriving DecidableEq, Repr

/-- Unit STB after reset (10_state.md R52). -/
def Bus.resetWith (o : ResetLevels) : Bus :=
  { phase := false, e := o.e, eDriven := false, rs := o.rs, rw := o.rw, d := o.d,
    pinsCfg := false, latchLog := [] }

/-- The sequencer after reset, with `n` slots (10_state.md R52). -/
def Lcd.resetWith (n : Nat) : Lcd :=
  { life := .off, isub := .powerOn, delay := 0, cur := 0, widx := 0, cursorRow := 0,
    cursorCol := 0, slots := List.replicate n Slot.free }

/-- One channel bank after reset (10_state.md R32, R52). -/
def ChBank.resetWith (nullRef : Nat) : ChBank :=
  { txBusy := false, txIndex := 0, txLen := 0, txBuffer := nullRef,
    rxBusy := false, rxIndex := 0, rxLen := 0, rxBuffer := nullRef }

/-- One channel after reset: the two interrupt enables are 0, the other control fields any value
(10_state.md R44, R52). -/
def Uart.resetWith (nullRef : Nat) (sr : StatusReg) (brr : BitVec 16) (cr : ControlReg)
    (rdr : Byte) : Uart :=
  { ch := ChBank.resetWith nullRef, sr := sr, brr := brr, cr := { cr with tcie := false, rxneie := false },
    rdr := rdr, txInflight := false, ieDesired := ⟨false, false⟩,
    cbTx := nullRef, cbRx := nullRef, txLog := [] }

/-- Reset with every open value an argument: the parameters, NUM_SLOTS = `n`, the unspecified levels
(10_state.md R52, 70_reset_and_hazards.md R260, R262) and the contents of buffer memory, which the caller
owns (10_state.md R51, 20_memory.md R60). -/
def State.resetWith (cfg : Cfg) (n : Nat) (o : ResetLevels) (mem : Memory) : State :=
  { cfg := cfg
    bus := Bus.resetWith o
    lcd := Lcd.resetWith n
    uarts :=
      ⟨Uart.resetWith cfg.nullRef o.sr.ch0 o.brr.ch0 o.cr.ch0 o.rdr.ch0,
       Uart.resetWith cfg.nullRef o.sr.ch1 o.brr.ch1 o.cr.ch1 o.rdr.ch1,
       Uart.resetWith cfg.nullRef o.sr.ch2 o.brr.ch2 o.cr.ch2 o.rdr.ch2⟩
    mem := mem
    cbLog := []
    fgWait := .none
    responses := []
    script := []
    pc := 0 }

/-- The values this model names for what the spec leaves unspecified at reset: all zero (DESIGN
CHOICE, unsafe, entries 4 to 7). -/
def ResetLevels.zero : ResetLevels :=
  { e := false, rs := false, rw := false, d := 0
    sr := PerChannel.all ⟨false, false⟩
    brr := PerChannel.all 0
    cr := PerChannel.all ⟨false, false, 0, false, false, false, false, false⟩
    rdr := PerChannel.all 0 }

/-- The machine right after reset: the one member of `State.resetWith` the model runs from. Its memory
lists no byte (DESIGN CHOICE, safe: no address is readable until a byte is given, entry 34). -/
def State.reset : State := State.resetWith Cfg.default Config.resetSlots ResetLevels.zero []

/-- The actions of a callback body about which nothing is known, a free value: they may depend on the
handler and on the whole state the body finds (00_scope.md R10, CB_BODY; 60_exceptions.md R254;
entry 20). -/
opaque freeBody : Nat → State → List CallbackAction

end Sys2Proof.Machine
end

