-- ==== Sys2Proof/Machine/Operands.lean ====
section
/-!
DEFINITION. The operand forms and the integer arithmetic of the block: channel resolution, element
addresses, the display-address command, the divisor computation, result-code numbers
(42_serial_submission.md R170, R173, R184; 20_memory.md R65; 41_display_sequencer.md R154;
30_encoding.md R97, R103 to R106).
-/

namespace Sys2Proof.Machine

/-- `Resolve(sel)`: the channel a selector names, or none (42_serial_submission.md R170). -/
def resolve (cfg : Cfg) (sel : Byte) : Option Channel := cfg.channelOf.lookup sel

/-- The low INDEX_WIDTH bits of a number: the operand itself where it fits (00_scope.md R10; entry 32). -/
def fitIndex (cfg : Cfg) (v : Nat) : Nat := v % cfg.indexEnd

/-- The low REF_WIDTH bits of a number: the operand itself where it fits (00_scope.md R10; entry 32). -/
def fitRef (cfg : Cfg) (r : Nat) : Nat := r % cfg.memEnd

/-- The address of element `k` of the buffer `r`: `r + k` on naturals. None where the sum leaves the
address space (20_memory.md R65) or the reference is absent (R66; entry 12). -/
def elemAddr (cfg : Cfg) (r : Nat) (k : Nat) : Option Nat :=
  if r = cfg.nullRef then none
  else if r + k < cfg.memEnd then some (r + k)
  else none

/-- `inc_W` at INDEX_WIDTH: `(v + 1) mod 2^INDEX_WIDTH` (00_scope.md R12). -/
def incIndex (cfg : Cfg) (v : Nat) : Nat := fitIndex cfg (v + 1)

/-- SETPOS_CMD(row, col) (41_display_sequencer.md R154, 00_scope.md R10). -/
def setposCmd (cfg : Cfg) (row : BitVec 1) (col : BitVec 4) : Byte :=
  cfg.setposTable.get (row ++ col).toFin

/-- The position check of LCD.GOTO: row in {0, 1} and column in 0..15 (41_display_sequencer.md R145). -/
def validPosition (row col : Byte) : Bool :=
  decide (row.toNat < Config.numRows) && decide (col.toNat < Config.numCols)

/-- `k = 8 × (2 − over8)` (42_serial_submission.md R173). -/
def oversampling (over8 : Bool) : Nat := 8 * (2 - over8.toNat)

/-- `BaudDiv(clock, baud, over8)`: mantissa and fraction, on unbounded naturals with floor division
and the carry of a fraction above 15 into the mantissa (42_serial_submission.md R173). -/
def baudDiv (clock baud : Nat) (over8 : Bool) : Nat × Nat :=
  let k := oversampling over8
  let raw := (clock * 1000) / (baud * k)
  let mant := raw / 1000
  let frac := ((raw % 1000) * k) / 1000
  if frac > 15 then (mant + (frac >>> 4), frac &&& 0xF) else (mant, frac)

/-- The packing of the baud-rate register: `(mantissa << 4) OR fraction` (30_encoding.md R105). -/
def packBrr (mant frac : Nat) : BitVec 16 := BitVec.ofNat 16 ((mant <<< 4) ||| frac)

/-- The mantissa field of the baud-rate register: bits [15:4] (10_state.md R43). -/
def brrMantissa (brr : BitVec 16) : BitVec 12 := brr.extractLsb' 4 12

/-- The fraction field of the baud-rate register: bits [3:0] (10_state.md R43). -/
def brrFraction (brr : BitVec 16) : BitVec 4 := brr.extractLsb' 0 4

/-- The callback entry of one direction (10_state.md R36). -/
def callbackOf (u : Uart) : Direction → Nat
  | .tx => u.cbTx
  | .rx => u.cbRx

/-- A channel with one callback entry overwritten (42_serial_submission.md R180). -/
def setCallback (u : Uart) (d : Direction) (h : Nat) : Uart :=
  match d with
  | .tx => { u with cbTx := h }
  | .rx => { u with cbRx := h }

/-- The busy flag of one direction (10_state.md R32). -/
def busyOf (u : Uart) : Direction → Bool
  | .tx => u.ch.txBusy
  | .rx => u.ch.rxBusy

/-- The length register of one direction (10_state.md R32). -/
def lenOf (u : Uart) : Direction → Nat
  | .tx => u.ch.txLen
  | .rx => u.ch.rxLen

/-- `CB_BODY[h]`; a handler that has no entry is log-only (43_serial_interrupt_handler.md R206). -/
def bodyOf (cfg : Cfg) (h : Nat) : CallbackBody := (cfg.cbBody.lookup h).getD (.listed [])

/-- What a callback body does when it finds the state `s`. -/
def actionsOf (h : Nat) (s : State) : CallbackBody → List CallbackAction
  | .listed actions => actions
  | .free => freeBody h s

/-- The response of a request that returns a code and no data (30_encoding.md R100). -/
def codeOnly (code : ResultCode) : Response := ⟨code, 0⟩

/-- The number of a result code, RESULT_CODE (30_encoding.md R103, 00_scope.md R10). -/
def codeValue (cfg : Cfg) : ResultCode → BitVec 3
  | .ok => cfg.resultNumbers.ok
  | .nullArgument => cfg.resultNumbers.nullArgument
  | .invalidPosition => cfg.resultNumbers.invalidPosition
  | .invalidChannel => cfg.resultNumbers.invalidChannel
  | .bufferFull => cfg.resultNumbers.bufferFull
  | .busy => cfg.resultNumbers.busy

/-- The number of a slot kind (30_encoding.md R106). -/
def kindValue : Kind → Nat
  | .none => 0
  | .write _ _ => 1
  | .clear => 2
  | .rawCommand _ => 3
  | .setPosition _ _ => 4
  | .done => 5

/-- The number of a slot's progress (30_encoding.md R106). -/
def progressValue : Progress → Nat
  | .start => 0
  | .inProgress => 1
  | .finished => 2

/-- The number of a lifecycle state (30_encoding.md R106). -/
def lifeValue : Life → Nat
  | .off => 0
  | .initializing => 1
  | .operational => 2

/-- The number of an init sub-state (30_encoding.md R106). -/
def isubValue : InitSub → Nat
  | .powerOn => 0
  | .functionSet => 1
  | .displayControl => 2
  | .displayClear => 3
  | .done => 4

end Sys2Proof.Machine
end

