-- ==== Sys2Proof/Machine/Flags.lean ====
section
/-!
DEFINITION. The flags of 10_state.md R35 as the conditions and updates the operations use: status-bit
clears one at a time, arming and disarming, the pending condition, the mixed-use condition, the
completion condition of a busy-wait. The block has no arithmetic condition codes.
-/

namespace Sys2Proof.Machine

/-- `U[c].SR.TC <- 0`, leaving `RXNE` (20_memory.md R70). -/
def clearTc (u : Uart) : Uart := { u with sr := { u.sr with tc := false } }

/-- `U[c].SR.RXNE <- 0`, leaving `TC` (20_memory.md R70). -/
def clearRxne (u : Uart) : Uart := { u with sr := { u.sr with rxne := false } }

/-- `Arm(c, Tx)`: OR the desired bit into the enable bit (42_serial_submission.md R179). -/
def armTx (u : Uart) : Uart := { u with cr := { u.cr with tcie := u.cr.tcie || u.ieDesired.tc } }

/-- `Arm(c, Rx)` (42_serial_submission.md R179). -/
def armRx (u : Uart) : Uart :=
  { u with cr := { u.cr with rxneie := u.cr.rxneie || u.ieDesired.rxne } }

/-- Clear `TCIE` at a completion when DISARM_ON_COMPLETE (43_serial_interrupt_handler.md R211). -/
def disarmTx (disarm : Bool) (u : Uart) : Uart :=
  { u with cr := { u.cr with tcie := u.cr.tcie && !disarm } }

/-- Clear `RXNEIE` at a completion when DISARM_ON_COMPLETE (43_serial_interrupt_handler.md R211). -/
def disarmRx (disarm : Bool) (u : Uart) : Uart :=
  { u with cr := { u.cr with rxneie := u.cr.rxneie && !disarm } }

/-- `IRQ_PENDING` of a channel whose line is routed or not (10_state.md R50, 60_exceptions.md R232). -/
def irqPending (nvicEn : Bool) (u : Uart) : Bool :=
  nvicEn && ((u.cr.tcie && u.sr.tc) || (u.cr.rxneie && u.sr.rxne))

/-- `Mixed(c)`: asynchronous activity on the channel (42_serial_submission.md R181). -/
def mixed (u : Uart) : Bool := u.ch.txBusy || u.ch.rxBusy || u.cr.tcie || u.cr.rxneie

/-- The busy-wait's flag is set: the completion of US.SENDB or US.RECVB is enabled
(42_serial_submission.md R182, R183). -/
def completionEnabled (s : State) : Bool :=
  match s.fgWait with
  | .none => false
  | .sendB c => (s.uarts.get c).sr.tc
  | .recvB c => (s.uarts.get c).sr.rxne

/-- The foreground is inside a busy-wait (10_state.md R53). -/
def foregroundWaits (s : State) : Bool := s.fgWait != .none

end Sys2Proof.Machine
end

