-- ==== Sys2Proof/Machine/Ops.lean ====
section
/-!
DEFINITION. The operations the meanings share: sequencing of outcomes, the parts of the state, buffer
memory (20_memory.md R60 to R66), the data register (R68, R69), responses and the script position
(30_encoding.md R100 to R102), and taking the interrupt of a channel (60_exceptions.md R232 to R235).
-/

namespace Sys2Proof.Machine

/-- An outcome that carries a value. -/
abbrev Result (α : Type) := Host.Outcome α Fault Refusal

/-- What a foreground request answers: the state it leaves and its response (30_encoding.md R100). -/
abbrev Reply := Result (State × Response)

/-- Go on with the value of a next; a fault or a refusal ends the run (60_exceptions.md R226, R227). -/
def andThen {α β : Type} (o : Result α) (k : α → Result β) : Result β :=
  match o with
  | .next a => k a
  | .fault f => .fault f
  | .refused r => .refused r

/-- A value, or `fault BufferBounds` (20_memory.md R66). -/
def orBounds {α : Type} : Option α → Result α
  | some a => .next a
  | none => .fault .bufferBounds

/-- The bank and registers of channel `c`. -/
def State.uart (s : State) (c : Channel) : Uart := s.uarts.get c

/-- The state with channel `c` changed by `f`. -/
def State.modUart (s : State) (c : Channel) (f : Uart → Uart) : State :=
  { s with uarts := s.uarts.set c (f (s.uarts.get c)) }

/-- The state with unit STB replaced. -/
def State.setBus (s : State) (b : Bus) : State := { s with bus := b }

/-- The state with the display sequencer replaced. -/
def State.setLcd (s : State) (l : Lcd) : State := { s with lcd := l }

/-- The state with the buffer memory replaced. -/
def State.setMem (s : State) (m : Memory) : State := { s with mem := m }

/-- The state with the foreground wait marker replaced (10_state.md R53). -/
def State.setFgWait (s : State) (w : FgWait) : State := { s with fgWait := w }

/-- The state with one entry more in CB_LOG (10_state.md R49). -/
def State.logCallback (s : State) (x : CbEntry) : State := { s with cbLog := s.cbLog ++ [x] }

/-- The state with one response more delivered to the foreground (30_encoding.md R100). -/
def State.respond (s : State) (r : Response) : State := { s with responses := s.responses ++ [r] }

/-- `pc <- pc + n` (30_encoding.md R102). -/
def State.advance (s : State) (n : Nat) : State := { s with pc := s.pc + n }

/-- The end of a foreground request: its response is delivered and `pc` moves past its words, whatever
the code (30_encoding.md R100, R102). -/
def deliver (n : Nat) (r : Reply) : Result State :=
  andThen r fun x => .next ((x.1.respond x.2).advance n)

/-- A request that returns a code and changes no state (60_exceptions.md R220). -/
def reject (s : State) (code : ResultCode) : Reply := .next (s, codeOnly code)

/-- `MemRead(a, 1)`; an unlisted address lies outside every window (20_memory.md R62, R66; entry 10). -/
def memRead : Memory → Nat → Option Byte
  | [], _ => none
  | cell :: rest, a => if cell.1 = a then some cell.2 else memRead rest a

/-- `MemWrite(a, 1, v)`, keeping the addresses in rising order (20_memory.md R62). -/
def memWrite : Memory → Nat → Byte → Memory
  | [], a, v => [(a, v)]
  | cell :: rest, a, v =>
    if a < cell.1 then (a, v) :: cell :: rest
    else if a = cell.1 then (a, v) :: rest
    else cell :: memWrite rest a v

/-- The canonical form of buffer memory: addresses strictly rising, each an address of MEM. An
unlisted address has no value, so no listed byte equals what it reads as. -/
abbrev memWf (cfg : Cfg) (m : Memory) : Prop :=
  m.Pairwise (fun x y => x.1 < y.1) ∧ ∀ x ∈ m, x.1 < cfg.memEnd

/-- Element `k` of a buffer `r` of which the caller promised the elements below `len`, or none where
the access is outside the window (20_memory.md R65, R66). -/
def bufRead (cfg : Cfg) (m : Memory) (r : Nat) (k len : Nat) : Option Byte :=
  if k < len then (elemAddr cfg r k).bind (memRead m) else none

/-- The memory with `v` stored at element `k` of a buffer `r` of which the caller promised the elements
below `len`, or none where the access is outside the window (20_memory.md R65, R66; entry 11). -/
def bufWrite (cfg : Cfg) (m : Memory) (r : Nat) (k len : Nat) (v : Byte) : Option Memory :=
  if k < len then (elemAddr cfg r k).map fun a => memWrite m a v else none

/-- A channel that has just been handed one byte to send (20_memory.md R68). -/
def sentByte (b : Byte) (u : Uart) : Uart := { u with txLog := u.txLog ++ [b], txInflight := true }

/-- `DrWrite(c, b)`; over a byte in flight it is `refuse TxOverwrite` (20_memory.md R68). -/
def drWrite (c : Channel) (b : Byte) (s : State) : Result State :=
  if (s.uart c).txInflight then .refused .txOverwrite
  else .next (s.modUart c (sentByte b))

/-- The channel after a read of its data register (20_memory.md R69). -/
def afterDrRead (clears : Bool) (u : Uart) : Uart :=
  { u with sr := { u.sr with rxne := u.sr.rxne && !clears } }

/-- `DrRead(c)`: the byte last received and the state after the read (20_memory.md R69). -/
def drRead (c : Channel) (s : State) : Byte × State :=
  ((s.uart c).rdr, s.modUart c (afterDrRead s.cfg.drReadClearsRxne))

/-- Taking the interrupt of channel `c`: allowed exactly when it is pending; entry saves nothing and
switches nothing, and return restores nothing (60_exceptions.md R232, R233, R235). -/
def takeInterrupt (c : Channel) (handler : State → Result State) (s : State) : Result State :=
  if irqPending (s.cfg.nvicEn.get c) (s.uart c) then handler s else .refused .irqNotPending

end Sys2Proof.Machine
end

