-- ==== Sys2Proof/Machine/Strobe.lean ====
section
/-!
DEFINITION. Unit STB, the enable-strobe driver: 40_strobe_driver.md R120 to R128, and HW.NOP
(43_serial_interrupt_handler.md R215).
-/

namespace Sys2Proof.Machine

/-- `Pin(E) <- 0` with its LATCH_LOG append: the fall of `E` from a level the block drove to 1 latches
the levels the lines hold (40_strobe_driver.md R121, R124). -/
def dropEnable (u : Bus) : Bus :=
  { u with
    latchLog := if u.eDriven && u.e then u.latchLog ++ [⟨u.rs, u.rw, u.d⟩] else u.latchLog
    e := false
    eDriven := true }

/-- The not-asserted arm of `Strobe`: line `D[i]` takes bit `i` of the byte, `RW` is low, `E` rises
(40_strobe_driver.md R121). -/
def presentByte (b : Byte) (rs : Bool) (u : Bus) : Bus :=
  { u with d := b, rs := rs, rw := false, e := true, eDriven := true, phase := true }

/-- `Strobe(b, rs)` (40_strobe_driver.md R121). -/
def strobe (b : Byte) (rs : Bool) (u : Bus) : Bus :=
  if u.phase then { dropEnable u with phase := false } else presentByte b rs u

/-- One call of the protocol driver, which always returns Ok (40_strobe_driver.md R122, R123). -/
def requestStrobe (b : Byte) (rs : Bool) (s : State) : Reply :=
  .next (s.setBus (strobe b rs s.bus), codeOnly .ok)

/-- The request of STB.ELOW (40_strobe_driver.md R124). -/
def requestElow (s : State) : Reply := .next (s.setBus (dropEnable s.bus), codeOnly .ok)

/-- STB.CMD (40_strobe_driver.md R122). -/
def execStbCmd (byte : Byte) (s : State) : Result State := deliver 1 (requestStrobe byte false s)

/-- STB.CHR (40_strobe_driver.md R123). -/
def execStbChr (byte : Byte) (s : State) : Result State := deliver 1 (requestStrobe byte true s)

/-- STB.ELOW (40_strobe_driver.md R124). -/
def execStbElow (s : State) : Result State := deliver 1 (requestElow s)

/-- HW.NOP (43_serial_interrupt_handler.md R215). -/
def execNop (s : State) : Result State := .next (s.advance 1)

end Sys2Proof.Machine
end

