-- ==== Sys2Proof/Machine/Display.lean ====
section
/-!
DEFINITION. The display sequencer: 41_display_sequencer.md R140 to R161.
-/

namespace Sys2Proof.Machine

/-- The slot table after the lowest free slot is claimed for a request of kind `k`, or none when every
slot is occupied (41_display_sequencer.md R143). -/
def claimSlot (k : Kind) : List Slot → Option (List Slot)
  | [] => none
  | x :: rest =>
    if x.occupied then (claimSlot k rest).map (x :: ·)
    else some ({ occupied := true, kind := k, progress := .start } :: rest)

/-- `Claim(k, payload)` (41_display_sequencer.md R143). -/
def claim (k : Kind) (s : State) : Reply :=
  match claimSlot k s.lcd.slots with
  | some slots => .next (s.setLcd { s.lcd with slots := slots }, codeOnly .ok)
  | none => reject s .bufferFull

/-- `WriteTextAsynch(text, length)` (41_display_sequencer.md R144). -/
def requestWrite (text : Nat) (length : Nat) (s : State) : Reply :=
  if fitRef s.cfg text = s.cfg.nullRef then reject s .nullArgument
  else claim (.write (fitRef s.cfg text) (fitIndex s.cfg length)) s

/-- `GoToAsynch(row, col)` (41_display_sequencer.md R145). -/
def requestGoto (row col : Byte) (s : State) : Reply :=
  if validPosition row col then claim (.setPosition (row.setWidth 1) (col.setWidth 4)) s
  else reject s .invalidPosition

/-- `ClearAsynch()` (41_display_sequencer.md R146). -/
def requestClear (s : State) : Reply := claim .clear s

/-- `CommandAsynch(byte)` (41_display_sequencer.md R147). -/
def requestCommand (byte : Byte) (s : State) : Reply := claim (.rawCommand byte) s

/-- `init_asynch` (41_display_sequencer.md R140). -/
def requestInitDisplay (s : State) : Reply :=
  .next
    ((s.setBus { s.bus with pinsCfg := true }).setLcd
      { s.lcd with life := if s.lcd.life = .off then .initializing else s.lcd.life },
     codeOnly .ok)

/-- `SLOT[cur]`. An index past the table reads as a free slot: no run reaches it
(10_state.md R27; entry 26). -/
def curSlot (l : Lcd) : Slot := l.slots.getD l.cur Slot.free

/-- The sequencer with `SLOT[cur]` replaced. -/
def setCur (l : Lcd) (x : Slot) : Lcd := { l with slots := l.slots.set l.cur x }

/-- A slot in service (41_display_sequencer.md R152 to R155). -/
def inProgress (x : Slot) : Slot := { x with progress := .inProgress }

/-- A finished slot, still occupied (41_display_sequencer.md R156). -/
def finished (x : Slot) : Slot := { x with kind := .done, progress := .finished }

/-- A freed slot, which keeps its progress (41_display_sequencer.md R157). -/
def released (x : Slot) : Slot := { x with occupied := false, kind := .none }

/-- A slot newly selected (41_display_sequencer.md R157). -/
def restarted (x : Slot) : Slot := { x with progress := .start }

/-- `SLOT[cur].progress <- InProgress`. -/
def beginCur (l : Lcd) : Lcd := setCur l (inProgress (curSlot l))

/-- `Complete()` (41_display_sequencer.md R156). -/
def complete (l : Lcd) : Lcd := setCur l (finished (curSlot l))

/-- The index of the first occupied slot (41_display_sequencer.md R157). -/
def firstOccupied : List Slot → Option Nat
  | [] => none
  | x :: rest => if x.occupied then some 0 else (firstOccupied rest).map (· + 1)

/-- The scan of `ReclaimStep()`: the first occupied slot becomes current, or the engine is idle
(41_display_sequencer.md R157). -/
def selectNext (l : Lcd) : Lcd :=
  match firstOccupied l.slots with
  | some i => { l with cur := i, slots := l.slots.set i (restarted (l.slots.getD i Slot.free)) }
  | none => { l with cur := 0 }

/-- `ReclaimStep()` (41_display_sequencer.md R157). -/
def reclaimStep (l : Lcd) : Lcd := selectNext (setCur l (released (curSlot l)))

/-- `Issue(b)` and `IssueChar(b)`: one `Strobe` call, and whether it was the latching one
(41_display_sequencer.md R150). The first component is unit STB after the call. -/
def issue (b : Byte) (rs : Bool) (u : Bus) : Bus × Bool :=
  (strobe b rs u, !(strobe b rs u).phase)

/-- A command-issuing sub-state `here`: issue the command, and go to `next` on the latching call
(41_display_sequencer.md R149). -/
def issueInit (cmd : Byte) (here next : InitSub) (s : State) : State :=
  (s.setBus (issue cmd false s.bus).1).setLcd
    { s.lcd with isub := if (issue cmd false s.bus).2 then next else here }

/-- `InitStep()` (41_display_sequencer.md R149). -/
def initStep (s : State) : State :=
  match s.lcd.isub with
  | .powerOn => (s.setBus (dropEnable s.bus)).setLcd { s.lcd with isub := .functionSet }
  | .functionSet =>
    if s.lcd.delay < s.cfg.initDelayTicks then s.setLcd { s.lcd with delay := s.lcd.delay + 1 }
    else issueInit s.cfg.cmdFunctionSet .functionSet .displayControl s
  | .displayControl => issueInit s.cfg.cmdDisplayOn .displayControl .displayClear s
  | .displayClear => issueInit s.cfg.cmdClear .displayClear .done s
  | .done => s.setLcd { s.lcd with life := .operational }

/-- The shape Clear, SetPosition and RawCommand share: the slot is in progress, the command byte is
issued, and on the latching call `finish` is done and the slot completes
(41_display_sequencer.md R153 to R155). -/
def commandStep (b : Byte) (finish : Lcd → Lcd) (s : State) : State :=
  (s.setBus (issue b false s.bus).1).setLcd
    (if (issue b false s.bus).2 then complete (finish (beginCur s.lcd)) else beginCur s.lcd)

/-- `ClearStep()` (41_display_sequencer.md R153). -/
def clearStep (s : State) : State := commandStep s.cfg.cmdClear id s

/-- `cursor_row <- row ; cursor_col <- col` (41_display_sequencer.md R154). -/
def moveCursor (row : BitVec 1) (col : BitVec 4) (l : Lcd) : Lcd :=
  { l with cursorRow := row, cursorCol := col }

/-- `SetPositionStep()` (41_display_sequencer.md R154). -/
def setPositionStep (row : BitVec 1) (col : BitVec 4) (s : State) : State :=
  commandStep (setposCmd s.cfg row col) (moveCursor row col) s

/-- `RawCommandStep()` (41_display_sequencer.md R155). -/
def rawCommandStep (byte : Byte) (s : State) : State := commandStep byte id s

/-- `widx <- v`. -/
def setWidx (l : Lcd) (v : Nat) : Lcd := { l with widx := v }

/-- One call of the bus cycle of character `b` (41_display_sequencer.md R152). -/
def writeChar (b : Byte) (s : State) : State :=
  (s.setBus (issue b true s.bus).1).setLcd
    (setWidx s.lcd (if (issue b true s.bus).2 then incIndex s.cfg s.lcd.widx else s.lcd.widx))

/-- `WriteStep()`: the character is read on both ticks of its bus cycle (41_display_sequencer.md R152). -/
def writeStep (text : Nat) (length : Nat) (s : State) : Result State :=
  if (curSlot s.lcd).progress = .start then
    .next (s.setLcd (setWidx (beginCur s.lcd) 0))
  else if s.lcd.widx = length then .next (s.setLcd (complete s.lcd))
  else
    andThen (orBounds (bufRead s.cfg s.mem text s.lcd.widx length)) fun b => .next (writeChar b s)

/-- `ServeStep()` (41_display_sequencer.md R151). -/
def serveStep (s : State) : Result State :=
  match (curSlot s.lcd).kind with
  | .none => .next s
  | .write text length => writeStep text length s
  | .clear => .next (clearStep s)
  | .setPosition row col => .next (setPositionStep row col s)
  | .rawCommand byte => .next (rawCommandStep byte s)
  | .done => .next (s.setLcd (reclaimStep s.lcd))

/-- The dispatch of one task tick on the lifecycle (41_display_sequencer.md R148). -/
def tick (s : State) : Result State :=
  match s.lcd.life with
  | .off => .next s
  | .initializing => .next (initStep s)
  | .operational => serveStep s

/-- LCD.INIT (41_display_sequencer.md R140). -/
def execLcdInit (s : State) : Result State := deliver 1 (requestInitDisplay s)

/-- LCD.WRITE (41_display_sequencer.md R144). -/
def execLcdWrite (text : Nat) (length : Nat) (s : State) : Result State :=
  deliver 2 (requestWrite text length s)

/-- LCD.GOTO (41_display_sequencer.md R145). -/
def execLcdGoto (row col : Byte) (s : State) : Result State := deliver 1 (requestGoto row col s)

/-- LCD.CLEAR (41_display_sequencer.md R146). -/
def execLcdClear (s : State) : Result State := deliver 1 (requestClear s)

/-- LCD.CMD (41_display_sequencer.md R147). -/
def execLcdCmd (byte : Byte) (s : State) : Result State := deliver 1 (requestCommand byte s)

/-- LCD.TICK (41_display_sequencer.md R148). -/
def execLcdTick (s : State) : Result State := andThen (tick s) fun t => .next (t.advance 1)

end Sys2Proof.Machine
end

