-- ==== Sys2Proof/Machine/Serial.lean ====
section
/-!
DEFINITION. The foreground operations of unit UBT: 42_serial_submission.md R170 to R184.
-/

namespace Sys2Proof.Machine

/-- Channel resolution comes first: an unknown selector is InvalidChannel with no state changed
(42_serial_submission.md R170, R171). -/
def onChannel (sel : Byte) (s : State) (k : Channel → Reply) : Reply :=
  match resolve s.cfg sel with
  | some c => k c
  | none => reject s .invalidChannel

/-- What US.INIT writes to a channel (42_serial_submission.md R172). -/
def configure (flags : InitFlags) (brr : BitVec 16) (u : Uart) : Uart :=
  { u with
    brr := brr
    cr :=
      { u.cr with
        over8 := flags.over8
        m := flags.wordlen
        parity := flags.parity
        te := flags.te
        re := flags.re
        ue := true }
    ieDesired := ⟨flags.ieTc, flags.ieRxne⟩ }

/-- `init(config)` (42_serial_submission.md R172). A reserved parity is no request at all and is
refused before anything else (30_encoding.md R98; entry 29). -/
def requestInit (sel : Byte) (flags : InitFlags) (clock baud : Word) (s : State) : Reply :=
  if flags.parity = 3 then .refused .illegalRequest
  else
    onChannel sel s fun c =>
      if baud = 0 then .refused .baudZero
      else
        if Config.mantissaEnd ≤ (baudDiv clock.toNat baud.toNat flags.over8).1 then
          .refused .baudRange
        else
          .next
            (s.modUart c (configure flags (packBrr (baudDiv clock.toNat baud.toNat flags.over8).1
              (baudDiv clock.toNat baud.toNat flags.over8).2)),
             codeOnly .ok)

/-- What an accepted US.SEND writes to the bank, with the arming (42_serial_submission.md R175, R179). -/
def startTx (data : Nat) (length : Nat) (u : Uart) : Uart :=
  armTx { u with ch := { u.ch with txBusy := true, txIndex := 1, txLen := length, txBuffer := data } }

/-- `send_buffer_zero_copy(channel, data, length)` (42_serial_submission.md R175). Element 0 is read
before the data register is written (entry 14). -/
def requestSend (sel : Byte) (data : Nat) (length : Nat) (s : State) : Reply :=
  onChannel sel s fun c =>
    if fitRef s.cfg data = s.cfg.nullRef then reject s .nullArgument
    else if (s.uart c).ch.txBusy then reject s .busy
    else
      andThen (orBounds (bufRead s.cfg s.mem (fitRef s.cfg data) 0 (fitIndex s.cfg length))) fun b =>
        andThen (drWrite c b s) fun t =>
          .next (t.modUart c (startTx (fitRef s.cfg data) (fitIndex s.cfg length)), codeOnly .ok)

/-- What an accepted US.RECV writes to the bank, with the arming (42_serial_submission.md R176, R179). -/
def startRx (dest : Nat) (start length : Nat) (u : Uart) : Uart :=
  armRx
    { u with ch := { u.ch with rxBusy := true, rxIndex := start, rxLen := length, rxBuffer := dest } }

/-- `receive_buffer(channel, dest, start_index, length)` (42_serial_submission.md R176). -/
def requestRecv (sel : Byte) (dest : Nat) (start length : Nat) (s : State) : Reply :=
  onChannel sel s fun c =>
    if fitRef s.cfg dest = s.cfg.nullRef then reject s .nullArgument
    else if (s.uart c).ch.rxBusy then reject s .busy
    else
      .next
        (s.modUart c
          (startRx (fitRef s.cfg dest) (fitIndex s.cfg start) (fitIndex s.cfg length)),
         codeOnly .ok)

/-- `register_callback(channel, direction, handler)` (42_serial_submission.md R180). -/
def requestRegcb (sel : Byte) (dir : Direction) (handler : Nat) (s : State) : Reply :=
  onChannel sel s fun c =>
    if fitRef s.cfg handler = s.cfg.nullRef then reject s .nullArgument
    else .next (s.modUart c (fun u => setCallback u dir (fitRef s.cfg handler)), codeOnly .ok)

/-- The issue step of a blocking operation: InvalidChannel is answered at once, a use beside the
asynchronous path is refused, and otherwise `start` puts the foreground into its busy-wait; no response
is produced yet (42_serial_submission.md R181 to R183, 30_encoding.md R101). -/
def issueBlocking (sel : Byte) (s : State) (start : Channel → Result State) : Result State :=
  match resolve s.cfg sel with
  | none => deliver 1 (reject s .invalidChannel)
  | some c =>
    if mixed (s.uart c) then .refused .mixedBlockingAsync
    else andThen (start c) fun t => .next (t.advance 1)

/-- What the completion of US.SENDB does on its channel, and what it answers
(42_serial_submission.md R182). -/
def finishSendb (c : Channel) (s : State) : State × Response :=
  (s.modUart c clearTc, codeOnly .ok)

/-- What the completion of US.RECVB does on its channel, and what it answers
(42_serial_submission.md R183). -/
def finishRecvb (c : Channel) (s : State) : State × Response :=
  ((drRead c s).2.modUart c clearRxne, ⟨.ok, (drRead c s).1⟩)

/-- The foreground leaves its busy-wait with a response (10_state.md R53). -/
def endWait (x : State × Response) : State := (x.1.setFgWait .none).respond x.2

/-- The completion step of the busy-wait the foreground is in (42_serial_submission.md R182, R183).
`pc` has already moved past the request. -/
def completeBlocking (s : State) : State :=
  match s.fgWait with
  | .none => s
  | .sendB c => endWait (finishSendb c s)
  | .recvB c => endWait (finishRecvb c s)

/-- US.INIT (42_serial_submission.md R172). -/
def execUsInit (sel : Byte) (flags : InitFlags) (clock baud : Word) (s : State) : Result State :=
  deliver 3 (requestInit sel flags clock baud s)

/-- US.SEND (42_serial_submission.md R175). -/
def execUsSend (sel : Byte) (data : Nat) (length : Nat) (s : State) : Result State :=
  deliver 2 (requestSend sel data length s)

/-- US.RECV (42_serial_submission.md R176). -/
def execUsRecv (sel : Byte) (dest : Nat) (start length : Nat) (s : State) : Result State :=
  deliver 3 (requestRecv sel dest start length s)

/-- US.SENDB, its issue step (42_serial_submission.md R182). -/
def execUsSendb (sel byte : Byte) (s : State) : Result State :=
  issueBlocking sel s fun c => andThen (drWrite c byte s) fun t => .next (t.setFgWait (.sendB c))

/-- US.RECVB, its issue step (42_serial_submission.md R183). -/
def execUsRecvb (sel : Byte) (s : State) : Result State :=
  issueBlocking sel s fun c => .next (s.setFgWait (.recvB c))

/-- US.REGCB (42_serial_submission.md R180). -/
def execUsRegcb (sel : Byte) (dir : Direction) (handler : Nat) (s : State) : Result State :=
  deliver 2 (requestRegcb sel dir handler s)

end Sys2Proof.Machine
end

