-- ==== Sys2Proof/Machine/Interrupt.lean ====
section
/-!
DEFINITION. The byte-transfer interrupt handler and the hardware events of unit UBT:
43_serial_interrupt_handler.md R200 to R214.
-/

namespace Sys2Proof.Machine

/-- A blocking call inside a callback body: its issue, and its completion if the flag it waits on is
set. No other step can set the flag before the body returns, so otherwise the call never returns
(42_serial_submission.md R181 to R183, 60_exceptions.md R254; entry 33). -/
def callbackBlocking (sel : Byte) (s : State) (start : Channel → Result State) (ready : Uart → Bool)
    (finish : Channel → State → State × Response) : Reply :=
  onChannel sel s fun c =>
    if mixed (s.uart c) then .refused .mixedBlockingAsync
    else
      andThen (start c) fun t =>
        if ready (t.uart c) then .next (finish c t) else .refused .callbackHangs

/-- A byte that a callback body stores into a buffer of its own (20_memory.md R60, R64; entry 20). -/
def callbackStore (address : Nat) (value : Byte) (s : State) : Reply :=
  .next (s.setMem (memWrite s.mem (fitRef s.cfg address) value), codeOnly .ok)

/-- One action of a callback body, a request having the meaning it has from the foreground
(43_serial_interrupt_handler.md R206, 60_exceptions.md R254; entry 20). -/
def callbackRequest (a : CallbackAction) (s : State) : Reply :=
  match a with
  | .stbCmd byte => requestStrobe byte false s
  | .stbChr byte => requestStrobe byte true s
  | .stbElow => requestElow s
  | .lcdInit => requestInitDisplay s
  | .init sel flags clock baud => requestInit sel flags clock baud s
  | .sendb sel byte =>
    callbackBlocking sel s (fun c => drWrite c byte s) (fun u => u.sr.tc) finishSendb
  | .recvb sel => callbackBlocking sel s (fun _ => .next s) (fun u => u.sr.rxne) finishRecvb
  | .store address value => callbackStore address value s
  | .send sel data length => requestSend sel data length s
  | .recv sel dest start length => requestRecv sel dest start length s
  | .regcb sel dir handler => requestRegcb sel dir handler s
  | .write text length => requestWrite text length s
  | .goto row col => requestGoto row col s
  | .clear => requestClear s
  | .command byte => requestCommand byte s

/-- The body of a callback: its actions in order, each returning its code to the body and not to
the foreground (43_serial_interrupt_handler.md R206; entry 21). -/
def runBody : List CallbackAction → State → Result State
  | [], s => .next s
  | a :: rest, s => andThen (callbackRequest a s) fun x => runBody rest x.1

/-- `run CB_BODY[h]` (43_serial_interrupt_handler.md R206). -/
def callBody (h : Nat) (s : State) : Result State := runBody (actionsOf h s (bodyOf s.cfg h)) s

/-- The log entry of an invocation: the handler, and the busy flag and length it can see
(10_state.md R49, 43_serial_interrupt_handler.md R206). -/
def invocation (c : Channel) (d : Direction) (u : Uart) : CbEntry :=
  ⟨c, d, callbackOf u d, busyOf u d, lenOf u d⟩

/-- `if CB[c][d] present then invoke(c, d)` (43_serial_interrupt_handler.md R204, R206, R208). -/
def invoke (c : Channel) (d : Direction) (s : State) : Result State :=
  if callbackOf (s.uart c) d = s.cfg.nullRef then .next s
  else
    callBody (callbackOf (s.uart c) d) (s.logCallback (invocation c d (s.uart c)))

/-- `CH[c].tx_busy <- 0` and `CH[c].tx_len <- 0` (43_serial_interrupt_handler.md R204). -/
def finishTx (u : Uart) : Uart := { u with ch := { u.ch with txBusy := false, txLen := 0 } }

/-- `CH[c].rx_busy <- 0` and `CH[c].rx_len <- 0` (43_serial_interrupt_handler.md R208). -/
def finishRx (u : Uart) : Uart := { u with ch := { u.ch with rxBusy := false, rxLen := 0 } }

/-- `TcComplete(c)`: the callback runs after the bank is released and before the flag is cleared
(43_serial_interrupt_handler.md R204). -/
def tcComplete (c : Channel) (s : State) : Result State :=
  andThen (invoke c .tx (s.modUart c finishTx)) fun t =>
    .next (t.modUart c fun u => disarmTx t.cfg.disarmOnComplete (clearTc u))

/-- `CH[c].tx_index <- CH[c].tx_index + 1` (43_serial_interrupt_handler.md R205). -/
def nextTx (cfg : Cfg) (u : Uart) : Uart :=
  { u with ch := { u.ch with txIndex := incIndex cfg u.ch.txIndex } }

/-- `CH[c].rx_index <- CH[c].rx_index + 1` (43_serial_interrupt_handler.md R207). -/
def nextRx (cfg : Cfg) (u : Uart) : Uart :=
  { u with ch := { u.ch with rxIndex := incIndex cfg u.ch.rxIndex } }

/-- `TcNext(c)`: a reference is valid only while `tx_busy`, and its window ends at `tx_len`
(43_serial_interrupt_handler.md R205). -/
def tcNext (c : Channel) (s : State) : Result State :=
  if (s.uart c).ch.txBusy then
    andThen
      (orBounds
        (bufRead s.cfg s.mem (s.uart c).ch.txBuffer (s.uart c).ch.txIndex (s.uart c).ch.txLen))
      fun b =>
        andThen (drWrite c b s) fun t => .next (t.modUart c fun u => clearTc (nextTx s.cfg u))
  else .fault .bufferBounds

/-- `TcBranch(c)` (43_serial_interrupt_handler.md R203). -/
def tcBranch (c : Channel) (s : State) : Result State :=
  if (s.uart c).ch.txIndex = (s.uart c).ch.txLen then tcComplete c s else tcNext c s

/-- `RxComplete(c)` (43_serial_interrupt_handler.md R208). -/
def rxComplete (c : Channel) (s : State) : Result State :=
  invoke c .rx
    (s.modUart c fun u => disarmRx s.cfg.disarmOnComplete (finishRx (clearRxne u)))

/-- The part of `RxBranch(c)` before its completion test: the received byte is read and stored at the
running index, inside the window, and the index advances (43_serial_interrupt_handler.md R207). -/
def storeReceived (c : Channel) (s : State) : Result State :=
  andThen
    (orBounds
      (bufWrite s.cfg s.mem (s.uart c).ch.rxBuffer (s.uart c).ch.rxIndex (s.uart c).ch.rxLen
        (drRead c s).1))
    fun m => .next (((drRead c s).2.setMem m).modUart c (nextRx s.cfg))

/-- `RxBranch(c)`: the completion test is made after the increment
(43_serial_interrupt_handler.md R207, R208). -/
def rxBranch (c : Channel) (s : State) : Result State :=
  andThen (storeReceived c s) fun t =>
    if (t.uart c).ch.rxIndex = (t.uart c).ch.rxLen then rxComplete c t else .next t

/-- The first half of the handler: the transmit-complete branch, if its status bit is set
(43_serial_interrupt_handler.md R201). -/
def txHalf (c : Channel) (s : State) : Result State :=
  if (s.uart c).sr.tc then tcBranch c s else .next s

/-- The second half of the handler: the receive branch, if its status bit is set and a receive is in
progress (43_serial_interrupt_handler.md R201). -/
def rxHalf (c : Channel) (s : State) : Result State :=
  if (s.uart c).sr.rxne && (s.uart c).ch.rxBusy then rxBranch c s else .next s

/-- The handler: both tests are made on the state as it is when the test is reached
(43_serial_interrupt_handler.md R201, R202). -/
def handler (c : Channel) (s : State) : Result State := andThen (txHalf c s) (rxHalf c)

/-- US.IRQ (43_serial_interrupt_handler.md R201). -/
def execUsIrq (channel : Channel) (s : State) : Result State :=
  andThen (takeInterrupt channel (handler channel) s) fun t => .next (t.advance 1)

/-- The channel after its byte in flight is reported sent (43_serial_interrupt_handler.md R212). -/
def byteSent (u : Uart) : Uart := { u with txInflight := false, sr := { u.sr with tc := true } }

/-- HW.TXDONE (43_serial_interrupt_handler.md R212). -/
def execHwTxdone (channel : Channel) (s : State) : Result State :=
  if (s.uart channel).txInflight then .next ((s.modUart channel byteSent).advance 1)
  else .refused .noByteInFlight

/-- The channel after a byte is received (43_serial_interrupt_handler.md R213). -/
def byteReceived (b : Byte) (u : Uart) : Uart := { u with rdr := b, sr := { u.sr with rxne := true } }

/-- HW.RXBYTE (43_serial_interrupt_handler.md R213). -/
def execHwRxbyte (channel : Channel) (byte : Byte) (s : State) : Result State :=
  if (s.uart channel).sr.rxne then .refused .rxOverrun
  else .next ((s.modUart channel (byteReceived byte)).advance 1)

end Sys2Proof.Machine
end

