-- ==== Sys2Proof/WellFormed.lean ====
section
/-!
DEFINITION. Which operations have an encoding. Every operand of an operation is a whole field of its
words (30_encoding.md R94): a length or start index must fit 16 bits and a reference 32, whatever
INDEX_WIDTH and REF_WIDTH are, and the types of the other operands carry their widths, the three channels
and the two directions. The one value a field can hold and no operation may is the reserved parity
(30_encoding.md R98).
-/

namespace Sys2Proof

/-- Parity 3 is reserved (30_encoding.md R96, R98). -/
def InitFlags.wf (f : InitFlags) : Bool := f.parity != 3

/-- A length or start index that its 16-bit field holds (30_encoding.md R94). -/
def indexEncodable (v : Nat) : Bool := decide (v < 2 ^ 16)

/-- A reference that its operand word holds (30_encoding.md R92, R94). -/
def refEncodable (r : Nat) : Bool := decide (r < 2 ^ 32)

/-- The operation is one that some script words stand for. -/
def Instr.wf : Instr → Bool
  | .nop => true
  | .stbCmd _ => true
  | .stbChr _ => true
  | .stbElow => true
  | .lcdInit => true
  | .lcdWrite text length => refEncodable text && indexEncodable length
  | .lcdGoto _ _ => true
  | .lcdClear => true
  | .lcdCmd _ => true
  | .usInit _ flags _ _ => flags.wf
  | .usSend _ data length => refEncodable data && indexEncodable length
  | .usRecv _ dest start length =>
    refEncodable dest && indexEncodable start && indexEncodable length
  | .usSendb _ _ => true
  | .usRecvb _ => true
  | .usRegcb _ _ handler => refEncodable handler
  | .lcdTick => true
  | .usIrq _ => true
  | .hwTxdone _ => true
  | .hwRxbyte _ _ => true

end Sys2Proof
end

