-- ==== Sys2Proof/Decode.lean ====
section
/-!
DEFINITION. The request-word encoding of 30_encoding.md R90 to R98: the decoder, total on any list of
words and rejecting by name, and after it the encoder.
-/

namespace Sys2Proof

/-- What the decoder reads at the head of a list of script words. -/
inductive Decoded where
  /-- an operation -/
  | instr (i : Instr)
  /-- a reserved word (30_encoding.md R98) -/
  | illegal
  /-- the script ends before the operand words (30_encoding.md R92) -/
  | truncated
deriving DecidableEq, Repr

/-- The opcodes of 30_encoding.md R93. -/
inductive Opcode where
  | nop | stbCmd | stbChr | stbElow
  | lcdInit | lcdWrite | lcdGoto | lcdClear | lcdCmd
  | usInit | usSend | usRecv | usSendb | usRecvb | usRegcb
  | lcdTick | usIrq | hwTxdone | hwRxbyte
deriving DecidableEq, Repr

/-- Field `op` of word 0: bits [31:24] (30_encoding.md R91). -/
def opField (w : Word) : BitVec 8 := w.extractLsb' 24 8

/-- Field `a` of word 0: bits [23:16] (30_encoding.md R91). -/
def aField (w : Word) : BitVec 8 := w.extractLsb' 16 8

/-- Field `b` of word 0: bits [15:0] (30_encoding.md R91). -/
def bField (w : Word) : BitVec 16 := w.extractLsb' 0 16

/-- `v[7:0]` of a 16-bit field: the byte operand (30_encoding.md R94). -/
def lowByte (v : BitVec 16) : Byte := v.extractLsb' 0 8

/-- `v[15:8]` of a 16-bit field. -/
def highByte (v : BitVec 16) : Byte := v.extractLsb' 8 8

/-- `v[15:0]` of a word. -/
def lowHalf (v : Word) : BitVec 16 := v.extractLsb' 0 16

/-- `v[31:16]` of a word. -/
def highHalf (v : Word) : BitVec 16 := v.extractLsb' 16 16

/-- The opcode map's column `op` (30_encoding.md R93). -/
def opcodeOf (op : BitVec 8) : Option Opcode :=
  if op = 0x00 then some .nop
  else if op = 0x01 then some .stbCmd
  else if op = 0x02 then some .stbChr
  else if op = 0x03 then some .stbElow
  else if op = 0x10 then some .lcdInit
  else if op = 0x11 then some .lcdWrite
  else if op = 0x12 then some .lcdGoto
  else if op = 0x13 then some .lcdClear
  else if op = 0x14 then some .lcdCmd
  else if op = 0x20 then some .usInit
  else if op = 0x21 then some .usSend
  else if op = 0x22 then some .usRecv
  else if op = 0x23 then some .usSendb
  else if op = 0x24 then some .usRecvb
  else if op = 0x25 then some .usRegcb
  else if op = 0x80 then some .lcdTick
  else if op = 0x90 then some .usIrq
  else if op = 0xA0 then some .hwTxdone
  else if op = 0xA1 then some .hwRxbyte
  else none

/-- The channel index an event word carries; above 2 it is reserved (30_encoding.md R95, R98). -/
def channelOfIndex (a : BitVec 8) : Option Channel :=
  if a = 0 then some .c0
  else if a = 1 then some .c1
  else if a = 2 then some .c2
  else none

/-- The flags operand of US.INIT (30_encoding.md R96). -/
def flagsOfByte (v : Byte) : InitFlags where
  over8 := v.getLsbD 0
  wordlen := v.getLsbD 1
  parity := v.extractLsb' 2 2
  te := v.getLsbD 4
  re := v.getLsbD 5
  ieTc := v.getLsbD 6
  ieRxne := v.getLsbD 7

/-- An operation whose word 0 passes `legal`, or a reserved word (30_encoding.md R98). -/
def legalWord (legal : Bool) (k : Decoded) : Decoded := if legal then k else .illegal

/-- An event on a channel index in 0..2, or a reserved word (30_encoding.md R95, R98). -/
def eventWord (a : BitVec 8) (k : Channel → Instr) : Decoded :=
  match channelOfIndex a with
  | some c => .instr (k c)
  | none => .illegal

/-- Format R: one operand word follows (30_encoding.md R92). -/
def operandWord (rest : List Word) (k : Word → Decoded) : Decoded :=
  match rest with
  | [] => .truncated
  | w1 :: _ => k w1

/-- Format T: two operand words follow (30_encoding.md R92). -/
def operandWords (rest : List Word) (k : Word → Word → Decoded) : Decoded :=
  match rest with
  | [] => .truncated
  | [_] => .truncated
  | w1 :: w2 :: _ => k w1 w2

/-- The operands of each row of 30_encoding.md R93. Word 0 is judged first, then the presence of the
operand words, then word 2 of US.RECV (DESIGN CHOICE, safe, entry 15). -/
def decodeOperands (op : Opcode) (a : BitVec 8) (b : BitVec 16) (rest : List Word) : Decoded :=
  match op with
  | .nop => legalWord (a == 0 && b == 0) (.instr .nop)
  | .stbCmd => legalWord (a == 0 && highByte b == 0) (.instr (.stbCmd (lowByte b)))
  | .stbChr => legalWord (a == 0 && highByte b == 0) (.instr (.stbChr (lowByte b)))
  | .stbElow => legalWord (a == 0 && b == 0) (.instr .stbElow)
  | .lcdInit => legalWord (a == 0 && b == 0) (.instr .lcdInit)
  | .lcdWrite => legalWord (a == 0) (operandWord rest fun text => .instr (.lcdWrite text.toNat b.toNat))
  | .lcdGoto => legalWord (highByte b == 0) (.instr (.lcdGoto a (lowByte b)))
  | .lcdClear => legalWord (a == 0 && b == 0) (.instr .lcdClear)
  | .lcdCmd => legalWord (a == 0 && highByte b == 0) (.instr (.lcdCmd (lowByte b)))
  | .usInit =>
    legalWord (highByte b == 0 && (flagsOfByte (lowByte b)).wf)
      (operandWords rest fun clock baud => .instr (.usInit a (flagsOfByte (lowByte b)) clock baud))
  | .usSend => operandWord rest fun data => .instr (.usSend a data.toNat b.toNat)
  | .usRecv =>
    operandWords rest fun dest w2 =>
      legalWord (highHalf w2 == 0) (.instr (.usRecv a dest.toNat (lowHalf w2).toNat b.toNat))
  | .usSendb => legalWord (highByte b == 0) (.instr (.usSendb a (lowByte b)))
  | .usRecvb => legalWord (b == 0) (.instr (.usRecvb a))
  | .usRegcb =>
    legalWord (b.extractLsb' 1 15 == 0)
      (operandWord rest fun handler =>
        .instr (.usRegcb a (if b.getLsbD 0 then .rx else .tx) handler.toNat))
  | .lcdTick => legalWord (a == 0 && b == 0) (.instr .lcdTick)
  | .usIrq => legalWord (b == 0) (eventWord a .usIrq)
  | .hwTxdone => legalWord (b == 0) (eventWord a .hwTxdone)
  | .hwRxbyte => legalWord (highByte b == 0) (eventWord a fun c => .hwRxbyte c (lowByte b))

/-- The operation at the head of a list of script words (30_encoding.md R92). -/
def decode : List Word → Decoded
  | [] => .truncated
  | w0 :: rest =>
    match opcodeOf (opField w0) with
    | some op => decodeOperands op (aField w0) (bField w0) rest
    | none => .illegal

/-- Word 0 from its three fields (30_encoding.md R91). -/
def word0 (op a : BitVec 8) (b : BitVec 16) : Word := (op ++ a) ++ b

/-- A 16-bit field `b` that holds a byte operand, its upper half zero (30_encoding.md R93). -/
def byteB (v : Byte) : BitVec 16 := (0 : BitVec 8) ++ v

/-- The index of a channel in an event word (30_encoding.md R95). -/
def Channel.index : Channel → BitVec 8
  | .c0 => 0
  | .c1 => 1
  | .c2 => 2

/-- The flags operand of US.INIT as a byte (30_encoding.md R96). -/
def InitFlags.byte (f : InitFlags) : Byte :=
  (((((BitVec.ofBool f.ieRxne ++ BitVec.ofBool f.ieTc) ++ BitVec.ofBool f.re) ++
    BitVec.ofBool f.te) ++ f.parity) ++ BitVec.ofBool f.wordlen) ++ BitVec.ofBool f.over8

/-- The direction operand of US.REGCB (30_encoding.md R97). -/
def Direction.bit : Direction → BitVec 16
  | .tx => 0
  | .rx => 1

/-- A length or start index as a 16-bit field (30_encoding.md R94). -/
def indexField (v : Nat) : BitVec 16 := BitVec.ofNat 16 v

/-- A reference as an operand word (30_encoding.md R92). -/
def refWord (r : Nat) : Word := BitVec.ofNat 32 r

/-- The words of an operation (30_encoding.md R93). -/
def encode : Instr → List Word
  | .nop => [word0 0x00 0 0]
  | .stbCmd byte => [word0 0x01 0 (byteB byte)]
  | .stbChr byte => [word0 0x02 0 (byteB byte)]
  | .stbElow => [word0 0x03 0 0]
  | .lcdInit => [word0 0x10 0 0]
  | .lcdWrite text length => [word0 0x11 0 (indexField length), refWord text]
  | .lcdGoto row col => [word0 0x12 row (byteB col)]
  | .lcdClear => [word0 0x13 0 0]
  | .lcdCmd byte => [word0 0x14 0 (byteB byte)]
  | .usInit sel flags clock baud => [word0 0x20 sel (byteB flags.byte), clock, baud]
  | .usSend sel data length => [word0 0x21 sel (indexField length), refWord data]
  | .usRecv sel dest start length =>
    [word0 0x22 sel (indexField length), refWord dest, (0 : BitVec 16) ++ indexField start]
  | .usSendb sel byte => [word0 0x23 sel (byteB byte)]
  | .usRecvb sel => [word0 0x24 sel 0]
  | .usRegcb sel dir handler => [word0 0x25 sel dir.bit, refWord handler]
  | .lcdTick => [word0 0x80 0 0]
  | .usIrq channel => [word0 0x90 channel.index 0]
  | .hwTxdone channel => [word0 0xA0 channel.index 0]
  | .hwRxbyte channel byte => [word0 0xA1 channel.index (byteB byte)]

/-- A row of the opcode map of 30_encoding.md R93: `w` selects it when `(w AND mask) = pattern`. -/
structure OpcodeRow where
  op : Opcode
  pattern : Word
  mask : Word
deriving DecidableEq, Repr

/-- The columns `match` and `mask` of 30_encoding.md R93, for stating that the decoder agrees with
them; the decoder reads the fields. -/
def opcodeMap : List OpcodeRow :=
  [ ⟨.nop, 0x00000000, 0xFFFFFFFF⟩,
    ⟨.stbCmd, 0x01000000, 0xFFFFFF00⟩,
    ⟨.stbChr, 0x02000000, 0xFFFFFF00⟩,
    ⟨.stbElow, 0x03000000, 0xFFFFFFFF⟩,
    ⟨.lcdInit, 0x10000000, 0xFFFFFFFF⟩,
    ⟨.lcdWrite, 0x11000000, 0xFFFF0000⟩,
    ⟨.lcdGoto, 0x12000000, 0xFF00FF00⟩,
    ⟨.lcdClear, 0x13000000, 0xFFFFFFFF⟩,
    ⟨.lcdCmd, 0x14000000, 0xFFFFFF00⟩,
    ⟨.usInit, 0x20000000, 0xFF00FF00⟩,
    ⟨.usSend, 0x21000000, 0xFF000000⟩,
    ⟨.usRecv, 0x22000000, 0xFF000000⟩,
    ⟨.usSendb, 0x23000000, 0xFF00FF00⟩,
    ⟨.usRecvb, 0x24000000, 0xFF00FFFF⟩,
    ⟨.usRegcb, 0x25000000, 0xFF00FFFE⟩,
    ⟨.lcdTick, 0x80000000, 0xFFFFFFFF⟩,
    ⟨.usIrq, 0x90000000, 0xFF00FFFF⟩,
    ⟨.hwTxdone, 0xA0000000, 0xFF00FFFF⟩,
    ⟨.hwRxbyte, 0xA1000000, 0xFF00FF00⟩ ]

/-- The opcode of an operation. -/
def Instr.opcode : Instr → Opcode
  | .nop => .nop
  | .stbCmd _ => .stbCmd
  | .stbChr _ => .stbChr
  | .stbElow => .stbElow
  | .lcdInit => .lcdInit
  | .lcdWrite _ _ => .lcdWrite
  | .lcdGoto _ _ => .lcdGoto
  | .lcdClear => .lcdClear
  | .lcdCmd _ => .lcdCmd
  | .usInit _ _ _ _ => .usInit
  | .usSend _ _ _ => .usSend
  | .usRecv _ _ _ _ => .usRecv
  | .usSendb _ _ => .usSendb
  | .usRecvb _ => .usRecvb
  | .usRegcb _ _ _ => .usRegcb
  | .lcdTick => .lcdTick
  | .usIrq _ => .usIrq
  | .hwTxdone _ => .hwTxdone
  | .hwRxbyte _ _ => .hwRxbyte

/-- The script words of an instruction given as a number: the first word is bits 31..0, the next ones
count on from it, and bits at `nbits` and above are zero. Three words hold the longest operation. -/
def wordsOfNumber (nbits w : Nat) : List Word :=
  let v := w % 2 ^ nbits
  [BitVec.ofNat 32 v, BitVec.ofNat 32 (v / 2 ^ 32), BitVec.ofNat 32 (v / 2 ^ 64)]

/-- The instruction the decoder reads from a table word. -/
def decodeTableWord (nbits w : Nat) : Option Instr :=
  match decode (wordsOfNumber nbits w) with
  | .instr i => some i
  | .illegal => none
  | .truncated => none

end Sys2Proof
end

