-- ==== Sys2Proof/Machine/Script.lean ====
section
/-!
DEFINITION. The script: fetching the word at `pc` (30_encoding.md R90, R92), the gate on foreground
requests during a busy-wait (10_state.md R53), and placing an instruction where the next fetch reads it.
-/

namespace Sys2Proof.Machine

/-- The run is over: `pc` has reached the script's length (10_state.md R34; entry 16). -/
def scriptOver (s : State) : Bool := decide (s.script.length ≤ s.pc)

/-- The operation at `pc` (30_encoding.md R90). -/
def fetch (s : State) : Decoded := decode (s.script.drop s.pc)

/-- The foreground issues no request while it busy-waits (10_state.md R53; entry 18). -/
def blocked (i : Instr) (s : State) : Bool := i.isForeground && foregroundWaits s

/-- The first `n` words of a script, filled up with zero words. -/
def scriptHead (n : Nat) (words : List Word) : List Word :=
  words.take n ++ List.replicate (n - words.length) 0

/-- The script with the three words `ws` at position `pc`. -/
def placeWords (ws : List Word) (pc : Nat) (script : List Word) : List Word :=
  scriptHead pc script ++ ws ++ script.drop (pc + ws.length)

/-- A wait whose completion is enabled would be completed before any script word is read: placing an
instruction for the very next step takes it away (entry 30). -/
def waitForFetch (s : State) : FgWait := if completionEnabled s then .none else s.fgWait

end Sys2Proof.Machine
end

