-- ==== Sys2Proof/Machine/Dispatch.lean ====
section
/-!
DEFINITION. The meaning of each operation, one arm per constructor of `Instr` (00_scope.md R9).
-/

namespace Sys2Proof.Machine

def exec (i : Instr) (s : State) : Host.Outcome State Fault Refusal :=
  match i with
  | .nop => Sys2Proof.Machine.execNop s
  | .stbCmd byte => Sys2Proof.Machine.execStbCmd byte s
  | .stbChr byte => Sys2Proof.Machine.execStbChr byte s
  | .stbElow => Sys2Proof.Machine.execStbElow s
  | .lcdInit => Sys2Proof.Machine.execLcdInit s
  | .lcdWrite text length => Sys2Proof.Machine.execLcdWrite text length s
  | .lcdGoto row col => Sys2Proof.Machine.execLcdGoto row col s
  | .lcdClear => Sys2Proof.Machine.execLcdClear s
  | .lcdCmd byte => Sys2Proof.Machine.execLcdCmd byte s
  | .usInit sel flags clock baud => Sys2Proof.Machine.execUsInit sel flags clock baud s
  | .usSend sel data length => Sys2Proof.Machine.execUsSend sel data length s
  | .usRecv sel dest start length => Sys2Proof.Machine.execUsRecv sel dest start length s
  | .usSendb sel byte => Sys2Proof.Machine.execUsSendb sel byte s
  | .usRecvb sel => Sys2Proof.Machine.execUsRecvb sel s
  | .usRegcb sel dir handler => Sys2Proof.Machine.execUsRegcb sel dir handler s
  | .lcdTick => Sys2Proof.Machine.execLcdTick s
  | .usIrq channel => Sys2Proof.Machine.execUsIrq channel s
  | .hwTxdone channel => Sys2Proof.Machine.execHwTxdone channel s
  | .hwRxbyte channel byte => Sys2Proof.Machine.execHwRxbyte channel byte s

end Sys2Proof.Machine
end

