-- ==== Sys2Proof/Machine/Step.lean ====
section
/-!
DEFINITION. One step of the machine: the completion of a busy-wait as soon as it is enabled
(42_serial_submission.md R182, R183), otherwise the operation at `pc` (30_encoding.md R90).
-/

namespace Sys2Proof.Machine

/-- One step. The script decides which agent moves (00_scope.md R15; entry 22). The word is decoded before
the gate of a busy-wait is applied: a reserved word and a word whose operand words are missing are
refused as that, IllegalRequest or TruncatedScript, also while the foreground waits, where the spec orders
neither against ForegroundBlocked (DESIGN CHOICE, safe, entry 35). -/
def step (s : State) : Host.Outcome State Fault Refusal :=
  if completionEnabled s then .next (completeBlocking s)
  else if scriptOver s then .refused .scriptEnded
  else
    match fetch s with
    | .illegal => .refused .illegalRequest
    | .truncated => .refused .truncatedScript
    | .instr i => if blocked i s then .refused .foregroundBlocked else exec i s

/-- The state with an instruction's words where the next step fetches (entries 1 and 30). -/
def State.withFetchWord (s : State) (nbits w : Nat) : State :=
  { s with
    script := placeWords (wordsOfNumber nbits w) s.pc s.script
    fgWait := waitForFetch s }

end Sys2Proof.Machine
end

