-- ==== Sys2Proof/Safety.lean ====
section
/-!
DEFINITION. What a good state and a good run are, in the terms the statements use: the invariants of
10_state.md R31 and R33 and of 43_serial_interrupt_handler.md R214 (d), the premises IRQ_PROMPT
(60_exceptions.md R235) and "transmit-complete clear whenever no transmit is busy"
(70_reset_and_hazards.md R286, R287), and runs of operations.
-/

namespace Sys2Proof.Machine

/-- The constraints 00_scope.md R10 puts on the parameters: INIT_DELAY_TICKS is at least 19, NULL_REF is a
reference, an index can be 1, and CHANNEL_OF is injective on the selectors it accepts
(42_serial_submission.md R170). -/
def goodCfg (cfg : Cfg) : Prop :=
  Config.minInitDelay ≤ cfg.initDelayTicks ∧ 1 ≤ cfg.indexWidth ∧ cfg.nullRef < cfg.memEnd ∧
    ∀ sel sel' c, resolve cfg sel = some c → resolve cfg sel' = some c → sel = sel'

/-- A slot is free exactly when its kind is None, and a slot of kind Done is Finished
(10_state.md R31 (c), (d)). A claimed Write has a text reference (41_display_sequencer.md R144), and its
operands fit their widths (10_state.md R30). -/
def goodSlot (cfg : Cfg) (x : Slot) : Prop :=
  (x.occupied = false ↔ x.kind = .none) ∧ (x.kind = .done → x.progress = .finished) ∧
    ∀ text length, x.kind = .write text length →
      text ≠ cfg.nullRef ∧ text < cfg.memEnd ∧ length < cfg.indexEnd

/-- The engine is idle only when no request waits: if `SLOT[cur]` is free then `cur` is 0 and every
slot is free (41_display_sequencer.md R151). -/
def idleMeansEmpty (l : Lcd) : Prop :=
  (curSlot l).occupied = false → l.cur = 0 ∧ ∀ x ∈ l.slots, x.occupied = false

/-- Only the current slot is in service: every other occupied slot is at Start
(10_state.md R31 (a)). -/
def onlyCurrentServed (l : Lcd) : Prop :=
  ∀ i x, i ≠ l.cur → l.slots[i]? = some x → x.occupied = true → x.progress = .start

/-- The character index of a Write in service has not passed its length (41_display_sequencer.md
R152). -/
def writeIndexInRange (l : Lcd) : Prop :=
  ∀ text length, (curSlot l).kind = .write text length → (curSlot l).progress = .inProgress →
    l.widx ≤ length

/-- The init sub-state fits the lifecycle, and the function-set command is issued only after
INIT_DELAY_TICKS ticks (10_state.md R24 to R26, 41_display_sequencer.md R149). -/
def goodInit (cfg : Cfg) (l : Lcd) : Prop :=
  (l.life = .off → l.isub = .powerOn) ∧ (l.life = .operational → l.isub = .done) ∧
    (l.isub = .powerOn → l.delay = 0) ∧ l.delay ≤ cfg.initDelayTicks ∧
    (l.isub ≠ .powerOn → l.isub ≠ .functionSet → l.delay = cfg.initDelayTicks)

/-- The display sequencer is in a state the rules of 10_state.md R24 to R31 allow. -/
def goodLcd (cfg : Cfg) (l : Lcd) : Prop :=
  l.cur < l.slots.length ∧ l.widx < cfg.indexEnd ∧ (∀ x ∈ l.slots, goodSlot cfg x) ∧ idleMeansEmpty l ∧
    onlyCurrentServed l ∧ writeIndexInRange l ∧ goodInit cfg l

/-- `E` is high only inside a bus cycle, and the block never drives `RW` high
(40_strobe_driver.md R121, R127; 10_state.md R22). -/
def goodBus (u : Bus) : Prop :=
  (u.eDriven = true → u.e = true → u.phase = true ∧ u.rw = false) ∧
    ∀ x ∈ u.latchLog, x.rw = false

/-- The registers of a channel fit their widths (10_state.md R32, R36). -/
def fitsWidths (cfg : Cfg) (u : Uart) : Prop :=
  u.ch.txIndex < cfg.indexEnd ∧ u.ch.txLen < cfg.indexEnd ∧
    u.ch.rxIndex < cfg.indexEnd ∧ u.ch.rxLen < cfg.indexEnd ∧
    u.ch.txBuffer < cfg.memEnd ∧ u.ch.rxBuffer < cfg.memEnd ∧
    u.cbTx < cfg.memEnd ∧ u.cbRx < cfg.memEnd

/-- A busy transfer has a reference and an index in its range; a channel direction that is not busy
has length 0 (10_state.md R32, R33; 43_serial_interrupt_handler.md R214 (d)). -/
def goodUart (cfg : Cfg) (u : Uart) : Prop :=
  (u.ch.txBusy = true →
      u.ch.txBuffer ≠ cfg.nullRef ∧ 1 ≤ u.ch.txIndex ∧
        u.ch.txIndex ≤ u.ch.txLen) ∧
    (u.ch.txBusy = false → u.ch.txLen = 0) ∧
    (u.ch.rxBusy = true → u.ch.rxBuffer ≠ cfg.nullRef) ∧
    (u.ch.rxBusy = false → u.ch.rxLen = 0) ∧ fitsWidths cfg u

/-- The invariant of the machine. -/
def goodState (s : State) : Prop :=
  memWf s.cfg s.mem ∧ goodCfg s.cfg ∧ goodLcd s.cfg s.lcd ∧ goodBus s.bus ∧
    ∀ c, goodUart s.cfg (s.uart c)

/-- The transmit discipline of a channel used only asynchronously: while a transmit is busy its
transmit-complete bit is clear exactly as long as a byte is in flight, and otherwise both are clear
(70_reset_and_hazards.md R286, R287; 95_test_vectors.md K5). -/
def txDisciplined (u : Uart) : Prop :=
  (u.ch.txBusy = true → u.sr.tc = !u.txInflight) ∧
    (u.ch.txBusy = false → u.sr.tc = false ∧ u.txInflight = false)

/-- Some channel's interrupt is pending (60_exceptions.md R232). -/
def anyPending (s : State) : Bool :=
  irqPending s.cfg.nvicEn.ch0 s.uarts.ch0 || irqPending s.cfg.nvicEn.ch1 s.uarts.ch1 ||
    irqPending s.cfg.nvicEn.ch2 s.uarts.ch2

/-- The premise IRQ_PROMPT at one operation: no foreground request and no LCD.TICK is taken while an
interrupt is pending (60_exceptions.md R235). -/
def irqPromptAt (i : Instr) (s : State) : Bool :=
  !(anyPending s && (i.isForeground || decide (i = .lcdTick)))

/-- Operations executed one after the other, stopping at the first that faults or is refused. -/
def execAll : List Instr → State → Result State
  | [], s => .next s
  | i :: rest, s => andThen (exec i s) (execAll rest)

/-- The same operation executed `n` times. -/
def execTimes (n : Nat) (i : Instr) (s : State) : Result State := execAll (List.replicate n i) s

/-- `t` is reached from `s` by steps of the machine. -/
inductive Reaches (s : State) : State → Prop where
  | refl : Reaches s s
  | next {t u : State} (h : Reaches s t) (hs : step t = .next u) : Reaches s u

/-- The machine is not stopped by a fault at this step (60_exceptions.md R226). -/
def noFault (s : State) : Prop := ∀ f, step s ≠ .fault f

end Sys2Proof.Machine
end

