-- ==== Sys2Proof/Certificates/Slice0/Obligations.lean ====
section
/-!
DEFINITION. The statements for the provers, each a rule of spec/ or a property that follows from its
rules. A result is stated as the whole next state, so it says what changes and that nothing else does.
-/

open Sys2Proof Sys2Proof.Machine

/-! ### Unit STB and HW.NOP -/

/-- R122 with R121: one STB.CMD call. In phase 0 the byte is presented in command mode and `E` rises;
in phase 1 the operand is ignored, `E` falls and the levels on the lines are latched. -/
def Obligations.StbCmdDrivesOneCall : Prop :=
  ∀ (byte : Byte),
    (∀ rest, decode (((0x010000 : BitVec 24) ++ byte) :: rest) = .instr (.stbCmd byte)) ∧
    ∀ (s : State),
      (s.bus.phase = false →
        exec (.stbCmd byte) s = .next
          { s with
            bus :=
              { s.bus with
                d := byte, rs := false, rw := false, e := true, eDriven := true, phase := true }
            responses := s.responses ++ [⟨.ok, 0⟩]
            pc := s.pc + 1 }) ∧
      (s.bus.phase = true →
        exec (.stbCmd byte) s = .next
          { s with
            bus :=
              { s.bus with
                latchLog :=
                  if s.bus.eDriven = true ∧ s.bus.e = true then
                    s.bus.latchLog ++ [⟨s.bus.rs, s.bus.rw, s.bus.d⟩]
                  else s.bus.latchLog
                e := false, eDriven := true, phase := false }
            responses := s.responses ++ [⟨.ok, 0⟩]
            pc := s.pc + 1 })

/-- R123 with R121: one STB.CHR call, as STB.CMD with `RS` high. -/
def Obligations.StbChrDrivesOneCall : Prop :=
  ∀ (byte : Byte),
    (∀ rest, decode (((0x020000 : BitVec 24) ++ byte) :: rest) = .instr (.stbChr byte)) ∧
    ∀ (s : State),
      (s.bus.phase = false →
        exec (.stbChr byte) s = .next
          { s with
            bus :=
              { s.bus with
                d := byte, rs := true, rw := false, e := true, eDriven := true, phase := true }
            responses := s.responses ++ [⟨.ok, 0⟩]
            pc := s.pc + 1 }) ∧
      (s.bus.phase = true →
        exec (.stbChr byte) s = .next
          { s with
            bus :=
              { s.bus with
                latchLog :=
                  if s.bus.eDriven = true ∧ s.bus.e = true then
                    s.bus.latchLog ++ [⟨s.bus.rs, s.bus.rw, s.bus.d⟩]
                  else s.bus.latchLog
                e := false, eDriven := true, phase := false }
            responses := s.responses ++ [⟨.ok, 0⟩]
            pc := s.pc + 1 })

/-- R124: STB.ELOW drops `E`, latching if the block had driven it to 1, and leaves `phase`. -/
def Obligations.StbElowDropsEnable : Prop :=
  (∀ rest, decode ((0x03000000 : Word) :: rest) = .instr .stbElow) ∧
  ∀ (s : State),
    (s.bus.eDriven = true ∧ s.bus.e = true →
      exec .stbElow s = .next
        { s with
          bus :=
            { s.bus with
              latchLog := s.bus.latchLog ++ [⟨s.bus.rs, s.bus.rw, s.bus.d⟩]
              e := false, eDriven := true }
          responses := s.responses ++ [⟨.ok, 0⟩]
          pc := s.pc + 1 }) ∧
    (¬ (s.bus.eDriven = true ∧ s.bus.e = true) →
      exec .stbElow s = .next
        { s with
          bus := { s.bus with e := false, eDriven := true }
          responses := s.responses ++ [⟨.ok, 0⟩]
          pc := s.pc + 1 })

/-- R215: HW.NOP advances `pc` by 1 and changes nothing else; it is the zero word. -/
def Obligations.NopOnlyAdvances : Prop :=
  (∀ rest, decode ((0 : Word) :: rest) = .instr .nop) ∧
  ∀ (s : State), exec .nop s = .next { s with pc := s.pc + 1 }

/-- R125: from phase 0, any sequence of STB.CMD and STB.CHR calls runs, leaves `phase` at 1 exactly
after an odd number of calls, and adds one latch log entry for every two calls. -/
def Obligations.TwoStrobeCallsPerByte : Prop :=
  ∀ (calls : List (Byte × Bool)) (s : State), s.bus.phase = false →
    ∃ t, execAll (calls.map fun x => if x.2 then .stbChr x.1 else .stbCmd x.1) s = .next t ∧
      t.bus.phase = decide (calls.length % 2 = 1) ∧
      (t.bus.phase = true → t.bus.e = true) ∧
      t.bus.latchLog.length = s.bus.latchLog.length + calls.length / 2 ∧
      t.pc = s.pc + calls.length

/-! ### The display sequencer: requests -/

/-- R140: LCD.INIT configures the pins and takes the lifecycle from Off to Initializing; in the other
two states it changes nothing else. -/
def Obligations.LcdInitStartsOnlyFromOff : Prop :=
  (∀ rest, decode ((0x10000000 : Word) :: rest) = .instr .lcdInit) ∧
  ∀ (s : State),
    (s.lcd.life = .off →
      exec .lcdInit s = .next
        { s with
          bus := { s.bus with pinsCfg := true }
          lcd := { s.lcd with life := .initializing }
          responses := s.responses ++ [⟨.ok, 0⟩]
          pc := s.pc + 1 }) ∧
    (s.lcd.life ≠ .off →
      exec .lcdInit s = .next
        { s with
          bus := { s.bus with pinsCfg := true }
          responses := s.responses ++ [⟨.ok, 0⟩]
          pc := s.pc + 1 })

/-- R144 with R143: LCD.WRITE refuses a null text before it looks at the table, claims the lowest free
slot, and answers BufferFull when there is none. The operands are numbers of any size, taken at REF_WIDTH
and INDEX_WIDTH bits (entry 32). -/
def Obligations.LcdWriteClaimsLowestFreeSlot : Prop :=
  (∀ (text : Word) (length : BitVec 16) rest,
      decode (((0x1100 : BitVec 16) ++ length) :: text :: rest) =
        .instr (.lcdWrite text.toNat length.toNat)) ∧
    ∀ (s : State) (text text' : Nat) (length length' : Nat),
      text' = fitRef s.cfg text → length' = fitIndex s.cfg length →
      (text' = s.cfg.nullRef →
        exec (.lcdWrite text length) s = .next
          { s with responses := s.responses ++ [⟨.nullArgument, 0⟩], pc := s.pc + 2 }) ∧
      (text' ≠ s.cfg.nullRef → ∀ i x, s.lcd.slots[i]? = some x → x.occupied = false →
        (∀ j y, j < i → s.lcd.slots[j]? = some y → y.occupied = true) →
        exec (.lcdWrite text length) s = .next
          { s with
            lcd := { s.lcd with slots := s.lcd.slots.set i ⟨true, .write text' length', .start⟩ }
            responses := s.responses ++ [⟨.ok, 0⟩]
            pc := s.pc + 2 }) ∧
      (text' ≠ s.cfg.nullRef → (∀ x ∈ s.lcd.slots, x.occupied = true) →
        exec (.lcdWrite text length) s = .next
          { s with responses := s.responses ++ [⟨.bufferFull, 0⟩], pc := s.pc + 2 })

/-- R145 with R143: LCD.GOTO checks the position before it looks at the table. -/
def Obligations.LcdGotoChecksThenClaims : Prop :=
  ∀ (row col : Byte),
    (∀ rest, decode ((((0x12 : BitVec 8) ++ row) ++ ((0 : BitVec 8) ++ col)) :: rest) =
      .instr (.lcdGoto row col)) ∧
    ∀ (s : State),
      (1 < row.toNat ∨ 15 < col.toNat →
        exec (.lcdGoto row col) s = .next
          { s with responses := s.responses ++ [⟨.invalidPosition, 0⟩], pc := s.pc + 1 }) ∧
      (row.toNat ≤ 1 → col.toNat ≤ 15 → ∀ i x, s.lcd.slots[i]? = some x → x.occupied = false →
        (∀ j y, j < i → s.lcd.slots[j]? = some y → y.occupied = true) →
        exec (.lcdGoto row col) s = .next
          { s with
            lcd :=
              { s.lcd with
                slots := s.lcd.slots.set i
                  ⟨true, .setPosition (BitVec.ofNat 1 row.toNat) (BitVec.ofNat 4 col.toNat), .start⟩ }
            responses := s.responses ++ [⟨.ok, 0⟩]
            pc := s.pc + 1 }) ∧
      (row.toNat ≤ 1 → col.toNat ≤ 15 → (∀ x ∈ s.lcd.slots, x.occupied = true) →
        exec (.lcdGoto row col) s = .next
          { s with responses := s.responses ++ [⟨.bufferFull, 0⟩], pc := s.pc + 1 })

/-- R146 with R143: LCD.CLEAR. -/
def Obligations.LcdClearClaimsLowestFreeSlot : Prop :=
  (∀ rest, decode ((0x13000000 : Word) :: rest) = .instr .lcdClear) ∧
  ∀ (s : State),
    (∀ i x, s.lcd.slots[i]? = some x → x.occupied = false →
      (∀ j y, j < i → s.lcd.slots[j]? = some y → y.occupied = true) →
      exec .lcdClear s = .next
        { s with
          lcd := { s.lcd with slots := s.lcd.slots.set i ⟨true, .clear, .start⟩ }
          responses := s.responses ++ [⟨.ok, 0⟩]
          pc := s.pc + 1 }) ∧
    ((∀ x ∈ s.lcd.slots, x.occupied = true) →
      exec .lcdClear s = .next
        { s with responses := s.responses ++ [⟨.bufferFull, 0⟩], pc := s.pc + 1 })

/-- R147 with R143: LCD.CMD. -/
def Obligations.LcdCmdClaimsLowestFreeSlot : Prop :=
  ∀ (byte : Byte),
    (∀ rest, decode (((0x140000 : BitVec 24) ++ byte) :: rest) = .instr (.lcdCmd byte)) ∧
    ∀ (s : State),
      (∀ i x, s.lcd.slots[i]? = some x → x.occupied = false →
        (∀ j y, j < i → s.lcd.slots[j]? = some y → y.occupied = true) →
        exec (.lcdCmd byte) s = .next
          { s with
            lcd := { s.lcd with slots := s.lcd.slots.set i ⟨true, .rawCommand byte, .start⟩ }
            responses := s.responses ++ [⟨.ok, 0⟩]
            pc := s.pc + 1 }) ∧
      ((∀ x ∈ s.lcd.slots, x.occupied = true) →
        exec (.lcdCmd byte) s = .next
          { s with responses := s.responses ++ [⟨.bufferFull, 0⟩], pc := s.pc + 1 })

/-! ### The display sequencer: the task tick -/

/-- R148 and R151: a tick in state Off, and a tick of an idle engine, do nothing but pass. -/
def Obligations.TickIdlesWhenOffOrEmpty : Prop :=
  (∀ rest, decode ((0x80000000 : Word) :: rest) = .instr .lcdTick) ∧
  ∀ (s : State),
    (s.lcd.life = .off → exec .lcdTick s = .next { s with pc := s.pc + 1 }) ∧
    (s.lcd.life = .operational → ∀ x, s.lcd.slots[s.lcd.cur]? = some x → x.kind = .none →
      exec .lcdTick s = .next { s with pc := s.pc + 1 })

/-- R149: the init sub-state machine, one clause per arm. PowerOn runs the body of STB.ELOW,
FunctionSet waits INIT_DELAY_TICKS ticks, the three command-issuing sub-states present their byte on a
tick in phase 0 and advance on the latching tick in phase 1, and Done makes the engine Operational. -/
def Obligations.TickRunsInitSubStates : Prop :=
  ∀ (s : State), s.lcd.life = .initializing →
    (s.lcd.isub = .powerOn →
      exec .lcdTick s = .next
        { s with
          bus := dropEnable s.bus
          lcd := { s.lcd with isub := .functionSet }
          pc := s.pc + 1 }) ∧
    (s.lcd.isub = .functionSet → s.lcd.delay < s.cfg.initDelayTicks →
      exec .lcdTick s = .next
        { s with lcd := { s.lcd with delay := s.lcd.delay + 1 }, pc := s.pc + 1 }) ∧
    (∀ cmd next,
      (s.lcd.isub = .functionSet ∧ s.cfg.initDelayTicks ≤ s.lcd.delay ∧
          cmd = s.cfg.cmdFunctionSet ∧ next = .displayControl) ∨
        (s.lcd.isub = .displayControl ∧ cmd = s.cfg.cmdDisplayOn ∧ next = .displayClear) ∨
        (s.lcd.isub = .displayClear ∧ cmd = s.cfg.cmdClear ∧ next = .done) →
      (s.bus.phase = false →
        exec .lcdTick s = .next { s with bus := presentByte cmd false s.bus, pc := s.pc + 1 }) ∧
      (s.bus.phase = true →
        exec .lcdTick s = .next
          { s with
            bus := { dropEnable s.bus with phase := false }
            lcd := { s.lcd with isub := next }
            pc := s.pc + 1 })) ∧
    (s.lcd.isub = .done →
      exec .lcdTick s = .next
        { s with lcd := { s.lcd with life := .operational }, pc := s.pc + 1 })

/-- R152: a tick that serves a Write: the no-op Start tick, the end test, the two ticks of one
character (read from memory on both), and the fault on an unreadable character (that an address the
memory does not list is unreadable, and that an absent text is, are the model's, entries 10 and 12). -/
def Obligations.TickServesWrite : Prop :=
  ∀ (s : State) (x : Slot) (text : Nat) (length : Nat), s.lcd.life = .operational →
    s.lcd.slots[s.lcd.cur]? = some x → x.kind = .write text length →
    (x.progress = .start →
      exec .lcdTick s = .next
        { s with
          lcd :=
            { s.lcd with
              widx := 0
              slots := s.lcd.slots.set s.lcd.cur { x with progress := .inProgress } }
          pc := s.pc + 1 }) ∧
    (x.progress ≠ .start → s.lcd.widx = length →
      exec .lcdTick s = .next
        { s with
          lcd :=
            { s.lcd with
              slots := s.lcd.slots.set s.lcd.cur { x with kind := .done, progress := .finished } }
          pc := s.pc + 1 }) ∧
    (x.progress ≠ .start → s.lcd.widx < length → ∀ b, text ≠ s.cfg.nullRef →
      text + s.lcd.widx < 2 ^ s.cfg.refWidth →
      memRead s.mem (text + s.lcd.widx) = some b →
      (s.bus.phase = false →
        exec .lcdTick s = .next { s with bus := presentByte b true s.bus, pc := s.pc + 1 }) ∧
      (s.bus.phase = true →
        exec .lcdTick s = .next
          { s with
            bus := { dropEnable s.bus with phase := false }
            lcd := { s.lcd with widx := incIndex s.cfg s.lcd.widx }
            pc := s.pc + 1 })) ∧
    (x.progress ≠ .start → s.lcd.widx ≠ length →
      (length ≤ s.lcd.widx ∨ text = s.cfg.nullRef ∨
          2 ^ s.cfg.refWidth ≤ text + s.lcd.widx ∨
        memRead s.mem (text + s.lcd.widx) = none) →
      exec .lcdTick s = .fault .bufferBounds)

/-- R153, R154 and R155: a tick that serves a Clear, a SetPosition or a RawCommand presents the command
byte in phase 0 and completes the slot on the latching tick; a SetPosition records the cursor. The
command byte of a SetPosition is the parameter SETPOS_CMD, whose default is R154's formula (the spec's
own default, PRESUMED, entry 24). -/
def Obligations.TickServesCommandKinds : Prop :=
  (∀ (row : BitVec 1) (col : BitVec 4), setposCmd Cfg.default row col =
    BitVec.ofNat 8 (0x80 ||| (row.toNat * 0x40 + col.toNat))) ∧
  ∀ (s : State) (x : Slot) (cmd : Byte) (row : BitVec 1) (col : BitVec 4),
    s.lcd.life = .operational → s.lcd.slots[s.lcd.cur]? = some x →
    (x.kind = .clear ∧ cmd = s.cfg.cmdClear ∧ row = s.lcd.cursorRow ∧ col = s.lcd.cursorCol) ∨
      (x.kind = .rawCommand cmd ∧ row = s.lcd.cursorRow ∧ col = s.lcd.cursorCol) ∨
      (x.kind = .setPosition row col ∧ cmd = setposCmd s.cfg row col) →
    (s.bus.phase = false →
      exec .lcdTick s = .next
        { s with
          bus := presentByte cmd false s.bus
          lcd :=
            { s.lcd with slots := s.lcd.slots.set s.lcd.cur { x with progress := .inProgress } }
          pc := s.pc + 1 }) ∧
    (s.bus.phase = true →
      exec .lcdTick s = .next
        { s with
          bus := { dropEnable s.bus with phase := false }
          lcd :=
            { s.lcd with
              cursorRow := row
              cursorCol := col
              slots := s.lcd.slots.set s.lcd.cur { x with kind := .done, progress := .finished } }
          pc := s.pc + 1 })

/-- R157: the tick that finds kind Done frees the slot, then selects the occupied slot of lowest index
and sets it to Start, or leaves the engine idle at index 0. -/
def Obligations.TickReclaimsThenSelectsLowest : Prop :=
  ∀ (s : State) (x : Slot), s.lcd.life = .operational → s.lcd.slots[s.lcd.cur]? = some x →
    x.kind = .done →
    (∀ i y, i ≠ s.lcd.cur → s.lcd.slots[i]? = some y → y.occupied = true →
      (∀ j z, j < i → j ≠ s.lcd.cur → s.lcd.slots[j]? = some z → z.occupied = false) →
      exec .lcdTick s = .next
        { s with
          lcd :=
            { s.lcd with
              cur := i
              slots :=
                (s.lcd.slots.set s.lcd.cur { x with occupied := false, kind := .none }).set i
                  { y with progress := .start } }
          pc := s.pc + 1 }) ∧
    ((∀ i y, i ≠ s.lcd.cur → s.lcd.slots[i]? = some y → y.occupied = false) →
      exec .lcdTick s = .next
        { s with
          lcd :=
            { s.lcd with
              cur := 0
              slots := s.lcd.slots.set s.lcd.cur { x with occupied := false, kind := .none } }
          pc := s.pc + 1 })

/-- R159 and R149: from PowerOn with the counter at 0 and phase 0, INIT_DELAY_TICKS + 8 ticks (27 by
default) make the engine Operational, having latched exactly the three commands in command mode. -/
def Obligations.InitialisationTakesDelayPlusEightTicks : Prop :=
  ∀ (s : State), s.lcd.life = .initializing → s.lcd.isub = .powerOn → s.lcd.delay = 0 →
    s.bus.phase = false → (s.bus.eDriven = true → s.bus.e = false) →
    ∃ t, execTimes (s.cfg.initDelayTicks + 8) .lcdTick s = .next t ∧
      t.lcd = { s.lcd with life := .operational, isub := .done, delay := s.cfg.initDelayTicks } ∧
      t.bus.latchLog = s.bus.latchLog ++
        [⟨false, false, s.cfg.cmdFunctionSet⟩, ⟨false, false, s.cfg.cmdDisplayOn⟩,
          ⟨false, false, s.cfg.cmdClear⟩] ∧
      t.bus.phase = false ∧ t.bus.e = false ∧
      t.uarts = s.uarts ∧ t.mem = s.mem ∧ t.responses = s.responses ∧
      t.pc = s.pc + (s.cfg.initDelayTicks + 8)

/-- R152 and R159: a Write of length L at Start takes exactly 2L + 3 ticks to the tick that frees its
slot, and latches exactly its L characters, in order and in character mode. -/
def Obligations.WriteTakesTwoTicksPerCharacterPlusThree : Prop :=
  ∀ (s : State) (text : Nat) (length : Nat) (chars : List Byte),
    s.lcd.life = .operational →
    s.lcd.slots[s.lcd.cur]? = some ⟨true, .write text length, .start⟩ →
    s.bus.phase = false → text ≠ s.cfg.nullRef → chars.length = length →
    length < 2 ^ s.cfg.indexWidth → text + length ≤ 2 ^ s.cfg.refWidth →
    (∀ k b, chars[k]? = some b → memRead s.mem (text + k) = some b) →
    ∃ t, execTimes (2 * length + 3) .lcdTick s = .next t ∧
      t.bus.latchLog = s.bus.latchLog ++ chars.map (fun b => ⟨true, false, b⟩) ∧
      t.bus.phase = false ∧
      (∃ y, t.lcd.slots[s.lcd.cur]? = some y ∧ y.occupied = false ∧ y.kind = .none) ∧
      (∀ n, n < 2 * length + 3 → ∃ u, execTimes n .lcdTick s = .next u ∧
        ∃ y, u.lcd.slots[s.lcd.cur]? = some y ∧ y.occupied = true) ∧
      t.uarts = s.uarts ∧ t.mem = s.mem ∧ t.pc = s.pc + (2 * length + 3)

/-- R153, R154, R155 and R159: a Clear, SetPosition or RawCommand takes three ticks to the tick that
frees its slot and latches exactly its command byte in command mode (SETPOS_CMD is a parameter, entry 24). -/
def Obligations.CommandKindsTakeThreeTicks : Prop :=
  ∀ (s : State) (x : Slot) (cmd : Byte), s.lcd.life = .operational →
    s.lcd.slots[s.lcd.cur]? = some x → x.occupied = true → s.bus.phase = false →
    (x.kind = .clear ∧ cmd = s.cfg.cmdClear) ∨ x.kind = .rawCommand cmd ∨
      (∃ row col, x.kind = .setPosition row col ∧ cmd = setposCmd s.cfg row col) →
    ∃ t, execTimes 3 .lcdTick s = .next t ∧
      t.bus.latchLog = s.bus.latchLog ++ [⟨false, false, cmd⟩] ∧
      t.bus.phase = false ∧
      (∃ y, t.lcd.slots[s.lcd.cur]? = some y ∧ y.occupied = false ∧ y.kind = .none) ∧
      (∀ n, n < 3 → ∃ u, execTimes n .lcdTick s = .next u ∧
        ∃ y, u.lcd.slots[s.lcd.cur]? = some y ∧ y.occupied = true) ∧
      t.uarts = s.uarts ∧ t.mem = s.mem ∧ t.pc = s.pc + 3

/-! ### Unit UBT: foreground operations -/

/-- R172 with R173: US.INIT, every outcome. The channel is resolved first; baud 0 and a mantissa of
4096 or more are refused; otherwise the divisor and the flags are programmed, the desired enables are
stored, and neither `TCIE` nor `RXNEIE` is written. The reserved parity is no request (R98); that
`exec` refuses it before anything else is the model's choice (entry 29). -/
def Obligations.UsInitProgramsTheChannel : Prop :=
  ∀ (sel : Byte) (flags : InitFlags) (clock baud : Word),
    (flags.parity = 3 →
      ∀ s : State, exec (.usInit sel flags clock baud) s = .refused .illegalRequest) ∧
    (flags.parity ≠ 3 →
    (∀ rest, decode ((((0x20 : BitVec 8) ++ sel) ++ ((0 : BitVec 8) ++ flags.byte)) :: clock ::
      baud :: rest) = .instr (.usInit sel flags clock baud)) ∧
    ∀ (s : State),
      (resolve s.cfg sel = none →
        exec (.usInit sel flags clock baud) s = .next
          { s with responses := s.responses ++ [⟨.invalidChannel, 0⟩], pc := s.pc + 3 }) ∧
      ∀ c, resolve s.cfg sel = some c →
        (baud = 0 → exec (.usInit sel flags clock baud) s = .refused .baudZero) ∧
        ∀ k raw mant frac, k = (if flags.over8 then 8 else 16) →
          raw = clock.toNat * 1000 / (baud.toNat * k) → mant = raw / 1000 →
          frac = raw % 1000 * k / 1000 →
          (baud ≠ 0 → 4096 ≤ mant →
            exec (.usInit sel flags clock baud) s = .refused .baudRange) ∧
          (baud ≠ 0 → mant < 4096 →
            exec (.usInit sel flags clock baud) s = .next
              { s with
                uarts := s.uarts.set c
                  { s.uarts.get c with
                    brr := BitVec.ofNat 16 (mant * 16 + frac)
                    cr :=
                      { (s.uarts.get c).cr with
                        over8 := flags.over8, m := flags.wordlen, parity := flags.parity,
                        te := flags.te, re := flags.re, ue := true }
                    ieDesired := ⟨flags.ieTc, flags.ieRxne⟩ }
                responses := s.responses ++ [⟨.ok, 0⟩]
                pc := s.pc + 3 }))

/-- R174 (a): under truncating division the fraction fits its four bits (three when oversampling by 8),
so the carry arm of R173 is never taken. -/
def Obligations.BaudFractionNeverCarries : Prop :=
  ∀ (clock baud : Nat) (over8 : Bool),
    baudDiv clock baud over8 =
        (clock * 1000 / (baud * (if over8 then 8 else 16)) / 1000,
          clock * 1000 / (baud * (if over8 then 8 else 16)) % 1000 * (if over8 then 8 else 16)
            / 1000) ∧
      (baudDiv clock baud over8).2 ≤ (if over8 then 7 else 15)

/-- R175: US.SEND, every outcome, in the order of its checks. An accepted send writes byte 0 to the
data register at once and arms the transmit-complete interrupt with the desired bit. That the read of
byte 0 is tried before the data register, and that an unlisted address cannot be read, are the model's
choices (entries 14 and 10). The operands are numbers of any size, taken at REF_WIDTH and INDEX_WIDTH
bits (entry 32). -/
def Obligations.UsSendStartsTransfer : Prop :=
  ∀ (sel : Byte),
    (∀ (data : Word) (length : BitVec 16) rest,
      decode ((((0x21 : BitVec 8) ++ sel) ++ length) :: data :: rest) =
        .instr (.usSend sel data.toNat length.toNat)) ∧
    ∀ (s : State) (data data' : Nat) (length length' : Nat),
      data' = fitRef s.cfg data → length' = fitIndex s.cfg length →
      (resolve s.cfg sel = none →
        exec (.usSend sel data length) s = .next
          { s with responses := s.responses ++ [⟨.invalidChannel, 0⟩], pc := s.pc + 2 }) ∧
      ∀ c, resolve s.cfg sel = some c →
        (data' = s.cfg.nullRef →
          exec (.usSend sel data length) s = .next
            { s with responses := s.responses ++ [⟨.nullArgument, 0⟩], pc := s.pc + 2 }) ∧
        (data' ≠ s.cfg.nullRef → (s.uarts.get c).ch.txBusy = true →
          exec (.usSend sel data length) s = .next
            { s with responses := s.responses ++ [⟨.busy, 0⟩], pc := s.pc + 2 }) ∧
        (data' ≠ s.cfg.nullRef → (s.uarts.get c).ch.txBusy = false →
          length' = 0 ∨ memRead s.mem data' = none →
          exec (.usSend sel data length) s = .fault .bufferBounds) ∧
        ∀ b, memRead s.mem data' = some b →
          (data' ≠ s.cfg.nullRef → (s.uarts.get c).ch.txBusy = false → length' ≠ 0 →
            (s.uarts.get c).txInflight = true →
            exec (.usSend sel data length) s = .refused .txOverwrite) ∧
          (data' ≠ s.cfg.nullRef → (s.uarts.get c).ch.txBusy = false → length' ≠ 0 →
            (s.uarts.get c).txInflight = false →
            exec (.usSend sel data length) s = .next
              { s with
                uarts := s.uarts.set c
                  { s.uarts.get c with
                    ch :=
                      { (s.uarts.get c).ch with
                        txBusy := true, txIndex := 1, txLen := length', txBuffer := data' }
                    cr :=
                      { (s.uarts.get c).cr with
                        tcie := (s.uarts.get c).cr.tcie || (s.uarts.get c).ieDesired.tc }
                    txInflight := true
                    txLog := (s.uarts.get c).txLog ++ [b] }
                responses := s.responses ++ [⟨.ok, 0⟩]
                pc := s.pc + 2 })

/-- R176: US.RECV, every outcome, in the order of its checks. Nothing is read from the hardware. The
operands are numbers of any size, taken at REF_WIDTH and INDEX_WIDTH bits (entry 32). -/
def Obligations.UsRecvStartsTransfer : Prop :=
  ∀ (sel : Byte),
    (∀ (dest : Word) (start length : BitVec 16) rest,
      decode ((((0x22 : BitVec 8) ++ sel) ++ length) :: dest :: ((0 : BitVec 16) ++ start) :: rest) =
        .instr (.usRecv sel dest.toNat start.toNat length.toNat)) ∧
    ∀ (s : State) (dest dest' : Nat) (start start' length length' : Nat),
      dest' = fitRef s.cfg dest → start' = fitIndex s.cfg start → length' = fitIndex s.cfg length →
      (resolve s.cfg sel = none →
        exec (.usRecv sel dest start length) s = .next
          { s with responses := s.responses ++ [⟨.invalidChannel, 0⟩], pc := s.pc + 3 }) ∧
      ∀ c, resolve s.cfg sel = some c →
        (dest' = s.cfg.nullRef →
          exec (.usRecv sel dest start length) s = .next
            { s with responses := s.responses ++ [⟨.nullArgument, 0⟩], pc := s.pc + 3 }) ∧
        (dest' ≠ s.cfg.nullRef → (s.uarts.get c).ch.rxBusy = true →
          exec (.usRecv sel dest start length) s = .next
            { s with responses := s.responses ++ [⟨.busy, 0⟩], pc := s.pc + 3 }) ∧
        (dest' ≠ s.cfg.nullRef → (s.uarts.get c).ch.rxBusy = false →
          exec (.usRecv sel dest start length) s = .next
            { s with
              uarts := s.uarts.set c
                { s.uarts.get c with
                  ch :=
                    { (s.uarts.get c).ch with
                      rxBusy := true, rxIndex := start', rxLen := length', rxBuffer := dest' }
                  cr :=
                    { (s.uarts.get c).cr with
                      rxneie := (s.uarts.get c).cr.rxneie || (s.uarts.get c).ieDesired.rxne } }
              responses := s.responses ++ [⟨.ok, 0⟩]
              pc := s.pc + 3 })

/-- R180: US.REGCB overwrites one entry of the callback table; an absent handler is NullArgument. The
handler is a number of any size, taken at REF_WIDTH bits (entry 32). -/
def Obligations.UsRegcbOverwritesEntry : Prop :=
  ∀ (sel : Byte),
    (∀ (handler : Word) rest,
      decode (((((0x25 : BitVec 8) ++ sel) ++ (0 : BitVec 16)) : Word) :: handler :: rest) =
        .instr (.usRegcb sel .tx handler.toNat) ∧
      decode (((((0x25 : BitVec 8) ++ sel) ++ (1 : BitVec 16)) : Word) :: handler :: rest) =
        .instr (.usRegcb sel .rx handler.toNat)) ∧
    ∀ (s : State) (handler handler' : Nat), handler' = fitRef s.cfg handler →
      (resolve s.cfg sel = none → ∀ dir,
        exec (.usRegcb sel dir handler) s = .next
          { s with responses := s.responses ++ [⟨.invalidChannel, 0⟩], pc := s.pc + 2 }) ∧
      ∀ c, resolve s.cfg sel = some c →
        (handler' = s.cfg.nullRef → ∀ dir,
          exec (.usRegcb sel dir handler) s = .next
            { s with responses := s.responses ++ [⟨.nullArgument, 0⟩], pc := s.pc + 2 }) ∧
        (handler' ≠ s.cfg.nullRef →
          exec (.usRegcb sel .tx handler) s = .next
              { s with
                uarts := s.uarts.set c { s.uarts.get c with cbTx := handler' }
                responses := s.responses ++ [⟨.ok, 0⟩]
                pc := s.pc + 2 } ∧
            exec (.usRegcb sel .rx handler) s = .next
              { s with
                uarts := s.uarts.set c { s.uarts.get c with cbRx := handler' }
                responses := s.responses ++ [⟨.ok, 0⟩]
                pc := s.pc + 2 })

/-- R182 with R181: US.SENDB. The issue step answers InvalidChannel, is refused beside asynchronous
activity or over a byte in flight, and otherwise writes the data register and waits; the completion
step is taken as soon as `TC` is set, clears it and answers Ok. -/
def Obligations.UsSendbIssuesThenCompletes : Prop :=
  ∀ (sel byte : Byte),
    (∀ rest, decode ((((0x23 : BitVec 8) ++ sel) ++ ((0 : BitVec 8) ++ byte)) :: rest) =
      .instr (.usSendb sel byte)) ∧
    ∀ (s : State),
      (resolve s.cfg sel = none →
        exec (.usSendb sel byte) s = .next
          { s with responses := s.responses ++ [⟨.invalidChannel, 0⟩], pc := s.pc + 1 }) ∧
      (∀ c, resolve s.cfg sel = some c →
        ((s.uarts.get c).ch.txBusy = true ∨ (s.uarts.get c).ch.rxBusy = true ∨
            (s.uarts.get c).cr.tcie = true ∨ (s.uarts.get c).cr.rxneie = true →
          exec (.usSendb sel byte) s = .refused .mixedBlockingAsync) ∧
        ((s.uarts.get c).ch.txBusy = false → (s.uarts.get c).ch.rxBusy = false →
          (s.uarts.get c).cr.tcie = false → (s.uarts.get c).cr.rxneie = false →
          ((s.uarts.get c).txInflight = true →
            exec (.usSendb sel byte) s = .refused .txOverwrite) ∧
          ((s.uarts.get c).txInflight = false →
            exec (.usSendb sel byte) s = .next
              { s with
                uarts := s.uarts.set c
                  { s.uarts.get c with
                    txInflight := true, txLog := (s.uarts.get c).txLog ++ [byte] }
                fgWait := .sendB c
                pc := s.pc + 1 }))) ∧
      (∀ c, s.fgWait = .sendB c → (s.uarts.get c).sr.tc = true →
        step s = .next
          { s with
            uarts := s.uarts.set c
              { s.uarts.get c with sr := { (s.uarts.get c).sr with tc := false } }
            fgWait := .none
            responses := s.responses ++ [⟨.ok, 0⟩] })

/-- R183 with R181: US.RECVB. The issue step waits without touching the channel; the completion step is
taken as soon as `RXNE` is set, clears it and answers Ok with the byte received. -/
def Obligations.UsRecvbIssuesThenCompletes : Prop :=
  ∀ (sel : Byte),
    (∀ rest, decode ((((0x24 : BitVec 8) ++ sel) ++ (0 : BitVec 16)) :: rest) =
      .instr (.usRecvb sel)) ∧
    ∀ (s : State),
      (resolve s.cfg sel = none →
        exec (.usRecvb sel) s = .next
          { s with responses := s.responses ++ [⟨.invalidChannel, 0⟩], pc := s.pc + 1 }) ∧
      (∀ c, resolve s.cfg sel = some c →
        ((s.uarts.get c).ch.txBusy = true ∨ (s.uarts.get c).ch.rxBusy = true ∨
            (s.uarts.get c).cr.tcie = true ∨ (s.uarts.get c).cr.rxneie = true →
          exec (.usRecvb sel) s = .refused .mixedBlockingAsync) ∧
        ((s.uarts.get c).ch.txBusy = false → (s.uarts.get c).ch.rxBusy = false →
          (s.uarts.get c).cr.tcie = false → (s.uarts.get c).cr.rxneie = false →
          exec (.usRecvb sel) s = .next { s with fgWait := .recvB c, pc := s.pc + 1 })) ∧
      (∀ c, s.fgWait = .recvB c → (s.uarts.get c).sr.rxne = true →
        step s = .next
          { s with
            uarts := s.uarts.set c
              { s.uarts.get c with sr := { (s.uarts.get c).sr with rxne := false } }
            fgWait := .none
            responses := s.responses ++ [⟨.ok, (s.uarts.get c).rdr⟩] })

/-! ### Unit UBT: hardware events and the interrupt handler -/

/-- R212: HW.TXDONE needs a byte in flight, reports it sent and sets `TC`. -/
def Obligations.TxdoneReportsByteSent : Prop :=
  (∀ rest, decode ((0xA0000000 : Word) :: rest) = .instr (.hwTxdone .c0) ∧
    decode ((0xA0010000 : Word) :: rest) = .instr (.hwTxdone .c1) ∧
    decode ((0xA0020000 : Word) :: rest) = .instr (.hwTxdone .c2)) ∧
  ∀ (c : Channel) (s : State),
    ((s.uarts.get c).txInflight = true →
      exec (.hwTxdone c) s = .next
        { s with
          uarts := s.uarts.set c
            { s.uarts.get c with
              txInflight := false, sr := { (s.uarts.get c).sr with tc := true } }
          pc := s.pc + 1 }) ∧
    ((s.uarts.get c).txInflight = false →
      exec (.hwTxdone c) s = .refused .noByteInFlight)

/-- R213: HW.RXBYTE needs `RXNE` clear, loads the received byte and sets `RXNE`, whatever `CR.RE` and
`CR.UE` hold. -/
def Obligations.RxbyteLoadsByte : Prop :=
  ∀ (byte : Byte),
    (∀ rest, decode (((0xA10000 : BitVec 24) ++ byte) :: rest) = .instr (.hwRxbyte .c0 byte) ∧
      decode (((0xA10100 : BitVec 24) ++ byte) :: rest) = .instr (.hwRxbyte .c1 byte) ∧
      decode (((0xA10200 : BitVec 24) ++ byte) :: rest) = .instr (.hwRxbyte .c2 byte)) ∧
    ∀ (c : Channel) (s : State),
      ((s.uarts.get c).sr.rxne = false →
        exec (.hwRxbyte c byte) s = .next
          { s with
            uarts := s.uarts.set c
              { s.uarts.get c with
                rdr := byte, sr := { (s.uarts.get c).sr with rxne := true } }
            pc := s.pc + 1 }) ∧
      ((s.uarts.get c).sr.rxne = true →
        exec (.hwRxbyte c byte) s = .refused .rxOverrun)

/-- R201 and R232: US.IRQ where the interrupt is not pending is refused: the line is not routed, or
neither source is both set and enabled. -/
def Obligations.IrqRefusedUnlessPending : Prop :=
  (∀ rest, decode ((0x90000000 : Word) :: rest) = .instr (.usIrq .c0) ∧
    decode ((0x90010000 : Word) :: rest) = .instr (.usIrq .c1) ∧
    decode ((0x90020000 : Word) :: rest) = .instr (.usIrq .c2)) ∧
  ∀ (c : Channel) (s : State),
    s.cfg.nvicEn.get c = false ∨
      (((s.uarts.get c).sr.tc = false ∨ (s.uarts.get c).cr.tcie = false) ∧
        ((s.uarts.get c).sr.rxne = false ∨ (s.uarts.get c).cr.rxneie = false)) →
    exec (.usIrq c) s = .refused .irqNotPending

/-- R203 and R205: a transmit-complete interrupt of a transfer that is not finished sends the next byte
from the caller's buffer, and stops by name where it cannot. The hypotheses keep the receive branch
out. That an address memory does not list cannot be read, that the absent reference cannot, and that the
read is tried before the data register are the model's (entries 10, 12 and 14). -/
def Obligations.IrqSendsNextByte : Prop :=
  ∀ (c : Channel) (s : State),
    s.cfg.nvicEn.get c = true → (s.uarts.get c).sr.tc = true →
    ((s.uarts.get c).cr.tcie = true ∨
      ((s.uarts.get c).sr.rxne = true ∧ (s.uarts.get c).cr.rxneie = true)) →
    ((s.uarts.get c).sr.rxne = false ∨ (s.uarts.get c).ch.rxBusy = false) →
    (s.uarts.get c).ch.txIndex ≠ (s.uarts.get c).ch.txLen →
    ((s.uarts.get c).ch.txBusy = false ∨
        (s.uarts.get c).ch.txLen < (s.uarts.get c).ch.txIndex →
      exec (.usIrq c) s = .fault .bufferBounds) ∧
    ((s.uarts.get c).ch.txBusy = true →
      ((s.uarts.get c).ch.txBuffer = s.cfg.nullRef ∨
        2 ^ s.cfg.refWidth ≤ (s.uarts.get c).ch.txBuffer + (s.uarts.get c).ch.txIndex ∨
        memRead s.mem ((s.uarts.get c).ch.txBuffer + (s.uarts.get c).ch.txIndex) =
          none) →
      exec (.usIrq c) s = .fault .bufferBounds) ∧
    ((s.uarts.get c).ch.txBusy = true →
      (s.uarts.get c).ch.txIndex < (s.uarts.get c).ch.txLen →
      (s.uarts.get c).ch.txBuffer ≠ s.cfg.nullRef →
      (s.uarts.get c).ch.txBuffer + (s.uarts.get c).ch.txIndex < 2 ^ s.cfg.refWidth → ∀ b,
      memRead s.mem ((s.uarts.get c).ch.txBuffer + (s.uarts.get c).ch.txIndex) =
        some b →
      ((s.uarts.get c).txInflight = true → exec (.usIrq c) s = .refused .txOverwrite) ∧
      ((s.uarts.get c).txInflight = false →
        exec (.usIrq c) s = .next
          { s with
            uarts := s.uarts.set c
              { s.uarts.get c with
                ch :=
                  { (s.uarts.get c).ch with txIndex := incIndex s.cfg (s.uarts.get c).ch.txIndex }
                sr := { (s.uarts.get c).sr with tc := false }
                txInflight := true
                txLog := (s.uarts.get c).txLog ++ [b] }
            pc := s.pc + 1 }))

/-- R204, R206 and R211: a transmit-complete interrupt with the index at the length releases the
channel, runs the transmit callback if one is present (here: a log-only body), clears `TC` and, with
DISARM_ON_COMPLETE, the enable. The branch has no busy guard. -/
def Obligations.IrqCompletesTransmit : Prop :=
  ∀ (c : Channel) (s : State),
    s.cfg.nvicEn.get c = true → (s.uarts.get c).sr.tc = true →
    ((s.uarts.get c).cr.tcie = true ∨
      ((s.uarts.get c).sr.rxne = true ∧ (s.uarts.get c).cr.rxneie = true)) →
    ((s.uarts.get c).sr.rxne = false ∨ (s.uarts.get c).ch.rxBusy = false) →
    (s.uarts.get c).ch.txIndex = (s.uarts.get c).ch.txLen →
    ((s.uarts.get c).cbTx ≠ s.cfg.nullRef → bodyOf s.cfg (s.uarts.get c).cbTx = .listed []) →
    exec (.usIrq c) s = .next
      { s with
        uarts := s.uarts.set c
          { s.uarts.get c with
            ch := { (s.uarts.get c).ch with txBusy := false, txLen := 0 }
            sr := { (s.uarts.get c).sr with tc := false }
            cr :=
              { (s.uarts.get c).cr with
                tcie := if s.cfg.disarmOnComplete then false else (s.uarts.get c).cr.tcie } }
        cbLog :=
          if (s.uarts.get c).cbTx = s.cfg.nullRef then s.cbLog
          else s.cbLog ++ [⟨c, .tx, (s.uarts.get c).cbTx, false, 0⟩]
        pc := s.pc + 1 }

/-- R207: a receive interrupt stores the received byte at the running index and, where the transfer is
not yet complete, only advances the index; a byte outside the window is a fault. The hypothesis on `TC`
keeps the transmit branch out. That the absent reference cannot be stored through, and that a store to an
address not listed yet succeeds, are the model's (entries 12 and 11). -/
def Obligations.IrqStoresReceivedByte : Prop :=
  ∀ (c : Channel) (s : State),
    s.cfg.nvicEn.get c = true → (s.uarts.get c).sr.tc = false →
    (s.uarts.get c).sr.rxne = true → (s.uarts.get c).cr.rxneie = true →
    (s.uarts.get c).ch.rxBusy = true →
    ((s.uarts.get c).ch.rxLen ≤ (s.uarts.get c).ch.rxIndex ∨
        (s.uarts.get c).ch.rxBuffer = s.cfg.nullRef ∨
        2 ^ s.cfg.refWidth ≤ (s.uarts.get c).ch.rxBuffer + (s.uarts.get c).ch.rxIndex →
      exec (.usIrq c) s = .fault .bufferBounds) ∧
    ((s.uarts.get c).ch.rxIndex + 1 < (s.uarts.get c).ch.rxLen →
      (s.uarts.get c).ch.rxBuffer ≠ s.cfg.nullRef →
      (s.uarts.get c).ch.rxBuffer + (s.uarts.get c).ch.rxIndex < 2 ^ s.cfg.refWidth →
      ∃ m : Memory,
        (∀ a, memRead m a =
          if a = (s.uarts.get c).ch.rxBuffer + (s.uarts.get c).ch.rxIndex then
            some (s.uarts.get c).rdr
          else memRead s.mem a) ∧
        exec (.usIrq c) s = .next
          { s with
            uarts := s.uarts.set c
              { s.uarts.get c with
                ch := { (s.uarts.get c).ch with rxIndex := incIndex s.cfg (s.uarts.get c).ch.rxIndex }
                sr :=
                  { (s.uarts.get c).sr with rxne := !s.cfg.drReadClearsRxne } }
            mem := m
            pc := s.pc + 1 })

/-- R208, R206 and R211: the receive interrupt that stores the last byte clears `RXNE`, releases the
channel, disarms with DISARM_ON_COMPLETE and then runs the receive callback if one is present (here: a
log-only body). A store to an address not listed yet succeeds (the model's, entry 11). -/
def Obligations.IrqCompletesReceive : Prop :=
  ∀ (c : Channel) (s : State),
    s.cfg.nvicEn.get c = true → (s.uarts.get c).sr.tc = false →
    (s.uarts.get c).sr.rxne = true → (s.uarts.get c).cr.rxneie = true →
    (s.uarts.get c).ch.rxBusy = true →
    (s.uarts.get c).ch.rxIndex + 1 = (s.uarts.get c).ch.rxLen →
    (s.uarts.get c).ch.rxLen < 2 ^ s.cfg.indexWidth → (s.uarts.get c).ch.rxBuffer ≠ s.cfg.nullRef →
    (s.uarts.get c).ch.rxBuffer + (s.uarts.get c).ch.rxIndex < 2 ^ s.cfg.refWidth →
    ((s.uarts.get c).cbRx ≠ s.cfg.nullRef → bodyOf s.cfg (s.uarts.get c).cbRx = .listed []) →
    ∃ m : Memory,
      (∀ a, memRead m a =
        if a = (s.uarts.get c).ch.rxBuffer + (s.uarts.get c).ch.rxIndex then
          some (s.uarts.get c).rdr
        else memRead s.mem a) ∧
      exec (.usIrq c) s = .next
        { s with
          uarts := s.uarts.set c
            { s.uarts.get c with
              ch :=
                { (s.uarts.get c).ch with
                  rxIndex := incIndex s.cfg (s.uarts.get c).ch.rxIndex, rxBusy := false, rxLen := 0 }
              sr := { (s.uarts.get c).sr with rxne := false }
              cr :=
                { (s.uarts.get c).cr with
                  rxneie := if s.cfg.disarmOnComplete then false else true } }
          mem := m
          cbLog :=
            if (s.uarts.get c).cbRx = s.cfg.nullRef then s.cbLog
            else s.cbLog ++ [⟨c, .rx, (s.uarts.get c).cbRx, false, 0⟩]
          pc := s.pc + 1 }

/-- R201, R202, R204, R214 (c) and R234: with both status bits set and the transmit index at its length,
one US.IRQ completes the transmit (whether or not one was busy: the branch has no guard) and then stores
the received byte, completing the receive too if that was its last byte; the callbacks that are present
(log-only bodies) run in that order. A store to an address not listed yet succeeds (the model's,
entry 11). -/
def Obligations.IrqRunsBothBranchesTransmitFirst : Prop :=
  ∀ (c : Channel) (s : State) (last : Bool),
    s.cfg.nvicEn.get c = true → (s.uarts.get c).sr.tc = true →
    (s.uarts.get c).sr.rxne = true →
    ((s.uarts.get c).cr.tcie = true ∨ (s.uarts.get c).cr.rxneie = true) →
    (s.uarts.get c).ch.txIndex = (s.uarts.get c).ch.txLen →
    (s.uarts.get c).ch.rxBusy = true →
    (s.uarts.get c).ch.rxIndex + 1 ≤ (s.uarts.get c).ch.rxLen →
    (s.uarts.get c).ch.rxLen < 2 ^ s.cfg.indexWidth →
    (s.uarts.get c).ch.rxBuffer ≠ s.cfg.nullRef →
    (s.uarts.get c).ch.rxBuffer + (s.uarts.get c).ch.rxIndex < 2 ^ s.cfg.refWidth →
    last = decide ((s.uarts.get c).ch.rxIndex + 1 = (s.uarts.get c).ch.rxLen) →
    ((s.uarts.get c).cbTx ≠ s.cfg.nullRef → bodyOf s.cfg (s.uarts.get c).cbTx = .listed []) →
    (last = true → (s.uarts.get c).cbRx ≠ s.cfg.nullRef →
      bodyOf s.cfg (s.uarts.get c).cbRx = .listed []) →
    ∃ m : Memory,
      (∀ a, memRead m a =
        if a = (s.uarts.get c).ch.rxBuffer + (s.uarts.get c).ch.rxIndex then
          some (s.uarts.get c).rdr
        else memRead s.mem a) ∧
      exec (.usIrq c) s = .next
        { s with
          uarts := s.uarts.set c
            { s.uarts.get c with
              ch :=
                { (s.uarts.get c).ch with
                  txBusy := false
                  txLen := 0
                  rxBusy := !last
                  rxIndex := (s.uarts.get c).ch.rxIndex + 1
                  rxLen := if last then 0 else (s.uarts.get c).ch.rxLen }
              sr := ⟨false, !last && !s.cfg.drReadClearsRxne⟩
              cr :=
                { (s.uarts.get c).cr with
                  tcie := if s.cfg.disarmOnComplete then false else (s.uarts.get c).cr.tcie
                  rxneie :=
                    if last && s.cfg.disarmOnComplete then false
                    else (s.uarts.get c).cr.rxneie } }
          mem := m
          cbLog :=
            s.cbLog ++
              (if (s.uarts.get c).cbTx = s.cfg.nullRef then []
                else [⟨c, .tx, (s.uarts.get c).cbTx, false, 0⟩]) ++
              (if last = true ∧ (s.uarts.get c).cbRx ≠ s.cfg.nullRef then
                [⟨c, .rx, (s.uarts.get c).cbRx, false, 0⟩]
              else [])
          pc := s.pc + 1 }

/-- R201, R205, R207 and R208: with both status bits set and the transmit in its middle, one US.IRQ sends
the next byte and stores the received one, completing the receive if that was its last byte (its callback,
if present, log-only). A store to an address not listed yet succeeds (the model's, entry 11). -/
def Obligations.IrqServesBothDirectionsMidTransfer : Prop :=
  ∀ (c : Channel) (s : State) (b : Byte) (last : Bool),
    s.cfg.nvicEn.get c = true → (s.uarts.get c).sr = ⟨true, true⟩ →
    ((s.uarts.get c).cr.tcie = true ∨ (s.uarts.get c).cr.rxneie = true) →
    (s.uarts.get c).ch.txBusy = true → (s.uarts.get c).txInflight = false →
    (s.uarts.get c).ch.txIndex < (s.uarts.get c).ch.txLen →
    (s.uarts.get c).ch.txLen < 2 ^ s.cfg.indexWidth →
    (s.uarts.get c).ch.txBuffer ≠ s.cfg.nullRef →
    (s.uarts.get c).ch.txBuffer + (s.uarts.get c).ch.txIndex < 2 ^ s.cfg.refWidth →
    memRead s.mem ((s.uarts.get c).ch.txBuffer + (s.uarts.get c).ch.txIndex) =
      some b →
    (s.uarts.get c).ch.rxBusy = true →
    (s.uarts.get c).ch.rxIndex + 1 ≤ (s.uarts.get c).ch.rxLen →
    (s.uarts.get c).ch.rxLen < 2 ^ s.cfg.indexWidth →
    (s.uarts.get c).ch.rxBuffer ≠ s.cfg.nullRef →
    (s.uarts.get c).ch.rxBuffer + (s.uarts.get c).ch.rxIndex < 2 ^ s.cfg.refWidth →
    last = decide ((s.uarts.get c).ch.rxIndex + 1 = (s.uarts.get c).ch.rxLen) →
    (last = true → (s.uarts.get c).cbRx ≠ s.cfg.nullRef →
      bodyOf s.cfg (s.uarts.get c).cbRx = .listed []) →
    ∃ m : Memory,
      (∀ a, memRead m a =
        if a = (s.uarts.get c).ch.rxBuffer + (s.uarts.get c).ch.rxIndex then
          some (s.uarts.get c).rdr
        else memRead s.mem a) ∧
      exec (.usIrq c) s = .next
        { s with
          uarts := s.uarts.set c
            { s.uarts.get c with
              ch :=
                { (s.uarts.get c).ch with
                  txIndex := (s.uarts.get c).ch.txIndex + 1
                  rxBusy := !last
                  rxIndex := (s.uarts.get c).ch.rxIndex + 1
                  rxLen := if last then 0 else (s.uarts.get c).ch.rxLen }
              sr := ⟨false, !last && !s.cfg.drReadClearsRxne⟩
              cr :=
                { (s.uarts.get c).cr with
                  rxneie :=
                    if last && s.cfg.disarmOnComplete then false
                    else (s.uarts.get c).cr.rxneie }
              txInflight := true
              txLog := (s.uarts.get c).txLog ++ [b] }
          mem := m
          cbLog :=
            s.cbLog ++
              (if last = true ∧ (s.uarts.get c).cbRx ≠ s.cfg.nullRef then
                [⟨c, .rx, (s.uarts.get c).cbRx, false, 0⟩]
              else [])
          pc := s.pc + 1 }

/-- R214 (b) and R285: a received byte with no receive in progress leaves the handler nothing to do:
US.IRQ is enabled again and again and changes nothing but the script position. -/
def Obligations.IrqWithNoReceiveChangesNothing : Prop :=
  ∀ (n : Nat) (c : Channel) (s : State),
    s.cfg.nvicEn.get c = true → (s.uarts.get c).sr.tc = false →
    (s.uarts.get c).sr.rxne = true → (s.uarts.get c).cr.rxneie = true →
    (s.uarts.get c).ch.rxBusy = false →
    execTimes n (.usIrq c) s = .next { s with pc := s.pc + n }

/-- R284, R204 and R206: a transmit callback whose body submits the next transfer on its own channel is
accepted, because the bank is already released; the branch clears `TC` after it, so the new transfer is
in progress with its first byte in flight and `TC` clear. That a body is a list of actions, that the
foreground does not see the codes of its requests, and that their operands are numbers of any size, taken
at REF_WIDTH and INDEX_WIDTH bits, are the model's (entries 20, 21 and 32). -/
def Obligations.TransmitCallbackMaySubmitNext : Prop :=
  ∀ (c : Channel) (s : State) (sel : Byte) (data data' : Nat) (length length' : Nat)
    (b : Byte), data' = fitRef s.cfg data → length' = fitIndex s.cfg length →
    s.cfg.nvicEn.get c = true → (s.uarts.get c).sr.tc = true →
    (s.uarts.get c).cr.tcie = true → (s.uarts.get c).sr.rxne = false →
    (s.uarts.get c).ch.txIndex = (s.uarts.get c).ch.txLen →
    (s.uarts.get c).txInflight = false → (s.uarts.get c).cbTx ≠ s.cfg.nullRef →
    bodyOf s.cfg (s.uarts.get c).cbTx = .listed [.send sel data length] →
    resolve s.cfg sel = some c → data' ≠ s.cfg.nullRef → length' ≠ 0 →
    memRead s.mem data' = some b →
    exec (.usIrq c) s = .next
      { s with
        uarts := s.uarts.set c
          { s.uarts.get c with
            ch :=
              { (s.uarts.get c).ch with
                txBusy := true, txIndex := 1, txLen := length', txBuffer := data' }
            sr := { (s.uarts.get c).sr with tc := false }
            cr :=
              { (s.uarts.get c).cr with tcie := if s.cfg.disarmOnComplete then false else true }
            txInflight := true
            txLog := (s.uarts.get c).txLog ++ [b] }
        cbLog := s.cbLog ++ [⟨c, .tx, (s.uarts.get c).cbTx, false, 0⟩]
        pc := s.pc + 1 }

/-- R209: a busy transmit that has just had its byte put in flight is finished by as many
transmit-complete events as bytes it still owes plus one, each with its handler run: every byte of the
buffer is sent in order, and then the channel is free with `TC` clear and nothing in flight; the whole
state after the last event is given. -/
def Obligations.TransmitFinishesAfterItsEvents : Prop :=
  ∀ (c : Channel) (s : State) (data : Nat) (length : Nat) (rest : List Byte),
    (s.uarts.get c).ch.txBusy = true → (s.uarts.get c).ch.txBuffer = data → data ≠ s.cfg.nullRef →
    (s.uarts.get c).ch.txLen = length → length < 2 ^ s.cfg.indexWidth →
    (s.uarts.get c).ch.txIndex + rest.length = length →
    data + length ≤ 2 ^ s.cfg.refWidth →
    (∀ k b, rest[k]? = some b →
      memRead s.mem (data + (s.uarts.get c).ch.txIndex + k) = some b) →
    (s.uarts.get c).txInflight = true → (s.uarts.get c).sr.tc = false →
    (s.uarts.get c).cr.tcie = true → (s.uarts.get c).sr.rxne = false →
    s.cfg.nvicEn.get c = true →
    ((s.uarts.get c).cbTx ≠ s.cfg.nullRef → bodyOf s.cfg (s.uarts.get c).cbTx = .listed []) →
    execAll ((List.replicate (rest.length + 1) [Instr.hwTxdone c, Instr.usIrq c]).flatten) s = .next
      { s with
        uarts := s.uarts.set c
          { s.uarts.get c with
            ch := { (s.uarts.get c).ch with txBusy := false, txIndex := length, txLen := 0 }
            cr :=
              { (s.uarts.get c).cr with tcie := if s.cfg.disarmOnComplete then false else true }
            txInflight := false
            txLog := (s.uarts.get c).txLog ++ rest }
        cbLog :=
          if (s.uarts.get c).cbTx = s.cfg.nullRef then s.cbLog
          else s.cbLog ++ [⟨c, .tx, (s.uarts.get c).cbTx, false, 0⟩]
        pc := s.pc + 2 * (rest.length + 1) }

/-- R209 and R292: a busy receive is finished by as many received bytes as it still wants, each
with its handler run: the bytes are stored at rising indices and nothing else of memory changes. Stores
to addresses not listed yet succeed (the model's, entry 11). -/
def Obligations.ReceiveFinishesAfterItsBytes : Prop :=
  ∀ (c : Channel) (s : State) (dest : Nat) (bytes : List Byte),
    (s.uarts.get c).ch.rxBusy = true → (s.uarts.get c).ch.rxBuffer = dest → dest ≠ s.cfg.nullRef →
    bytes ≠ [] → (s.uarts.get c).ch.rxLen < 2 ^ s.cfg.indexWidth →
    (s.uarts.get c).ch.rxIndex + bytes.length = (s.uarts.get c).ch.rxLen →
    dest + (s.uarts.get c).ch.rxLen ≤ 2 ^ s.cfg.refWidth →
    (s.uarts.get c).sr = ⟨false, false⟩ → (s.uarts.get c).cr.rxneie = true →
    s.cfg.nvicEn.get c = true → s.cfg.drReadClearsRxne = true →
    ((s.uarts.get c).cbRx ≠ s.cfg.nullRef → bodyOf s.cfg (s.uarts.get c).cbRx = .listed []) →
    ∃ t, execAll ((bytes.map fun b => [Instr.hwRxbyte c b, Instr.usIrq c]).flatten) s = .next t ∧
      (∀ k b, bytes[k]? = some b →
        memRead t.mem (dest + (s.uarts.get c).ch.rxIndex + k) = some b) ∧
      (∀ a, a < dest + (s.uarts.get c).ch.rxIndex ∨
          dest + (s.uarts.get c).ch.rxLen ≤ a → memRead t.mem a = memRead s.mem a) ∧
      (t.uarts.get c).ch.rxBusy = false ∧ (t.uarts.get c).ch.rxLen = 0 ∧
      (t.uarts.get c).sr = ⟨false, false⟩ ∧
      t.cbLog =
        (if (s.uarts.get c).cbRx = s.cfg.nullRef then s.cbLog
          else s.cbLog ++ [⟨c, .rx, (s.uarts.get c).cbRx, false, 0⟩]) ∧
      t.bus = s.bus ∧ t.lcd = s.lcd ∧ (∀ d, d ≠ c → t.uarts.get d = s.uarts.get d)

/-! ### Steps of the machine -/

/-- R90 and R53: where no busy-wait can be completed and the words at `pc` decode to an operation that
the foreground may issue or that is an event, a step is that operation, with nothing added. Script and
`pc` as parts of the state, and the place of the gate, are the model's (entries 1, 17 and 18). -/
def Obligations.StepRunsTheDecodedOperation : Prop :=
  ∀ (s : State) (i : Instr),
    (∀ c, s.fgWait = .sendB c → (s.uarts.get c).sr.tc = false) →
    (∀ c, s.fgWait = .recvB c → (s.uarts.get c).sr.rxne = false) →
    decode (s.script.drop s.pc) = .instr i → (i.isForeground = true → s.fgWait = .none) →
    step s = exec i s

/-- R53, R92, R98 and R34: what a step refuses where no busy-wait can be completed: a foreground request
during a busy-wait, a reserved word and missing operand words (during a busy-wait too: the order is the
model's choice, entry 35), and, the model's own refusal (entry 16), a script at its end. -/
def Obligations.StepRefusesWhatTheScriptMayNotDo : Prop :=
  ∀ (s : State),
    (∀ c, s.fgWait = .sendB c → (s.uarts.get c).sr.tc = false) →
    (∀ c, s.fgWait = .recvB c → (s.uarts.get c).sr.rxne = false) →
    (∀ i, decode (s.script.drop s.pc) = .instr i → i.isForeground = true → s.fgWait ≠ .none →
      step s = .refused .foregroundBlocked) ∧
    (decode (s.script.drop s.pc) = .illegal → step s = .refused .illegalRequest) ∧
    (decode (s.script.drop s.pc) = .truncated → s.pc < s.script.length →
      step s = .refused .truncatedScript) ∧
    (s.script.length ≤ s.pc → step s = .refused .scriptEnded)

/-- R102, R34 and R100: an operation that takes a next state moves `pc` by its word count, writes
neither the script nor the parameters, and answers as its kind does: an event and HW.NOP nothing, a
blocking request nothing or InvalidChannel, every other request exactly one code with data 0. -/
def Obligations.EveryOperationAdvancesAndAnswers : Prop :=
  ∀ (i : Instr) (s t : State), exec i s = .next t →
    t.pc = s.pc + i.wordCount ∧ t.script = s.script ∧ t.cfg = s.cfg ∧
    (i.isForeground = false → t.responses = s.responses) ∧
    (∀ sel byte, i = .usSendb sel byte ∨ i = .usRecvb sel →
      t.responses = s.responses ∨ t.responses = s.responses ++ [⟨.invalidChannel, 0⟩]) ∧
    (i.isForeground = true → (∀ sel byte, i ≠ .usSendb sel byte ∧ i ≠ .usRecvb sel) →
      ∃ code, t.responses = s.responses ++ [⟨code, 0⟩])

/-- R171 and R220: a request that answers a failure code has changed no state at all. -/
def Obligations.FailedRequestsChangeNothing : Prop :=
  ∀ (i : Instr) (s t : State) (code : ResultCode), exec i s = .next t →
    t.responses = s.responses ++ [⟨code, 0⟩] → code ≠ .ok →
    t = { s with responses := s.responses ++ [⟨code, 0⟩], pc := s.pc + i.wordCount }

/-! ### Encoding -/

/-- R107: example words of the assembler table decode to the operations they stand for. -/
def Obligations.ExampleWordsDecode : Prop :=
  decode [0x01000038] = .instr (.stbCmd 0x38) ∧
  decode [0x11000002, 0x00004000] = .instr (.lcdWrite 0x4000 2) ∧
  decode [0x12010000] = .instr (.lcdGoto 1 0) ∧
  decode [0x200000F0, 0x00F42400, 0x00002580] =
    .instr (.usInit 0 ⟨false, false, 0, true, true, true, true⟩ 16000000 9600) ∧
  decode [0x22010004, 0x00002000, 0x00000001] = .instr (.usRecv 1 0x2000 1 4) ∧
  decode [0x25000000, 0x00003000] = .instr (.usRegcb 0 .tx 0x3000) ∧
  decode [0xA1010011] = .instr (.hwRxbyte .c1 0x11)

/-- R93: every well-formed operation, with every operand at every value, is decoded back from its
encoding, whatever words follow. -/
def Obligations.DecodeReadsBackEveryEncoding : Prop :=
  ∀ (i : Instr) (rest : List Word), i.wf = true → decode (encode i ++ rest) = .instr i

/-- R93 and R98: what decodes to an operation is that operation's encoding: each word list has at most
one meaning, every must-be-zero bit is checked, and the operation is well formed. -/
def Obligations.DecodedWordsAreTheEncoding : Prop :=
  ∀ (words : List Word) (i : Instr), decode words = .instr i →
    i.wf = true ∧ words.take i.wordCount = encode i ∧ (encode i).length = i.wordCount

/-- R93 and R98: the decoder accepts a word 0 exactly as the opcode map's match and mask columns say,
with the reserved parity of US.INIT and the reserved channel indices of the events taken out; here the
operand words are zero. -/
def Obligations.DecoderAgreesWithOpcodeMap : Prop :=
  ∀ (w : Word),
    (∀ i, decode [w, 0, 0] = .instr i →
      ∃ row ∈ opcodeMap, row.op = i.opcode ∧ w &&& row.mask = row.pattern) ∧
    (∀ row ∈ opcodeMap, w &&& row.mask = row.pattern →
      (row.op = .usInit → w &&& 0x0000000C ≠ 0x0000000C) →
      (row.op = .usIrq ∨ row.op = .hwTxdone ∨ row.op = .hwRxbyte →
        (w &&& 0x00FF0000).toNat ≤ 0x00020000) →
      ∃ i, decode [w, 0, 0] = .instr i ∧ i.opcode = row.op)

/-! ### Reset and the invariant -/

/-- R52: reset, for every choice of the parameters, of NUM_SLOTS and of the values the spec leaves
unspecified. The contents of memory are the caller's (R51, R60). That `State.reset` is one such choice,
and which, is the model's (entries 3 to 7, 23 and 34); `eDriven` is the model's own field (entry 9). -/
def Obligations.ResetLeavesTheResetTable : Prop :=
  (∀ (cfg : Cfg) (n : Nat) (o : ResetLevels) (mem : Memory) (c : Channel),
      ∀ s, s = State.resetWith cfg n o mem →
    s.bus.phase = false ∧ s.bus.eDriven = false ∧ s.bus.pinsCfg = false ∧ s.bus.latchLog = [] ∧
    s.lcd.life = .off ∧ s.lcd.isub = .powerOn ∧ s.lcd.delay = 0 ∧ s.lcd.cur = 0 ∧
    s.lcd.widx = 0 ∧ s.lcd.cursorRow = 0 ∧ s.lcd.cursorCol = 0 ∧
    s.lcd.slots.length = n ∧
    (∀ x ∈ s.lcd.slots, x.occupied = false ∧ x.kind = .none ∧ x.progress = .start) ∧
    (s.uarts.get c).ch = ⟨false, 0, 0, cfg.nullRef, false, 0, 0, cfg.nullRef⟩ ∧
    (s.uarts.get c).cbTx = cfg.nullRef ∧ (s.uarts.get c).cbRx = cfg.nullRef ∧
    (s.uarts.get c).ieDesired = ⟨false, false⟩ ∧ (s.uarts.get c).txInflight = false ∧
    (s.uarts.get c).cr.tcie = false ∧ (s.uarts.get c).cr.rxneie = false ∧
    (s.uarts.get c).txLog = [] ∧ s.cbLog = [] ∧ s.fgWait = .none ∧ s.pc = 0 ∧ s.mem = mem ∧ s.cfg = cfg ∧
    (s.bus.e, s.bus.rs, s.bus.rw, s.bus.d) = (o.e, o.rs, o.rw, o.d) ∧
    (s.uarts.get c).sr = o.sr.get c ∧ (s.uarts.get c).brr = o.brr.get c ∧
    (s.uarts.get c).rdr = o.rdr.get c ∧
    (s.uarts.get c).cr = { o.cr.get c with tcie := false, rxneie := false }) ∧
  ∃ (cfg : Cfg) (n : Nat) (o : ResetLevels) (mem : Memory),
    State.reset = State.resetWith cfg n o mem

/-- The invariant holds at reset, for every choice of the open values with parameters the spec allows
at least one slot and memory in canonical form. -/
def Obligations.ResetIsAGoodState : Prop :=
  (∀ (cfg : Cfg) (n : Nat) (o : ResetLevels) (mem : Memory), goodCfg cfg → 1 ≤ n →
    memWf cfg mem → goodState (State.resetWith cfg n o mem)) ∧
  goodState State.reset

/-- Every step keeps the invariant: the canonical memory, the slot invariants of R31, the idle rule of
R151, the init order of R149, the line levels of R127 and the transfer banks of R33 and R214 (d). -/
def Obligations.EveryStepKeepsTheInvariant : Prop :=
  ∀ (s t : State), goodState s → step s = .next t → goodState t

/-! ### Rules of the whole machine -/

/-- R286, R287 and vector K5: on channels used without US.SENDB, an operation keeps the transmit
discipline: the transmit-complete bit is set only while a transmit is busy with no byte in flight. -/
def Obligations.AsynchronousUseKeepsTransmitDiscipline : Prop :=
  ∀ (i : Instr) (s t : State), (∀ c, txDisciplined (s.uarts.get c)) →
    (∀ sel byte, i ≠ .usSendb sel byte) → exec i s = .next t →
    ∀ c, txDisciplined (t.uarts.get c)

/-- R214, R286 and vector K5: on a disciplined channel a pending transmit-complete interrupt always
completes: neither the BufferBounds fault of an idle transmit branch nor TxOverwrite can occur, as long
as the promised bytes are readable. -/
def Obligations.DisciplinedTransmitInterruptCompletes : Prop :=
  ∀ (c : Channel) (s : State), txDisciplined (s.uarts.get c) → goodUart s.cfg (s.uarts.get c) →
    s.cfg.nvicEn.get c = true → (s.uarts.get c).sr.tc = true →
    (s.uarts.get c).cr.tcie = true → (s.uarts.get c).sr.rxne = false →
    ((s.uarts.get c).cbTx ≠ s.cfg.nullRef → bodyOf s.cfg (s.uarts.get c).cbTx = .listed []) →
    ((s.uarts.get c).ch.txIndex ≠ (s.uarts.get c).ch.txLen →
      (s.uarts.get c).ch.txBuffer + (s.uarts.get c).ch.txIndex < 2 ^ s.cfg.refWidth ∧
      ∃ b, memRead s.mem
        ((s.uarts.get c).ch.txBuffer + (s.uarts.get c).ch.txIndex) = some b) →
    ∃ t, exec (.usIrq c) s = .next t ∧ txDisciplined (t.uarts.get c)

/-- R178 and R200: an operation changes at most the one channel it is for (callbacks log-only). -/
def Obligations.ChannelsAreIndependent : Prop :=
  ∀ (i : Instr) (s t : State), exec i s = .next t → s.cfg.cbBody = [] →
    ∀ d, (t.uarts.get d ≠ s.uarts.get d) →
      i = .usIrq d ∨ i = .hwTxdone d ∨ (∃ b, i = .hwRxbyte d b) ∨
      ∃ sel, resolve s.cfg sel = some d ∧
        ((∃ f x y, i = .usInit sel f x y) ∨ (∃ r n, i = .usSend sel r n) ∨
          (∃ r k n, i = .usRecv sel r k n) ∨ (∃ b, i = .usSendb sel b) ∨
          (∃ dir h, i = .usRegcb sel dir h))

/-- R47: an operation adds to the latch log at most one entry, and exactly at a fall of `E` from a level
the block drove to 1, holding the levels the lines had. An interrupt whose callback body drives the bus
itself may add more (log-only bodies here). -/
def Obligations.LatchLogRecordsEveryFallOfEnable : Prop :=
  ∀ (i : Instr) (s t : State), exec i s = .next t →
    (∀ c, i = .usIrq c → s.cfg.cbBody = []) →
    (s.bus.eDriven = true ∧ s.bus.e = true ∧ t.bus.e = false →
      t.bus.latchLog = s.bus.latchLog ++ [⟨s.bus.rs, s.bus.rw, s.bus.d⟩]) ∧
    (¬ (s.bus.eDriven = true ∧ s.bus.e = true ∧ t.bus.e = false) →
      t.bus.latchLog = s.bus.latchLog)

/-- R212 and R213: HW.TXDONE is the only operation that sets `TC`, and HW.RXBYTE the only one that sets
`RXNE`. -/
def Obligations.StatusBitsAreSetOnlyByHardware : Prop :=
  ∀ (i : Instr) (s t : State) (c : Channel), exec i s = .next t →
    ((s.uarts.get c).sr.tc = false → (t.uarts.get c).sr.tc = true → i = .hwTxdone c) ∧
    ((s.uarts.get c).sr.rxne = false → (t.uarts.get c).sr.rxne = true →
      ∃ b, i = .hwRxbyte c b)

/-- R44 and R211: with DISARM_ON_COMPLETE false no operation ever clears an interrupt enable. -/
def Obligations.EnablesStaySetWithoutDisarm : Prop :=
  ∀ (i : Instr) (s t : State) (c : Channel), exec i s = .next t →
    s.cfg.disarmOnComplete = false →
    ((s.uarts.get c).cr.tcie = true → (t.uarts.get c).cr.tcie = true) ∧
    ((s.uarts.get c).cr.rxneie = true → (t.uarts.get c).cr.rxneie = true)

/-- R24 and R25: the lifecycle and the init sub-state move only forward, one state at a time. -/
def Obligations.LifecycleOnlyMovesForward : Prop :=
  ∀ (i : Instr) (s t : State), exec i s = .next t →
    lifeValue s.lcd.life ≤ lifeValue t.lcd.life ∧
    lifeValue t.lcd.life ≤ lifeValue s.lcd.life + 1 ∧
    isubValue s.lcd.isub ≤ isubValue t.lcd.isub ∧
    isubValue t.lcd.isub ≤ isubValue s.lcd.isub + 1

/-- R33 and R75: the single-writer handoff. While a busy flag is set only the channel's own handler
touches that direction's registers, and while it is clear only a submission or the handler does. -/
def Obligations.BusyFlagHandsOverTheBank : Prop :=
  ∀ (i : Instr) (s t : State) (c : Channel), exec i s = .next t → i ≠ .usIrq c →
    ((s.uarts.get c).ch.txBusy = true →
      (t.uarts.get c).ch.txBusy = true ∧
      (t.uarts.get c).ch.txIndex = (s.uarts.get c).ch.txIndex ∧
      (t.uarts.get c).ch.txLen = (s.uarts.get c).ch.txLen ∧
      (t.uarts.get c).ch.txBuffer = (s.uarts.get c).ch.txBuffer) ∧
    ((s.uarts.get c).ch.rxBusy = true →
      (t.uarts.get c).ch.rxBusy = true ∧
      (t.uarts.get c).ch.rxIndex = (s.uarts.get c).ch.rxIndex ∧
      (t.uarts.get c).ch.rxLen = (s.uarts.get c).ch.rxLen ∧
      (t.uarts.get c).ch.rxBuffer = (s.uarts.get c).ch.rxBuffer) ∧
    (s.cfg.cbBody = [] → (s.uarts.get c).ch.txBusy = false →
      (∀ sel data length, i ≠ .usSend sel data length) →
      (t.uarts.get c).ch.txBusy = false ∧
      (t.uarts.get c).ch.txIndex = (s.uarts.get c).ch.txIndex ∧
      (t.uarts.get c).ch.txLen = (s.uarts.get c).ch.txLen ∧
      (t.uarts.get c).ch.txBuffer = (s.uarts.get c).ch.txBuffer) ∧
    (s.cfg.cbBody = [] → (s.uarts.get c).ch.rxBusy = false →
      (∀ sel dest start length, i ≠ .usRecv sel dest start length) →
      (t.uarts.get c).ch.rxBusy = false ∧
      (t.uarts.get c).ch.rxIndex = (s.uarts.get c).ch.rxIndex ∧
      (t.uarts.get c).ch.rxLen = (s.uarts.get c).ch.rxLen ∧
      (t.uarts.get c).ch.rxBuffer = (s.uarts.get c).ch.rxBuffer)

/-- R31 (b) and R30: the number of slots never changes, and an occupied slot keeps its request until the
tick that serves it: only LCD.TICK touches the current slot, no operation but the claim that selects it
touches another. -/
def Obligations.OccupiedSlotKeepsItsRequest : Prop :=
  ∀ (i : Instr) (s t : State), exec i s = .next t →
    t.lcd.slots.length = s.lcd.slots.length ∧
    ∀ (j : Nat) (x : Slot), s.lcd.slots[j]? = some x → x.occupied = true →
      (i = .lcdTick → j ≠ s.lcd.cur) →
      ∃ y, t.lcd.slots[j]? = some y ∧ y.occupied = true ∧ y.kind = x.kind ∧
        (i ≠ .lcdTick → y = x)

/-- R243, R60 and R62: the display operations leave the serial side, the callbacks and the wait marker
alone; the serial operations and events leave the display side alone (callbacks log-only); and buffer
memory is written by US.IRQ only, at the one byte the receive in progress is for, and not at all where
`RXNE` is clear or no receive is in progress. -/
def Obligations.DisplaySerialAndMemoryAreSeparate : Prop :=
  ∀ (i : Instr) (s t : State), exec i s = .next t →
    (i.opcode ∈ [Opcode.stbCmd, .stbChr, .stbElow, .lcdInit, .lcdWrite, .lcdGoto, .lcdClear,
        .lcdCmd, .lcdTick, .nop] →
      t.uarts = s.uarts ∧ t.mem = s.mem ∧ t.cbLog = s.cbLog ∧ t.fgWait = s.fgWait) ∧
    (s.cfg.cbBody = [] → i.opcode ∈ [Opcode.usInit, .usSend, .usRecv, .usSendb, .usRecvb,
        .usRegcb, .usIrq, .hwTxdone, .hwRxbyte, .nop] →
      t.bus = s.bus ∧ t.lcd = s.lcd) ∧
    ((∀ c, i ≠ .usIrq c) → t.mem = s.mem ∧ t.cbLog = s.cbLog) ∧
    (∀ c, i = .usIrq c → s.cfg.cbBody = [] →
      t.fgWait = s.fgWait ∧
      ∀ a, a ≠ (s.uarts.get c).ch.rxBuffer + (s.uarts.get c).ch.rxIndex →
        memRead t.mem a = memRead s.mem a) ∧
    (∀ c, i = .usIrq c → s.cfg.cbBody = [] →
      (s.uarts.get c).sr.rxne = false ∨ (s.uarts.get c).ch.rxBusy = false → t.mem = s.mem)

/-- R170 with the default CHANNEL_OF of R10: the selectors 0, 1 and 2 name the channels 0, 1 and 2, and
no other selector names one. -/
def Obligations.DefaultSelectorsNameTheThreeChannels : Prop :=
  ∀ (sel : Byte) (c : Channel), resolve Cfg.default sel = some c ↔ sel = c.index
end

