-- ==== Sys2Proof/Laws/Decode.lean ====
section
/-!
SUPPORT. The fields of a word 0 and of its operands, read back from what the encoder writes and the
other way round (30_encoding.md R91, R94, R96, R97).
-/

namespace Sys2Proof

@[simp] theorem opField_word0 (op a : BitVec 8) (b : BitVec 16) : opField (word0 op a b) = op := by
  ext i hi
  simp only [opField, word0, BitVec.getElem_extractLsb']
  rw [BitVec.getLsbD_append, if_neg (by omega), BitVec.getLsbD_append, if_neg (by omega)]
  simp [show 24 + i - 16 - 8 = i by omega, BitVec.getLsbD_eq_getElem hi]

@[simp] theorem aField_word0 (op a : BitVec 8) (b : BitVec 16) : aField (word0 op a b) = a := by
  ext i hi
  simp only [aField, word0, BitVec.getElem_extractLsb']
  rw [BitVec.getLsbD_append, if_neg (by omega), BitVec.getLsbD_append, if_pos (by omega)]
  simp [show 16 + i - 16 = i by omega, BitVec.getLsbD_eq_getElem hi]

@[simp] theorem bField_word0 (op a : BitVec 8) (b : BitVec 16) : bField (word0 op a b) = b := by
  ext i hi
  simp only [bField, word0, BitVec.getElem_extractLsb']
  rw [BitVec.getLsbD_append, if_pos (by omega)]
  simp [BitVec.getLsbD_eq_getElem hi]

/-- A word is its three fields. -/
theorem word0_fields (w : Word) : word0 (opField w) (aField w) (bField w) = w := by
  refine BitVec.eq_of_getLsbD_eq fun i hi => ?_
  simp only [word0, BitVec.getLsbD_append, opField, aField, bField, BitVec.getLsbD_extractLsb']
  split
  · simp [*]
  · split
    · simp [*, show 16 + (i - 16) = i by omega]
    · simp [show i - 16 - 8 < 8 by omega, show 24 + (i - 16 - 8) = i by omega]

@[simp] theorem lowByte_byteB (v : Byte) : lowByte (byteB v) = v := by
  ext i hi
  simp only [lowByte, byteB, BitVec.getElem_extractLsb']
  rw [BitVec.getLsbD_append, if_pos (by omega)]
  simp [BitVec.getLsbD_eq_getElem hi]

@[simp] theorem highByte_byteB (v : Byte) : highByte (byteB v) = 0 := by
  ext i hi
  simp only [highByte, byteB, BitVec.getElem_extractLsb']
  rw [BitVec.getLsbD_append, if_neg (by omega)]
  simp

/-- A field whose upper half is zero is the byte in its lower half. -/
theorem byteB_lowByte {v : BitVec 16} (h : highByte v = 0) : byteB (lowByte v) = v := by
  refine BitVec.eq_of_getLsbD_eq fun i hi => ?_
  simp only [byteB, BitVec.getLsbD_append, lowByte, BitVec.getLsbD_extractLsb']
  split
  · simp [*]
  · have := congrArg (fun x => x.getLsbD (i - 8)) h
    simp only [highByte, BitVec.getLsbD_extractLsb', show i - 8 < 8 by omega,
      show 8 + (i - 8) = i by omega] at this
    simpa using this.symm

@[simp] theorem lowHalf_append (x y : BitVec 16) : lowHalf (x ++ y) = y := by
  ext i hi
  simp only [lowHalf, BitVec.getElem_extractLsb']
  rw [BitVec.getLsbD_append, if_pos (by omega)]
  simp [BitVec.getLsbD_eq_getElem hi]

@[simp] theorem highHalf_append (x y : BitVec 16) : highHalf (x ++ y) = x := by
  ext i hi
  simp only [highHalf, BitVec.getElem_extractLsb']
  rw [BitVec.getLsbD_append, if_neg (by omega)]
  simp [show 16 + i - 16 = i by omega, BitVec.getLsbD_eq_getElem hi]

/-- A field is read back from the number it holds. -/
@[simp] theorem indexField_toNat (v : BitVec 16) : indexField v.toNat = v := by simp [indexField]

@[simp] theorem refWord_toNat (w : Word) : refWord w.toNat = w := by simp [refWord]

theorem toNat_indexField {v : Nat} (h : indexEncodable v = true) : (indexField v).toNat = v := by
  rw [indexField, BitVec.toNat_ofNat, Nat.mod_eq_of_lt (of_decide_eq_true h)]

theorem toNat_refWord {r : Nat} (h : refEncodable r = true) : (refWord r).toNat = r := by
  rw [refWord, BitVec.toNat_ofNat, Nat.mod_eq_of_lt (of_decide_eq_true h)]

@[simp] theorem indexEncodable_toNat (v : BitVec 16) : indexEncodable v.toNat = true :=
  decide_eq_true v.isLt

@[simp] theorem refEncodable_toNat (w : Word) : refEncodable w.toNat = true := decide_eq_true w.isLt

/-- A word whose upper half is zero is its lower half. -/
theorem append_lowHalf {w : Word} (h : highHalf w = 0) : (0 : BitVec 16) ++ lowHalf w = w := by
  refine BitVec.eq_of_getLsbD_eq fun i hi => ?_
  rw [BitVec.getLsbD_append]
  simp only [lowHalf, BitVec.getLsbD_extractLsb']
  split
  · simp [*]
  · have := congrArg (fun x => x.getLsbD (i - 16)) h
    simp only [highHalf, BitVec.getLsbD_extractLsb', show i - 16 < 16 by omega,
      show 16 + (i - 16) = i by omega] at this
    simpa using this.symm

@[simp] theorem channelOfIndex_index (c : Channel) : channelOfIndex c.index = some c := by
  cases c <;> decide

theorem index_of_channelOfIndex {a : BitVec 8} {c : Channel} (h : channelOfIndex a = some c) :
    c.index = a := by
  unfold channelOfIndex at h
  split at h
  · cases h; simp [Channel.index, *]
  · split at h
    · cases h; simp [Channel.index, *]
    · split at h
      · cases h; simp [Channel.index, *]
      · cases h

@[simp] theorem flagsOfByte_byte (f : InitFlags) : flagsOfByte f.byte = f := by
  obtain ⟨o, w, p, t, r, c, x⟩ := f
  revert o w p t r c x
  decide

theorem byte_flagsOfByte (v : Byte) : (flagsOfByte v).byte = v := by
  revert v
  decide

end Sys2Proof
end

