-- ==== Sys2Proof/Laws/State.lean ====
section
/-!
SUPPORT. One lemma per field per update of `State`, true by rfl, so that no proof unfolds a record
update; and the per-channel bank's read-after-write laws.
-/

namespace Sys2Proof

namespace PerChannel

@[simp] theorem get_set_same {α : Type} (p : PerChannel α) (c : Channel) (a : α) :
    (p.set c a).get c = a := by cases c <;> rfl

theorem get_set_ne {α : Type} (p : PerChannel α) (c d : Channel) (a : α) (h : d ≠ c) :
    (p.set c a).get d = p.get d := by cases c <;> cases d <;> first | rfl | exact absurd rfl h

theorem get_set {α : Type} (p : PerChannel α) (c d : Channel) (a : α) :
    (p.set c a).get d = if d = c then a else p.get d := by
  cases c <;> cases d <;> rfl

@[simp] theorem set_set_same {α : Type} (p : PerChannel α) (c : Channel) (a b : α) :
    (p.set c a).set c b = p.set c b := by cases c <;> rfl

@[simp] theorem set_get_same {α : Type} (p : PerChannel α) (c : Channel) : p.set c (p.get c) = p := by
  cases c <;> rfl

@[simp] theorem get_all {α : Type} (a : α) (c : Channel) : (PerChannel.all a).get c = a := by
  cases c <;> rfl

end PerChannel

namespace Machine

variable (s : State)

@[simp] theorem State.modUart_cfg (c : Channel) (f : Uart → Uart) : (s.modUart c f).cfg = s.cfg := rfl
@[simp] theorem State.modUart_bus (c : Channel) (f : Uart → Uart) : (s.modUart c f).bus = s.bus := rfl
@[simp] theorem State.modUart_lcd (c : Channel) (f : Uart → Uart) : (s.modUart c f).lcd = s.lcd := rfl
@[simp] theorem State.modUart_uarts (c : Channel) (f : Uart → Uart) : (s.modUart c f).uarts = s.uarts.set c (f (s.uart c)) := rfl
@[simp] theorem State.modUart_mem (c : Channel) (f : Uart → Uart) : (s.modUart c f).mem = s.mem := rfl
@[simp] theorem State.modUart_cbLog (c : Channel) (f : Uart → Uart) : (s.modUart c f).cbLog = s.cbLog := rfl
@[simp] theorem State.modUart_fgWait (c : Channel) (f : Uart → Uart) : (s.modUart c f).fgWait = s.fgWait := rfl
@[simp] theorem State.modUart_responses (c : Channel) (f : Uart → Uart) : (s.modUart c f).responses = s.responses := rfl
@[simp] theorem State.modUart_script (c : Channel) (f : Uart → Uart) : (s.modUart c f).script = s.script := rfl
@[simp] theorem State.modUart_pc (c : Channel) (f : Uart → Uart) : (s.modUart c f).pc = s.pc := rfl

@[simp] theorem State.setBus_cfg (b : Bus) : (s.setBus b).cfg = s.cfg := rfl
@[simp] theorem State.setBus_bus (b : Bus) : (s.setBus b).bus = b := rfl
@[simp] theorem State.setBus_lcd (b : Bus) : (s.setBus b).lcd = s.lcd := rfl
@[simp] theorem State.setBus_uarts (b : Bus) : (s.setBus b).uarts = s.uarts := rfl
@[simp] theorem State.setBus_mem (b : Bus) : (s.setBus b).mem = s.mem := rfl
@[simp] theorem State.setBus_cbLog (b : Bus) : (s.setBus b).cbLog = s.cbLog := rfl
@[simp] theorem State.setBus_fgWait (b : Bus) : (s.setBus b).fgWait = s.fgWait := rfl
@[simp] theorem State.setBus_responses (b : Bus) : (s.setBus b).responses = s.responses := rfl
@[simp] theorem State.setBus_script (b : Bus) : (s.setBus b).script = s.script := rfl
@[simp] theorem State.setBus_pc (b : Bus) : (s.setBus b).pc = s.pc := rfl

@[simp] theorem State.setLcd_cfg (l : Lcd) : (s.setLcd l).cfg = s.cfg := rfl
@[simp] theorem State.setLcd_bus (l : Lcd) : (s.setLcd l).bus = s.bus := rfl
@[simp] theorem State.setLcd_lcd (l : Lcd) : (s.setLcd l).lcd = l := rfl
@[simp] theorem State.setLcd_uarts (l : Lcd) : (s.setLcd l).uarts = s.uarts := rfl
@[simp] theorem State.setLcd_mem (l : Lcd) : (s.setLcd l).mem = s.mem := rfl
@[simp] theorem State.setLcd_cbLog (l : Lcd) : (s.setLcd l).cbLog = s.cbLog := rfl
@[simp] theorem State.setLcd_fgWait (l : Lcd) : (s.setLcd l).fgWait = s.fgWait := rfl
@[simp] theorem State.setLcd_responses (l : Lcd) : (s.setLcd l).responses = s.responses := rfl
@[simp] theorem State.setLcd_script (l : Lcd) : (s.setLcd l).script = s.script := rfl
@[simp] theorem State.setLcd_pc (l : Lcd) : (s.setLcd l).pc = s.pc := rfl

@[simp] theorem State.setMem_cfg (m : Memory) : (s.setMem m).cfg = s.cfg := rfl
@[simp] theorem State.setMem_bus (m : Memory) : (s.setMem m).bus = s.bus := rfl
@[simp] theorem State.setMem_lcd (m : Memory) : (s.setMem m).lcd = s.lcd := rfl
@[simp] theorem State.setMem_uarts (m : Memory) : (s.setMem m).uarts = s.uarts := rfl
@[simp] theorem State.setMem_mem (m : Memory) : (s.setMem m).mem = m := rfl
@[simp] theorem State.setMem_cbLog (m : Memory) : (s.setMem m).cbLog = s.cbLog := rfl
@[simp] theorem State.setMem_fgWait (m : Memory) : (s.setMem m).fgWait = s.fgWait := rfl
@[simp] theorem State.setMem_responses (m : Memory) : (s.setMem m).responses = s.responses := rfl
@[simp] theorem State.setMem_script (m : Memory) : (s.setMem m).script = s.script := rfl
@[simp] theorem State.setMem_pc (m : Memory) : (s.setMem m).pc = s.pc := rfl

@[simp] theorem State.setFgWait_cfg (w : FgWait) : (s.setFgWait w).cfg = s.cfg := rfl
@[simp] theorem State.setFgWait_bus (w : FgWait) : (s.setFgWait w).bus = s.bus := rfl
@[simp] theorem State.setFgWait_lcd (w : FgWait) : (s.setFgWait w).lcd = s.lcd := rfl
@[simp] theorem State.setFgWait_uarts (w : FgWait) : (s.setFgWait w).uarts = s.uarts := rfl
@[simp] theorem State.setFgWait_mem (w : FgWait) : (s.setFgWait w).mem = s.mem := rfl
@[simp] theorem State.setFgWait_cbLog (w : FgWait) : (s.setFgWait w).cbLog = s.cbLog := rfl
@[simp] theorem State.setFgWait_fgWait (w : FgWait) : (s.setFgWait w).fgWait = w := rfl
@[simp] theorem State.setFgWait_responses (w : FgWait) : (s.setFgWait w).responses = s.responses := rfl
@[simp] theorem State.setFgWait_script (w : FgWait) : (s.setFgWait w).script = s.script := rfl
@[simp] theorem State.setFgWait_pc (w : FgWait) : (s.setFgWait w).pc = s.pc := rfl

@[simp] theorem State.logCallback_cfg (x : CbEntry) : (s.logCallback x).cfg = s.cfg := rfl
@[simp] theorem State.logCallback_bus (x : CbEntry) : (s.logCallback x).bus = s.bus := rfl
@[simp] theorem State.logCallback_lcd (x : CbEntry) : (s.logCallback x).lcd = s.lcd := rfl
@[simp] theorem State.logCallback_uarts (x : CbEntry) : (s.logCallback x).uarts = s.uarts := rfl
@[simp] theorem State.logCallback_mem (x : CbEntry) : (s.logCallback x).mem = s.mem := rfl
@[simp] theorem State.logCallback_cbLog (x : CbEntry) : (s.logCallback x).cbLog = s.cbLog ++ [x] := rfl
@[simp] theorem State.logCallback_fgWait (x : CbEntry) : (s.logCallback x).fgWait = s.fgWait := rfl
@[simp] theorem State.logCallback_responses (x : CbEntry) : (s.logCallback x).responses = s.responses := rfl
@[simp] theorem State.logCallback_script (x : CbEntry) : (s.logCallback x).script = s.script := rfl
@[simp] theorem State.logCallback_pc (x : CbEntry) : (s.logCallback x).pc = s.pc := rfl

@[simp] theorem State.respond_cfg (r : Response) : (s.respond r).cfg = s.cfg := rfl
@[simp] theorem State.respond_bus (r : Response) : (s.respond r).bus = s.bus := rfl
@[simp] theorem State.respond_lcd (r : Response) : (s.respond r).lcd = s.lcd := rfl
@[simp] theorem State.respond_uarts (r : Response) : (s.respond r).uarts = s.uarts := rfl
@[simp] theorem State.respond_mem (r : Response) : (s.respond r).mem = s.mem := rfl
@[simp] theorem State.respond_cbLog (r : Response) : (s.respond r).cbLog = s.cbLog := rfl
@[simp] theorem State.respond_fgWait (r : Response) : (s.respond r).fgWait = s.fgWait := rfl
@[simp] theorem State.respond_responses (r : Response) : (s.respond r).responses = s.responses ++ [r] := rfl
@[simp] theorem State.respond_script (r : Response) : (s.respond r).script = s.script := rfl
@[simp] theorem State.respond_pc (r : Response) : (s.respond r).pc = s.pc := rfl

@[simp] theorem State.advance_cfg (n : Nat) : (s.advance n).cfg = s.cfg := rfl
@[simp] theorem State.advance_bus (n : Nat) : (s.advance n).bus = s.bus := rfl
@[simp] theorem State.advance_lcd (n : Nat) : (s.advance n).lcd = s.lcd := rfl
@[simp] theorem State.advance_uarts (n : Nat) : (s.advance n).uarts = s.uarts := rfl
@[simp] theorem State.advance_mem (n : Nat) : (s.advance n).mem = s.mem := rfl
@[simp] theorem State.advance_cbLog (n : Nat) : (s.advance n).cbLog = s.cbLog := rfl
@[simp] theorem State.advance_fgWait (n : Nat) : (s.advance n).fgWait = s.fgWait := rfl
@[simp] theorem State.advance_responses (n : Nat) : (s.advance n).responses = s.responses := rfl
@[simp] theorem State.advance_script (n : Nat) : (s.advance n).script = s.script := rfl
@[simp] theorem State.advance_pc (n : Nat) : (s.advance n).pc = s.pc + n := rfl

@[simp] theorem State.setBus_uart (b : Bus) (d : Channel) : (s.setBus b).uart d = s.uart d := rfl
@[simp] theorem State.setLcd_uart (l : Lcd) (d : Channel) : (s.setLcd l).uart d = s.uart d := rfl
@[simp] theorem State.setMem_uart (m : Memory) (d : Channel) : (s.setMem m).uart d = s.uart d := rfl
@[simp] theorem State.setFgWait_uart (w : FgWait) (d : Channel) : (s.setFgWait w).uart d = s.uart d := rfl
@[simp] theorem State.logCallback_uart (x : CbEntry) (d : Channel) : (s.logCallback x).uart d = s.uart d := rfl
@[simp] theorem State.respond_uart (r : Response) (d : Channel) : (s.respond r).uart d = s.uart d := rfl
@[simp] theorem State.advance_uart (n : Nat) (d : Channel) : (s.advance n).uart d = s.uart d := rfl

@[simp] theorem State.modUart_uart_same (c : Channel) (f : Uart → Uart) :
    (s.modUart c f).uart c = f (s.uart c) := PerChannel.get_set_same _ _ _

theorem State.modUart_uart_ne (c d : Channel) (f : Uart → Uart) (h : d ≠ c) :
    (s.modUart c f).uart d = s.uart d := PerChannel.get_set_ne _ _ _ _ h

theorem State.modUart_uart (c d : Channel) (f : Uart → Uart) :
    (s.modUart c f).uart d = if d = c then f (s.uart c) else s.uart d := PerChannel.get_set _ _ _ _

@[simp] theorem State.modUart_modUart (c : Channel) (f g : Uart → Uart) :
    (s.modUart c f).modUart c g = s.modUart c fun u => g (f u) := by
  cases c <;> rfl

theorem State.uarts_get (c : Channel) : s.uarts.get c = s.uart c := rfl

/-- A state is its ten parts. -/
theorem State.ext_parts {s t : State} (hcfg : t.cfg = s.cfg) (hbus : t.bus = s.bus)
    (hlcd : t.lcd = s.lcd) (huarts : t.uarts = s.uarts) (hmem : t.mem = s.mem)
    (hcb : t.cbLog = s.cbLog) (hfg : t.fgWait = s.fgWait) (hresp : t.responses = s.responses)
    (hscript : t.script = s.script) (hpc : t.pc = s.pc) : t = s := by
  cases s; cases t; simp_all

end Machine

end Sys2Proof
end

