-- ==== Sys2Proof/Laws/Ops.lean ====
section
/-!
SUPPORT. For each shared operation of Machine/Ops.lean and Machine/Operands.lean, once, everything it
can do: proofs cite these lemmas instead of unfolding the operation.
-/

namespace Sys2Proof.Machine

/-! ### Outcomes -/

section Outcomes

variable {α β : Type}

@[simp] theorem andThen_next (a : α) (k : α → Result β) : andThen (.next a) k = k a := rfl

@[simp] theorem andThen_fault (f : Fault) (k : α → Result β) :
    andThen (.fault f) k = .fault f := rfl

@[simp] theorem andThen_refused (r : Refusal) (k : α → Result β) :
    andThen (.refused r) k = .refused r := rfl

theorem andThen_eq_next {o : Result α} {k : α → Result β} {b : β} :
    andThen o k = .next b ↔ ∃ a, o = .next a ∧ k a = .next b := by
  cases o <;> simp

theorem andThen_eq_fault {o : Result α} {k : α → Result β} {f : Fault} :
    andThen o k = .fault f ↔ o = .fault f ∨ ∃ a, o = .next a ∧ k a = .fault f := by
  cases o <;> simp

theorem andThen_eq_refused {o : Result α} {k : α → Result β} {r : Refusal} :
    andThen o k = .refused r ↔ o = .refused r ∨ ∃ a, o = .next a ∧ k a = .refused r := by
  cases o <;> simp

@[simp] theorem orBounds_some (a : α) : orBounds (some a) = .next a := rfl

@[simp] theorem orBounds_none : orBounds (none : Option α) = .fault .bufferBounds := rfl

theorem orBounds_eq_next {x : Option α} {a : α} : orBounds x = .next a ↔ x = some a := by
  cases x <;> simp

theorem orBounds_eq_fault {x : Option α} {f : Fault} :
    orBounds x = .fault f ↔ x = none ∧ f = .bufferBounds := by
  cases x <;> simp [eq_comm]

theorem orBounds_ne_refused {x : Option α} {r : Refusal} : orBounds x ≠ .refused r := by
  cases x <;> simp

end Outcomes

/-! ### Responses -/

@[simp] theorem deliver_next (n : Nat) (t : State) (r : Response) :
    deliver n (.next (t, r)) = .next ((t.respond r).advance n) := rfl

@[simp] theorem deliver_fault (n : Nat) (f : Fault) : deliver n (.fault f) = .fault f := rfl

@[simp] theorem deliver_refused (n : Nat) (r : Refusal) : deliver n (.refused r) = .refused r := rfl

theorem deliver_eq_next {n : Nat} {r : Reply} {t : State} :
    deliver n r = .next t ↔ ∃ s' resp, r = .next (s', resp) ∧ t = (s'.respond resp).advance n := by
  rcases r with ⟨s', resp⟩ | f | e <;> simp [eq_comm]

@[simp] theorem codeOnly_code (c : ResultCode) : (codeOnly c).code = c := rfl

@[simp] theorem codeOnly_data (c : ResultCode) : (codeOnly c).data = 0 := rfl

/-! ### Widths -/

theorem indexEnd_pos (cfg : Cfg) : 0 < cfg.indexEnd := Nat.two_pow_pos _

theorem memEnd_pos (cfg : Cfg) : 0 < cfg.memEnd := Nat.two_pow_pos _

theorem fitIndex_lt (cfg : Cfg) (v : Nat) : fitIndex cfg v < cfg.indexEnd :=
  Nat.mod_lt _ (indexEnd_pos cfg)

/-- An operand that fits its width is taken as it stands. -/
theorem fitIndex_of_lt {cfg : Cfg} {v : Nat} (h : v < cfg.indexEnd) : fitIndex cfg v = v :=
  Nat.mod_eq_of_lt h

theorem fitRef_lt (cfg : Cfg) (r : Nat) : fitRef cfg r < cfg.memEnd := Nat.mod_lt _ (memEnd_pos cfg)

/-- A reference that fits its width is taken as it stands. -/
theorem fitRef_of_lt {cfg : Cfg} {r : Nat} (h : r < cfg.memEnd) : fitRef cfg r = r :=
  Nat.mod_eq_of_lt h

theorem incIndex_lt (cfg : Cfg) (v : Nat) : incIndex cfg v < cfg.indexEnd := fitIndex_lt cfg _

/-- An index below a length that fits the width does not wrap. -/
theorem incIndex_of_lt {cfg : Cfg} {v len : Nat} (h : v < len) (hl : len < cfg.indexEnd) :
    incIndex cfg v = v + 1 := fitIndex_of_lt (by omega)

/-! ### Buffer memory -/

@[simp] theorem memRead_nil (a : Nat) : memRead [] a = none := rfl

theorem memRead_cons (x : Host.Cell) (m : Memory) (a : Nat) :
    memRead (x :: m) a = if x.1 = a then some x.2 else memRead m a := rfl

@[simp] theorem memRead_memWrite_same (m : Memory) (a : Nat) (v : Byte) :
    memRead (memWrite m a v) a = some v := by
  induction m with
  | nil => simp [memWrite, memRead]
  | cons x m ih =>
    unfold memWrite
    split
    · simp [memRead]
    · split
      · simp [memRead]
      · rename_i h
        simp [memRead, ih, Ne.symm h]

theorem memRead_memWrite_ne (m : Memory) (a b : Nat) (v : Byte) (h : b ≠ a) :
    memRead (memWrite m a v) b = memRead m b := by
  induction m with
  | nil => simp [memWrite, memRead, Ne.symm h]
  | cons x m ih =>
    unfold memWrite
    split
    · simp [memRead, Ne.symm h]
    · split
      · rename_i _ e
        subst e
        simp [memRead, Ne.symm h]
      · simp only [memRead, ih]

theorem memRead_memWrite (m : Memory) (a b : Nat) (v : Byte) :
    memRead (memWrite m a v) b = if b = a then some v else memRead m b := by
  by_cases h : b = a
  · simp [h]
  · simp [h, memRead_memWrite_ne m a b v h]

theorem mem_memWrite {m : Memory} {a : Nat} {v : Byte} {x : Host.Cell}
    (h : x ∈ memWrite m a v) : x = (a, v) ∨ x ∈ m := by
  induction m with
  | nil => simpa [memWrite] using h
  | cons y m ih =>
    unfold memWrite at h
    split at h
    · simpa using h
    · split at h
      · rcases List.mem_cons.mp h with h | h
        · exact .inl h
        · exact .inr (List.mem_cons_of_mem _ h)
      · rcases List.mem_cons.mp h with h | h
        · exact .inr (h ▸ List.mem_cons_self)
        · exact (ih h).imp_right (List.mem_cons_of_mem _)

/-- A store to an address of MEM keeps the canonical form. -/
theorem memWrite_wf {cfg : Cfg} {m : Memory} (a : Nat) (v : Byte) (hm : memWf cfg m)
    (ha : a < cfg.memEnd) : memWf cfg (memWrite m a v) := by
  refine ⟨?_, fun x hx => ?_⟩
  · obtain ⟨hp, -⟩ := hm
    induction m with
    | nil => simp [memWrite]
    | cons y m ih =>
      rw [List.pairwise_cons] at hp
      unfold memWrite
      split
      · rename_i hlt
        refine List.pairwise_cons.mpr ⟨fun z hz => ?_, List.pairwise_cons.mpr hp⟩
        rcases List.mem_cons.mp hz with rfl | hz
        · exact hlt
        · exact hlt.trans (hp.1 z hz)
      · split
        · rename_i _ e
          refine List.pairwise_cons.mpr ⟨fun z hz => ?_, hp.2⟩
          simpa [e] using hp.1 z hz
        · rename_i hlt hne
          refine List.pairwise_cons.mpr ⟨fun z hz => ?_, ih hp.2⟩
          rcases mem_memWrite hz with rfl | hz
          · simp only; omega
          · exact hp.1 z hz
  · rcases mem_memWrite hx with rfl | hx
    · exact ha
    · exact hm.2 x hx

theorem elemAddr_eq_some {cfg : Cfg} {r : Nat} {k : Nat} {a : Nat} :
    elemAddr cfg r k = some a ↔
      r ≠ cfg.nullRef ∧ r + k < cfg.memEnd ∧ a = r + k := by
  unfold elemAddr
  split
  · simp_all
  · split <;> simp_all [eq_comm]

theorem elemAddr_lt {cfg : Cfg} {r : Nat} {k : Nat} {a : Nat} (h : elemAddr cfg r k = some a) :
    a < cfg.memEnd := by
  obtain ⟨-, hlt, rfl⟩ := elemAddr_eq_some.mp h
  exact hlt

theorem bufRead_eq_some {cfg : Cfg} {m : Memory} {r : Nat} {k len : Nat} {b : Byte} :
    bufRead cfg m r k len = some b ↔
      k < len ∧ r ≠ cfg.nullRef ∧ r + k < cfg.memEnd ∧
        memRead m (r + k) = some b := by
  unfold bufRead
  split
  · rename_i h
    simp only [Option.bind_eq_some_iff, elemAddr_eq_some]
    constructor
    · rintro ⟨a, ⟨h1, h2, rfl⟩, h3⟩
      exact ⟨h, h1, h2, h3⟩
    · rintro ⟨-, h1, h2, h3⟩
      exact ⟨_, ⟨h1, h2, rfl⟩, h3⟩
  · rename_i h
    simp [h]

theorem bufWrite_eq_some {cfg : Cfg} {m m' : Memory} {r : Nat} {k len : Nat} {v : Byte} :
    bufWrite cfg m r k len v = some m' ↔
      k < len ∧ r ≠ cfg.nullRef ∧ r + k < cfg.memEnd ∧
        m' = memWrite m (r + k) v := by
  unfold bufWrite
  split
  · rename_i h
    simp only [Option.map_eq_some_iff, elemAddr_eq_some]
    constructor
    · rintro ⟨a, ⟨h1, h2, rfl⟩, rfl⟩
      exact ⟨h, h1, h2, rfl⟩
    · rintro ⟨-, h1, h2, rfl⟩
      exact ⟨_, ⟨h1, h2, rfl⟩, rfl⟩
  · rename_i h
    simp [h]

/-- A store through a buffer keeps the canonical form. -/
theorem bufWrite_wf {cfg : Cfg} {m m' : Memory} {r : Nat} {k len : Nat} {v : Byte}
    (hm : memWf cfg m) (h : bufWrite cfg m r k len v = some m') : memWf cfg m' := by
  obtain ⟨-, -, hlt, rfl⟩ := bufWrite_eq_some.mp h
  exact memWrite_wf _ _ hm hlt

/-- Reset lists no byte, so its memory has the canonical form. -/
theorem reset_memWf : memWf State.reset.cfg State.reset.mem := by
  exact ⟨List.Pairwise.nil, by simp [State.reset, State.resetWith]⟩

/-! ### The position check -/

theorem validPosition_eq_true {row col : Byte} :
    validPosition row col = true ↔ row.toNat ≤ 1 ∧ col.toNat ≤ 15 := by
  unfold validPosition
  rw [Bool.and_eq_true, decide_eq_true_iff, decide_eq_true_iff, Config.numRows, Config.numCols]
  omega

/-! ### The data register and the interrupt -/

theorem drWrite_eq_next {c : Channel} {b : Byte} {s t : State} :
    drWrite c b s = .next t ↔ (s.uart c).txInflight = false ∧ t = s.modUart c (sentByte b) := by
  unfold drWrite
  split <;> rename_i h
  · simp [h]
  · simp [h, eq_comm (a := t)]

theorem drWrite_eq_refused {c : Channel} {b : Byte} {s : State} {r : Refusal} :
    drWrite c b s = .refused r ↔ (s.uart c).txInflight = true ∧ r = .txOverwrite := by
  unfold drWrite
  split <;> rename_i h
  · simp [h, eq_comm (a := r)]
  · simp [h]

theorem drWrite_ne_fault {c : Channel} {b : Byte} {s : State} {f : Fault} :
    drWrite c b s ≠ .fault f := by
  unfold drWrite
  split <;> simp

@[simp] theorem drRead_fst (c : Channel) (s : State) : (drRead c s).1 = (s.uart c).rdr := rfl

@[simp] theorem drRead_snd (c : Channel) (s : State) :
    (drRead c s).2 = s.modUart c (afterDrRead s.cfg.drReadClearsRxne) := rfl

theorem takeInterrupt_eq_next {c : Channel} {h : State → Result State} {s t : State} :
    takeInterrupt c h s = .next t ↔
      irqPending (s.cfg.nvicEn.get c) (s.uart c) = true ∧ h s = .next t := by
  unfold takeInterrupt
  split <;> simp_all

end Sys2Proof.Machine
end

