-- ==== Sys2Proof/Laws/Parts.lean ====
section
/-!
SUPPORT. One lemma per field per update of a channel (`Uart`) and of unit STB (`Bus`), true by rfl.
-/

namespace Sys2Proof.Machine

variable (u : Uart)

@[simp] theorem clearTc_ch : (clearTc u).ch = u.ch := rfl
@[simp] theorem clearTc_sr : (clearTc u).sr = { u.sr with tc := false } := rfl
@[simp] theorem clearTc_brr : (clearTc u).brr = u.brr := rfl
@[simp] theorem clearTc_cr : (clearTc u).cr = u.cr := rfl
@[simp] theorem clearTc_rdr : (clearTc u).rdr = u.rdr := rfl
@[simp] theorem clearTc_txInflight : (clearTc u).txInflight = u.txInflight := rfl
@[simp] theorem clearTc_ieDesired : (clearTc u).ieDesired = u.ieDesired := rfl
@[simp] theorem clearTc_cbTx : (clearTc u).cbTx = u.cbTx := rfl
@[simp] theorem clearTc_cbRx : (clearTc u).cbRx = u.cbRx := rfl
@[simp] theorem clearTc_txLog : (clearTc u).txLog = u.txLog := rfl

@[simp] theorem clearRxne_ch : (clearRxne u).ch = u.ch := rfl
@[simp] theorem clearRxne_sr : (clearRxne u).sr = { u.sr with rxne := false } := rfl
@[simp] theorem clearRxne_brr : (clearRxne u).brr = u.brr := rfl
@[simp] theorem clearRxne_cr : (clearRxne u).cr = u.cr := rfl
@[simp] theorem clearRxne_rdr : (clearRxne u).rdr = u.rdr := rfl
@[simp] theorem clearRxne_txInflight : (clearRxne u).txInflight = u.txInflight := rfl
@[simp] theorem clearRxne_ieDesired : (clearRxne u).ieDesired = u.ieDesired := rfl
@[simp] theorem clearRxne_cbTx : (clearRxne u).cbTx = u.cbTx := rfl
@[simp] theorem clearRxne_cbRx : (clearRxne u).cbRx = u.cbRx := rfl
@[simp] theorem clearRxne_txLog : (clearRxne u).txLog = u.txLog := rfl

@[simp] theorem armTx_ch : (armTx u).ch = u.ch := rfl
@[simp] theorem armTx_sr : (armTx u).sr = u.sr := rfl
@[simp] theorem armTx_brr : (armTx u).brr = u.brr := rfl
@[simp] theorem armTx_cr : (armTx u).cr = { u.cr with tcie := u.cr.tcie || u.ieDesired.tc } := rfl
@[simp] theorem armTx_rdr : (armTx u).rdr = u.rdr := rfl
@[simp] theorem armTx_txInflight : (armTx u).txInflight = u.txInflight := rfl
@[simp] theorem armTx_ieDesired : (armTx u).ieDesired = u.ieDesired := rfl
@[simp] theorem armTx_cbTx : (armTx u).cbTx = u.cbTx := rfl
@[simp] theorem armTx_cbRx : (armTx u).cbRx = u.cbRx := rfl
@[simp] theorem armTx_txLog : (armTx u).txLog = u.txLog := rfl

@[simp] theorem armRx_ch : (armRx u).ch = u.ch := rfl
@[simp] theorem armRx_sr : (armRx u).sr = u.sr := rfl
@[simp] theorem armRx_brr : (armRx u).brr = u.brr := rfl
@[simp] theorem armRx_cr :
    (armRx u).cr =
      { u.cr with rxneie := u.cr.rxneie || u.ieDesired.rxne } := rfl
@[simp] theorem armRx_rdr : (armRx u).rdr = u.rdr := rfl
@[simp] theorem armRx_txInflight : (armRx u).txInflight = u.txInflight := rfl
@[simp] theorem armRx_ieDesired : (armRx u).ieDesired = u.ieDesired := rfl
@[simp] theorem armRx_cbTx : (armRx u).cbTx = u.cbTx := rfl
@[simp] theorem armRx_cbRx : (armRx u).cbRx = u.cbRx := rfl
@[simp] theorem armRx_txLog : (armRx u).txLog = u.txLog := rfl

@[simp] theorem disarmTx_ch (x : Bool) : (disarmTx x u).ch = u.ch := rfl
@[simp] theorem disarmTx_sr (x : Bool) : (disarmTx x u).sr = u.sr := rfl
@[simp] theorem disarmTx_brr (x : Bool) : (disarmTx x u).brr = u.brr := rfl
@[simp] theorem disarmTx_cr (x : Bool) :
    (disarmTx x u).cr =
      { u.cr with tcie := u.cr.tcie && !x } := rfl
@[simp] theorem disarmTx_rdr (x : Bool) : (disarmTx x u).rdr = u.rdr := rfl
@[simp] theorem disarmTx_txInflight (x : Bool) : (disarmTx x u).txInflight = u.txInflight := rfl
@[simp] theorem disarmTx_ieDesired (x : Bool) : (disarmTx x u).ieDesired = u.ieDesired := rfl
@[simp] theorem disarmTx_cbTx (x : Bool) : (disarmTx x u).cbTx = u.cbTx := rfl
@[simp] theorem disarmTx_cbRx (x : Bool) : (disarmTx x u).cbRx = u.cbRx := rfl
@[simp] theorem disarmTx_txLog (x : Bool) : (disarmTx x u).txLog = u.txLog := rfl

@[simp] theorem disarmRx_ch (x : Bool) : (disarmRx x u).ch = u.ch := rfl
@[simp] theorem disarmRx_sr (x : Bool) : (disarmRx x u).sr = u.sr := rfl
@[simp] theorem disarmRx_brr (x : Bool) : (disarmRx x u).brr = u.brr := rfl
@[simp] theorem disarmRx_cr (x : Bool) :
    (disarmRx x u).cr =
      { u.cr with rxneie := u.cr.rxneie && !x } := rfl
@[simp] theorem disarmRx_rdr (x : Bool) : (disarmRx x u).rdr = u.rdr := rfl
@[simp] theorem disarmRx_txInflight (x : Bool) : (disarmRx x u).txInflight = u.txInflight := rfl
@[simp] theorem disarmRx_ieDesired (x : Bool) : (disarmRx x u).ieDesired = u.ieDesired := rfl
@[simp] theorem disarmRx_cbTx (x : Bool) : (disarmRx x u).cbTx = u.cbTx := rfl
@[simp] theorem disarmRx_cbRx (x : Bool) : (disarmRx x u).cbRx = u.cbRx := rfl
@[simp] theorem disarmRx_txLog (x : Bool) : (disarmRx x u).txLog = u.txLog := rfl

@[simp] theorem sentByte_ch (b : Byte) : (sentByte b u).ch = u.ch := rfl
@[simp] theorem sentByte_sr (b : Byte) : (sentByte b u).sr = u.sr := rfl
@[simp] theorem sentByte_brr (b : Byte) : (sentByte b u).brr = u.brr := rfl
@[simp] theorem sentByte_cr (b : Byte) : (sentByte b u).cr = u.cr := rfl
@[simp] theorem sentByte_rdr (b : Byte) : (sentByte b u).rdr = u.rdr := rfl
@[simp] theorem sentByte_txInflight (b : Byte) : (sentByte b u).txInflight = true := rfl
@[simp] theorem sentByte_ieDesired (b : Byte) : (sentByte b u).ieDesired = u.ieDesired := rfl
@[simp] theorem sentByte_cbTx (b : Byte) : (sentByte b u).cbTx = u.cbTx := rfl
@[simp] theorem sentByte_cbRx (b : Byte) : (sentByte b u).cbRx = u.cbRx := rfl
@[simp] theorem sentByte_txLog (b : Byte) : (sentByte b u).txLog = u.txLog ++ [b] := rfl

@[simp] theorem afterDrRead_ch (x : Bool) : (afterDrRead x u).ch = u.ch := rfl
@[simp] theorem afterDrRead_sr (x : Bool) :
    (afterDrRead x u).sr =
      { u.sr with rxne := u.sr.rxne && !x } := rfl
@[simp] theorem afterDrRead_brr (x : Bool) : (afterDrRead x u).brr = u.brr := rfl
@[simp] theorem afterDrRead_cr (x : Bool) : (afterDrRead x u).cr = u.cr := rfl
@[simp] theorem afterDrRead_rdr (x : Bool) : (afterDrRead x u).rdr = u.rdr := rfl
@[simp] theorem afterDrRead_txInflight (x : Bool) :
    (afterDrRead x u).txInflight =
      u.txInflight := rfl
@[simp] theorem afterDrRead_ieDesired (x : Bool) : (afterDrRead x u).ieDesired = u.ieDesired := rfl
@[simp] theorem afterDrRead_cbTx (x : Bool) : (afterDrRead x u).cbTx = u.cbTx := rfl
@[simp] theorem afterDrRead_cbRx (x : Bool) : (afterDrRead x u).cbRx = u.cbRx := rfl
@[simp] theorem afterDrRead_txLog (x : Bool) : (afterDrRead x u).txLog = u.txLog := rfl

@[simp] theorem startTx_ch (r : Nat) (n : Nat) :
    (startTx r n u).ch =
      { u.ch with txBusy := true, txIndex := 1, txLen := n, txBuffer := r } := rfl
@[simp] theorem startTx_sr (r : Nat) (n : Nat) : (startTx r n u).sr = u.sr := rfl
@[simp] theorem startTx_brr (r : Nat) (n : Nat) : (startTx r n u).brr = u.brr := rfl
@[simp] theorem startTx_cr (r : Nat) (n : Nat) :
    (startTx r n u).cr =
      { u.cr with tcie := u.cr.tcie || u.ieDesired.tc } := rfl
@[simp] theorem startTx_rdr (r : Nat) (n : Nat) : (startTx r n u).rdr = u.rdr := rfl
@[simp] theorem startTx_txInflight (r : Nat) (n : Nat) :
    (startTx r n u).txInflight =
      u.txInflight := rfl
@[simp] theorem startTx_ieDesired (r : Nat) (n : Nat) :
    (startTx r n u).ieDesired =
      u.ieDesired := rfl
@[simp] theorem startTx_cbTx (r : Nat) (n : Nat) : (startTx r n u).cbTx = u.cbTx := rfl
@[simp] theorem startTx_cbRx (r : Nat) (n : Nat) : (startTx r n u).cbRx = u.cbRx := rfl
@[simp] theorem startTx_txLog (r : Nat) (n : Nat) : (startTx r n u).txLog = u.txLog := rfl

@[simp] theorem startRx_ch (r : Nat) (k n : Nat) :
    (startRx r k n u).ch =
      { u.ch with rxBusy := true, rxIndex := k, rxLen := n, rxBuffer := r } := rfl
@[simp] theorem startRx_sr (r : Nat) (k n : Nat) : (startRx r k n u).sr = u.sr := rfl
@[simp] theorem startRx_brr (r : Nat) (k n : Nat) : (startRx r k n u).brr = u.brr := rfl
@[simp] theorem startRx_cr (r : Nat) (k n : Nat) :
    (startRx r k n u).cr =
      { u.cr with rxneie := u.cr.rxneie || u.ieDesired.rxne } := rfl
@[simp] theorem startRx_rdr (r : Nat) (k n : Nat) : (startRx r k n u).rdr = u.rdr := rfl
@[simp] theorem startRx_txInflight (r : Nat) (k n : Nat) :
    (startRx r k n u).txInflight =
      u.txInflight := rfl
@[simp] theorem startRx_ieDesired (r : Nat) (k n : Nat) :
    (startRx r k n u).ieDesired =
      u.ieDesired := rfl
@[simp] theorem startRx_cbTx (r : Nat) (k n : Nat) : (startRx r k n u).cbTx = u.cbTx := rfl
@[simp] theorem startRx_cbRx (r : Nat) (k n : Nat) : (startRx r k n u).cbRx = u.cbRx := rfl
@[simp] theorem startRx_txLog (r : Nat) (k n : Nat) : (startRx r k n u).txLog = u.txLog := rfl

@[simp] theorem configure_ch (f : InitFlags) (v : BitVec 16) : (configure f v u).ch = u.ch := rfl
@[simp] theorem configure_sr (f : InitFlags) (v : BitVec 16) : (configure f v u).sr = u.sr := rfl
@[simp] theorem configure_brr (f : InitFlags) (v : BitVec 16) : (configure f v u).brr = v := rfl
@[simp] theorem configure_cr (f : InitFlags) (v : BitVec 16) :
    (configure f v u).cr =
      { u.cr with over8 := f.over8, m := f.wordlen, parity := f.parity, te := f.te, re := f.re, ue := true } := rfl
@[simp] theorem configure_rdr (f : InitFlags) (v : BitVec 16) : (configure f v u).rdr = u.rdr := rfl
@[simp] theorem configure_txInflight (f : InitFlags) (v : BitVec 16) :
    (configure f v u).txInflight =
      u.txInflight := rfl
@[simp] theorem configure_ieDesired (f : InitFlags) (v : BitVec 16) :
    (configure f v u).ieDesired =
      ⟨f.ieTc, f.ieRxne⟩ := rfl
@[simp] theorem configure_cbTx (f : InitFlags) (v : BitVec 16) :
    (configure f v u).cbTx =
      u.cbTx := rfl
@[simp] theorem configure_cbRx (f : InitFlags) (v : BitVec 16) :
    (configure f v u).cbRx =
      u.cbRx := rfl
@[simp] theorem configure_txLog (f : InitFlags) (v : BitVec 16) :
    (configure f v u).txLog =
      u.txLog := rfl

@[simp] theorem finishTx_ch : (finishTx u).ch = { u.ch with txBusy := false, txLen := 0 } := rfl
@[simp] theorem finishTx_sr : (finishTx u).sr = u.sr := rfl
@[simp] theorem finishTx_brr : (finishTx u).brr = u.brr := rfl
@[simp] theorem finishTx_cr : (finishTx u).cr = u.cr := rfl
@[simp] theorem finishTx_rdr : (finishTx u).rdr = u.rdr := rfl
@[simp] theorem finishTx_txInflight : (finishTx u).txInflight = u.txInflight := rfl
@[simp] theorem finishTx_ieDesired : (finishTx u).ieDesired = u.ieDesired := rfl
@[simp] theorem finishTx_cbTx : (finishTx u).cbTx = u.cbTx := rfl
@[simp] theorem finishTx_cbRx : (finishTx u).cbRx = u.cbRx := rfl
@[simp] theorem finishTx_txLog : (finishTx u).txLog = u.txLog := rfl

@[simp] theorem finishRx_ch : (finishRx u).ch = { u.ch with rxBusy := false, rxLen := 0 } := rfl
@[simp] theorem finishRx_sr : (finishRx u).sr = u.sr := rfl
@[simp] theorem finishRx_brr : (finishRx u).brr = u.brr := rfl
@[simp] theorem finishRx_cr : (finishRx u).cr = u.cr := rfl
@[simp] theorem finishRx_rdr : (finishRx u).rdr = u.rdr := rfl
@[simp] theorem finishRx_txInflight : (finishRx u).txInflight = u.txInflight := rfl
@[simp] theorem finishRx_ieDesired : (finishRx u).ieDesired = u.ieDesired := rfl
@[simp] theorem finishRx_cbTx : (finishRx u).cbTx = u.cbTx := rfl
@[simp] theorem finishRx_cbRx : (finishRx u).cbRx = u.cbRx := rfl
@[simp] theorem finishRx_txLog : (finishRx u).txLog = u.txLog := rfl

@[simp] theorem nextTx_ch (cfg : Cfg) :
    (nextTx cfg u).ch = { u.ch with txIndex := incIndex cfg u.ch.txIndex } := rfl
@[simp] theorem nextTx_sr (cfg : Cfg) : (nextTx cfg u).sr = u.sr := rfl
@[simp] theorem nextTx_brr (cfg : Cfg) : (nextTx cfg u).brr = u.brr := rfl
@[simp] theorem nextTx_cr (cfg : Cfg) : (nextTx cfg u).cr = u.cr := rfl
@[simp] theorem nextTx_rdr (cfg : Cfg) : (nextTx cfg u).rdr = u.rdr := rfl
@[simp] theorem nextTx_txInflight (cfg : Cfg) : (nextTx cfg u).txInflight = u.txInflight := rfl
@[simp] theorem nextTx_ieDesired (cfg : Cfg) : (nextTx cfg u).ieDesired = u.ieDesired := rfl
@[simp] theorem nextTx_cbTx (cfg : Cfg) : (nextTx cfg u).cbTx = u.cbTx := rfl
@[simp] theorem nextTx_cbRx (cfg : Cfg) : (nextTx cfg u).cbRx = u.cbRx := rfl
@[simp] theorem nextTx_txLog (cfg : Cfg) : (nextTx cfg u).txLog = u.txLog := rfl

@[simp] theorem nextRx_ch (cfg : Cfg) :
    (nextRx cfg u).ch = { u.ch with rxIndex := incIndex cfg u.ch.rxIndex } := rfl
@[simp] theorem nextRx_sr (cfg : Cfg) : (nextRx cfg u).sr = u.sr := rfl
@[simp] theorem nextRx_brr (cfg : Cfg) : (nextRx cfg u).brr = u.brr := rfl
@[simp] theorem nextRx_cr (cfg : Cfg) : (nextRx cfg u).cr = u.cr := rfl
@[simp] theorem nextRx_rdr (cfg : Cfg) : (nextRx cfg u).rdr = u.rdr := rfl
@[simp] theorem nextRx_txInflight (cfg : Cfg) : (nextRx cfg u).txInflight = u.txInflight := rfl
@[simp] theorem nextRx_ieDesired (cfg : Cfg) : (nextRx cfg u).ieDesired = u.ieDesired := rfl
@[simp] theorem nextRx_cbTx (cfg : Cfg) : (nextRx cfg u).cbTx = u.cbTx := rfl
@[simp] theorem nextRx_cbRx (cfg : Cfg) : (nextRx cfg u).cbRx = u.cbRx := rfl
@[simp] theorem nextRx_txLog (cfg : Cfg) : (nextRx cfg u).txLog = u.txLog := rfl

@[simp] theorem byteSent_ch : (byteSent u).ch = u.ch := rfl
@[simp] theorem byteSent_sr : (byteSent u).sr = { u.sr with tc := true } := rfl
@[simp] theorem byteSent_brr : (byteSent u).brr = u.brr := rfl
@[simp] theorem byteSent_cr : (byteSent u).cr = u.cr := rfl
@[simp] theorem byteSent_rdr : (byteSent u).rdr = u.rdr := rfl
@[simp] theorem byteSent_txInflight : (byteSent u).txInflight = false := rfl
@[simp] theorem byteSent_ieDesired : (byteSent u).ieDesired = u.ieDesired := rfl
@[simp] theorem byteSent_cbTx : (byteSent u).cbTx = u.cbTx := rfl
@[simp] theorem byteSent_cbRx : (byteSent u).cbRx = u.cbRx := rfl
@[simp] theorem byteSent_txLog : (byteSent u).txLog = u.txLog := rfl

@[simp] theorem byteReceived_ch (b : Byte) : (byteReceived b u).ch = u.ch := rfl
@[simp] theorem byteReceived_sr (b : Byte) :
    (byteReceived b u).sr =
      { u.sr with rxne := true } := rfl
@[simp] theorem byteReceived_brr (b : Byte) : (byteReceived b u).brr = u.brr := rfl
@[simp] theorem byteReceived_cr (b : Byte) : (byteReceived b u).cr = u.cr := rfl
@[simp] theorem byteReceived_rdr (b : Byte) : (byteReceived b u).rdr = b := rfl
@[simp] theorem byteReceived_txInflight (b : Byte) :
    (byteReceived b u).txInflight =
      u.txInflight := rfl
@[simp] theorem byteReceived_ieDesired (b : Byte) :
    (byteReceived b u).ieDesired =
      u.ieDesired := rfl
@[simp] theorem byteReceived_cbTx (b : Byte) : (byteReceived b u).cbTx = u.cbTx := rfl
@[simp] theorem byteReceived_cbRx (b : Byte) : (byteReceived b u).cbRx = u.cbRx := rfl
@[simp] theorem byteReceived_txLog (b : Byte) : (byteReceived b u).txLog = u.txLog := rfl

@[simp] theorem setCallback_ch (d : Direction) (h : Nat) : (setCallback u d h).ch = u.ch := by cases d <;> rfl
@[simp] theorem setCallback_sr (d : Direction) (h : Nat) : (setCallback u d h).sr = u.sr := by cases d <;> rfl
@[simp] theorem setCallback_brr (d : Direction) (h : Nat) : (setCallback u d h).brr = u.brr := by cases d <;> rfl
@[simp] theorem setCallback_cr (d : Direction) (h : Nat) : (setCallback u d h).cr = u.cr := by cases d <;> rfl
@[simp] theorem setCallback_rdr (d : Direction) (h : Nat) : (setCallback u d h).rdr = u.rdr := by cases d <;> rfl
@[simp] theorem setCallback_txInflight (d : Direction) (h : Nat) : (setCallback u d h).txInflight = u.txInflight := by cases d <;> rfl
@[simp] theorem setCallback_ieDesired (d : Direction) (h : Nat) : (setCallback u d h).ieDesired = u.ieDesired := by cases d <;> rfl
@[simp] theorem setCallback_txLog (d : Direction) (h : Nat) : (setCallback u d h).txLog = u.txLog := by cases d <;> rfl

@[simp] theorem setCallback_callbackOf (d : Direction) (h : Nat) :
    callbackOf (setCallback u d h) d = h := by cases d <;> rfl

theorem setCallback_callbackOf_ne (d e : Direction) (h : Nat) (hne : e ≠ d) :
    callbackOf (setCallback u d h) e = callbackOf u e := by
  cases d <;> cases e <;> first | rfl | exact absurd rfl hne

variable (v : Bus)

@[simp] theorem dropEnable_phase : (dropEnable v).phase = v.phase := rfl
@[simp] theorem dropEnable_e : (dropEnable v).e = false := rfl
@[simp] theorem dropEnable_eDriven : (dropEnable v).eDriven = true := rfl
@[simp] theorem dropEnable_rs : (dropEnable v).rs = v.rs := rfl
@[simp] theorem dropEnable_rw : (dropEnable v).rw = v.rw := rfl
@[simp] theorem dropEnable_d : (dropEnable v).d = v.d := rfl
@[simp] theorem dropEnable_pinsCfg : (dropEnable v).pinsCfg = v.pinsCfg := rfl
@[simp] theorem dropEnable_latchLog :
    (dropEnable v).latchLog =
      if v.eDriven && v.e then v.latchLog ++ [⟨v.rs, v.rw, v.d⟩] else v.latchLog := rfl

@[simp] theorem presentByte_phase (b : Byte) (x : Bool) : (presentByte b x v).phase = true := rfl
@[simp] theorem presentByte_e (b : Byte) (x : Bool) : (presentByte b x v).e = true := rfl
@[simp] theorem presentByte_eDriven (b : Byte) (x : Bool) :
    (presentByte b x v).eDriven =
      true := rfl
@[simp] theorem presentByte_rs (b : Byte) (x : Bool) : (presentByte b x v).rs = x := rfl
@[simp] theorem presentByte_rw (b : Byte) (x : Bool) : (presentByte b x v).rw = false := rfl
@[simp] theorem presentByte_d (b : Byte) (x : Bool) : (presentByte b x v).d = b := rfl
@[simp] theorem presentByte_pinsCfg (b : Byte) (x : Bool) :
    (presentByte b x v).pinsCfg =
      v.pinsCfg := rfl
@[simp] theorem presentByte_latchLog (b : Byte) (x : Bool) :
    (presentByte b x v).latchLog =
      v.latchLog := rfl

end Sys2Proof.Machine
end

