-- ==== Sys2Proof/Laws/Display.lean ====
section
/-!
SUPPORT. What each shared operation of unit STB and of the display sequencer can do, once.
-/

namespace Sys2Proof.Machine

/-! ### Unit STB -/

theorem strobe_of_not_asserted {b : Byte} {rs : Bool} {u : Bus} (h : u.phase = false) :
    strobe b rs u = presentByte b rs u := by
  simp [strobe, h]

theorem strobe_of_asserted {b : Byte} {rs : Bool} {u : Bus} (h : u.phase = true) :
    strobe b rs u = { dropEnable u with phase := false } := by
  simp [strobe, h]

@[simp] theorem issue_fst (b : Byte) (rs : Bool) (u : Bus) : (issue b rs u).1 = strobe b rs u := rfl

/-- The call is the latching one exactly when it found the phase asserted. -/
@[simp] theorem issue_snd (b : Byte) (rs : Bool) (u : Bus) : (issue b rs u).2 = u.phase := by
  unfold issue strobe
  split <;> simp_all

/-! ### The slot table -/

/-- Claiming succeeds exactly on the free slot of lowest index. -/
theorem claimSlot_eq_some {k : Kind} {l l' : List Slot} :
    claimSlot k l = some l' ↔
      ∃ i x, l[i]? = some x ∧ x.occupied = false ∧
        (∀ j y, j < i → l[j]? = some y → y.occupied = true) ∧ l' = l.set i ⟨true, k, .start⟩ := by
  induction l generalizing l' with
  | nil => simp [claimSlot]
  | cons x l ih =>
    unfold claimSlot
    split
    · rename_i hx
      simp only [Option.map_eq_some_iff, ih]
      constructor
      · rintro ⟨l'', ⟨i, y, h1, h2, h3, rfl⟩, rfl⟩
        refine ⟨i + 1, y, by simpa using h1, h2, fun j z hj hz => ?_, by simp⟩
        cases j with
        | zero => simp at hz; exact hz ▸ hx
        | succ j => exact h3 j z (by omega) (by simpa using hz)
      · rintro ⟨i, y, h1, h2, h3, rfl⟩
        cases i with
        | zero => simp at h1; simp [h1, h2] at hx
        | succ i =>
          exact ⟨_, ⟨i, y, by simpa using h1, h2,
            fun j z hj hz => h3 (j + 1) z (by omega) (by simpa using hz), rfl⟩, by simp⟩
    · rename_i hx
      simp only [Option.some.injEq]
      constructor
      · rintro rfl
        exact ⟨0, x, by simp, by simpa using hx, by simp, by simp⟩
      · rintro ⟨i, y, h1, h2, h3, rfl⟩
        cases i with
        | zero => simp
        | succ i => exact absurd (h3 0 x (by omega) (by simp)) hx

theorem claimSlot_eq_none {k : Kind} {l : List Slot} :
    claimSlot k l = none ↔ ∀ x ∈ l, x.occupied = true := by
  induction l with
  | nil => simp [claimSlot]
  | cons x l ih =>
    unfold claimSlot
    split <;> simp_all

/-- What a claim can do: the lowest free slot takes the request, or the table is full and nothing
changes. -/
theorem claim_eq_next {k : Kind} {s t : State} {r : Response} :
    claim k s = .next (t, r) ↔
      (∃ i x, s.lcd.slots[i]? = some x ∧ x.occupied = false ∧
        (∀ j y, j < i → s.lcd.slots[j]? = some y → y.occupied = true) ∧
        t = s.setLcd { s.lcd with slots := s.lcd.slots.set i ⟨true, k, .start⟩ } ∧
        r = codeOnly .ok) ∨
      ((∀ x ∈ s.lcd.slots, x.occupied = true) ∧ t = s ∧ r = codeOnly .bufferFull) := by
  unfold claim
  split
  · rename_i slots h
    have hne : ¬ ∀ x ∈ s.lcd.slots, x.occupied = true := fun hall => by
      rw [claimSlot_eq_none.mpr hall] at h; cases h
    obtain ⟨i, x, h1, h2, h3, rfl⟩ := claimSlot_eq_some.mp h
    simp only [Host.Outcome.next.injEq, Prod.mk.injEq, hne, false_and, or_false]
    constructor
    · rintro ⟨rfl, rfl⟩
      exact ⟨i, x, h1, h2, h3, rfl, rfl⟩
    · rintro ⟨i', x', h1', h2', h3', rfl, rfl⟩
      have h' := claimSlot_eq_some (k := k).mpr ⟨i', x', h1', h2', h3', rfl⟩
      rw [h, Option.some.injEq] at h'
      simp [h']
  · rename_i h
    have hall := claimSlot_eq_none.mp h
    simp only [reject, Host.Outcome.next.injEq, Prod.mk.injEq]
    constructor
    · rintro ⟨rfl, rfl⟩
      exact .inr ⟨hall, rfl, rfl⟩
    · rintro (⟨i, x, h1, h2, -⟩ | ⟨-, rfl, rfl⟩)
      · exact absurd (hall x (List.mem_of_getElem? h1)) (by simp [h2])
      · exact ⟨rfl, rfl⟩

theorem claim_ne_stop {k : Kind} {s : State} : ∃ t r, claim k s = .next (t, r) := by
  unfold claim
  split
  · exact ⟨_, _, rfl⟩
  · exact ⟨_, _, rfl⟩

theorem firstOccupied_eq_some {l : List Slot} {i : Nat} :
    firstOccupied l = some i ↔
      (∃ x, l[i]? = some x ∧ x.occupied = true) ∧
        ∀ j y, j < i → l[j]? = some y → y.occupied = false := by
  induction l generalizing i with
  | nil => simp [firstOccupied]
  | cons x l ih =>
    unfold firstOccupied
    split
    · rename_i hx
      simp only [Option.some.injEq]
      constructor
      · rintro rfl
        exact ⟨⟨x, by simp, hx⟩, by simp⟩
      · rintro ⟨-, h⟩
        cases i with
        | zero => rfl
        | succ i => simpa [hx] using h 0 x (by omega) (by simp)
    · rename_i hx
      simp only [Option.map_eq_some_iff, ih]
      constructor
      · rintro ⟨i, ⟨⟨y, h1, h2⟩, h3⟩, rfl⟩
        refine ⟨⟨y, by simpa using h1, h2⟩, fun j z hj hz => ?_⟩
        cases j with
        | zero => simp at hz; simpa [hz] using hx
        | succ j => exact h3 j z (by omega) (by simpa using hz)
      · rintro ⟨⟨y, h1, h2⟩, h3⟩
        cases i with
        | zero => simp at h1; simp [h1, h2] at hx
        | succ i =>
          exact ⟨i, ⟨⟨y, by simpa using h1, h2⟩,
            fun j z hj hz => h3 (j + 1) z (by omega) (by simpa using hz)⟩, rfl⟩

theorem firstOccupied_eq_none {l : List Slot} :
    firstOccupied l = none ↔ ∀ x ∈ l, x.occupied = false := by
  induction l with
  | nil => simp [firstOccupied]
  | cons x l ih =>
    unfold firstOccupied
    split <;> simp_all

/-! ### The current slot -/

theorem curSlot_of_getElem? {l : Lcd} {x : Slot} (h : l.slots[l.cur]? = some x) :
    curSlot l = x := by
  simp [curSlot, List.getD, h]

@[simp] theorem setCur_life (l : Lcd) (x : Slot) : (setCur l x).life = l.life := rfl
@[simp] theorem setCur_isub (l : Lcd) (x : Slot) : (setCur l x).isub = l.isub := rfl
@[simp] theorem setCur_delay (l : Lcd) (x : Slot) : (setCur l x).delay = l.delay := rfl
@[simp] theorem setCur_cur (l : Lcd) (x : Slot) : (setCur l x).cur = l.cur := rfl
@[simp] theorem setCur_widx (l : Lcd) (x : Slot) : (setCur l x).widx = l.widx := rfl
@[simp] theorem setCur_cursorRow (l : Lcd) (x : Slot) : (setCur l x).cursorRow = l.cursorRow := rfl
@[simp] theorem setCur_cursorCol (l : Lcd) (x : Slot) : (setCur l x).cursorCol = l.cursorCol := rfl
@[simp] theorem setCur_slots (l : Lcd) (x : Slot) : (setCur l x).slots = l.slots.set l.cur x := rfl

@[simp] theorem setWidx_life (l : Lcd) (v : Nat) : (setWidx l v).life = l.life := rfl
@[simp] theorem setWidx_isub (l : Lcd) (v : Nat) : (setWidx l v).isub = l.isub := rfl
@[simp] theorem setWidx_delay (l : Lcd) (v : Nat) : (setWidx l v).delay = l.delay := rfl
@[simp] theorem setWidx_cur (l : Lcd) (v : Nat) : (setWidx l v).cur = l.cur := rfl
@[simp] theorem setWidx_widx (l : Lcd) (v : Nat) : (setWidx l v).widx = v := rfl
@[simp] theorem setWidx_cursorRow (l : Lcd) (v : Nat) :
    (setWidx l v).cursorRow = l.cursorRow := rfl
@[simp] theorem setWidx_cursorCol (l : Lcd) (v : Nat) :
    (setWidx l v).cursorCol = l.cursorCol := rfl
@[simp] theorem setWidx_slots (l : Lcd) (v : Nat) : (setWidx l v).slots = l.slots := rfl

@[simp] theorem moveCursor_life (l : Lcd) (r : BitVec 1) (c : BitVec 4) :
    (moveCursor r c l).life = l.life := rfl
@[simp] theorem moveCursor_isub (l : Lcd) (r : BitVec 1) (c : BitVec 4) :
    (moveCursor r c l).isub = l.isub := rfl
@[simp] theorem moveCursor_delay (l : Lcd) (r : BitVec 1) (c : BitVec 4) :
    (moveCursor r c l).delay = l.delay := rfl
@[simp] theorem moveCursor_cur (l : Lcd) (r : BitVec 1) (c : BitVec 4) :
    (moveCursor r c l).cur = l.cur := rfl
@[simp] theorem moveCursor_widx (l : Lcd) (r : BitVec 1) (c : BitVec 4) :
    (moveCursor r c l).widx = l.widx := rfl
@[simp] theorem moveCursor_cursorRow (l : Lcd) (r : BitVec 1) (c : BitVec 4) :
    (moveCursor r c l).cursorRow = r := rfl
@[simp] theorem moveCursor_cursorCol (l : Lcd) (r : BitVec 1) (c : BitVec 4) :
    (moveCursor r c l).cursorCol = c := rfl
@[simp] theorem moveCursor_slots (l : Lcd) (r : BitVec 1) (c : BitVec 4) :
    (moveCursor r c l).slots = l.slots := rfl

@[simp] theorem inProgress_occupied (x : Slot) : (inProgress x).occupied = x.occupied := rfl
@[simp] theorem inProgress_kind (x : Slot) : (inProgress x).kind = x.kind := rfl
@[simp] theorem inProgress_progress (x : Slot) : (inProgress x).progress = .inProgress := rfl

@[simp] theorem finished_occupied (x : Slot) : (finished x).occupied = x.occupied := rfl
@[simp] theorem finished_kind (x : Slot) : (finished x).kind = .done := rfl
@[simp] theorem finished_progress (x : Slot) : (finished x).progress = .finished := rfl

@[simp] theorem released_occupied (x : Slot) : (released x).occupied = false := rfl
@[simp] theorem released_kind (x : Slot) : (released x).kind = .none := rfl
@[simp] theorem released_progress (x : Slot) : (released x).progress = x.progress := rfl

@[simp] theorem restarted_occupied (x : Slot) : (restarted x).occupied = x.occupied := rfl
@[simp] theorem restarted_kind (x : Slot) : (restarted x).kind = x.kind := rfl
@[simp] theorem restarted_progress (x : Slot) : (restarted x).progress = .start := rfl

theorem curSlot_setCur {l : Lcd} (x : Slot) (h : l.cur < l.slots.length) :
    curSlot (setCur l x) = x := by
  simp [curSlot, h]

@[simp] theorem setCur_setCur (l : Lcd) (x y : Slot) : setCur (setCur l x) y = setCur l y := by
  simp [setCur]

/-- Completing a slot that was just put in service rewrites it once. -/
theorem complete_setCur {l : Lcd} (x : Slot) (h : l.cur < l.slots.length) :
    complete (setCur l x) = setCur l (finished x) := by
  simp [complete, curSlot_setCur x h]

/-- What the scan of a reclaim does: the lowest occupied slot becomes current at Start, or the engine is
idle at index 0. -/
theorem selectNext_cases (l : Lcd) :
    (∃ i y, l.slots[i]? = some y ∧ y.occupied = true ∧
      (∀ j z, j < i → l.slots[j]? = some z → z.occupied = false) ∧
      selectNext l = { l with cur := i, slots := l.slots.set i (restarted y) }) ∨
    ((∀ x ∈ l.slots, x.occupied = false) ∧ selectNext l = { l with cur := 0 }) := by
  unfold selectNext
  split
  · rename_i i h
    obtain ⟨⟨y, h1, h2⟩, h3⟩ := firstOccupied_eq_some.mp h
    exact .inl ⟨i, y, h1, h2, h3, by simp [List.getD, h1]⟩
  · rename_i h
    exact .inr ⟨firstOccupied_eq_none.mp h, rfl⟩

/-- A command-issuing sub-state: present in phase 0, advance in phase 1. -/
theorem issueInit_cases (cmd : Byte) (here next : InitSub) (s : State) :
    (s.bus.phase = false ∧
      issueInit cmd here next s =
        (s.setBus (presentByte cmd false s.bus)).setLcd { s.lcd with isub := here }) ∨
    (s.bus.phase = true ∧
      issueInit cmd here next s =
        (s.setBus { dropEnable s.bus with phase := false }).setLcd { s.lcd with isub := next }) := by
  cases h : s.bus.phase
  · exact .inl ⟨rfl, by simp [issueInit, h, strobe_of_not_asserted h]⟩
  · exact .inr ⟨rfl, by simp [issueInit, h, strobe_of_asserted h]⟩

/-- The shape of Clear, SetPosition and RawCommand: present in phase 0, complete in phase 1. -/
theorem commandStep_cases (b : Byte) (finish : Lcd → Lcd) (s : State) :
    (s.bus.phase = false ∧
      commandStep b finish s =
        (s.setBus (presentByte b false s.bus)).setLcd (beginCur s.lcd)) ∨
    (s.bus.phase = true ∧
      commandStep b finish s =
        (s.setBus { dropEnable s.bus with phase := false }).setLcd
          (complete (finish (beginCur s.lcd)))) := by
  cases h : s.bus.phase
  · exact .inl ⟨rfl, by simp [commandStep, h, strobe_of_not_asserted h]⟩
  · exact .inr ⟨rfl, by simp [commandStep, h, strobe_of_asserted h]⟩

/-- One call of a character's bus cycle: present in phase 0, advance the index in phase 1. -/
theorem writeChar_cases (b : Byte) (s : State) :
    (s.bus.phase = false ∧
      writeChar b s = (s.setBus (presentByte b true s.bus)).setLcd s.lcd) ∨
    (s.bus.phase = true ∧
      writeChar b s =
        (s.setBus { dropEnable s.bus with phase := false }).setLcd
          (setWidx s.lcd (incIndex s.cfg s.lcd.widx))) := by
  cases h : s.bus.phase
  · exact .inl ⟨rfl, by simp [writeChar, setWidx, h, strobe_of_not_asserted h]⟩
  · exact .inr ⟨rfl, by simp [writeChar, h, strobe_of_asserted h]⟩

/-- What a Write tick can do: begin, complete, or one call of the current character's bus cycle. -/
theorem writeStep_eq_next {text : Nat} {length : Nat} {s t : State} :
    writeStep text length s = .next t ↔
      ((curSlot s.lcd).progress = .start ∧ t = s.setLcd (setWidx (beginCur s.lcd) 0)) ∨
      ((curSlot s.lcd).progress ≠ .start ∧ s.lcd.widx = length ∧ t = s.setLcd (complete s.lcd)) ∨
      ((curSlot s.lcd).progress ≠ .start ∧ s.lcd.widx ≠ length ∧
        ∃ b, bufRead s.cfg s.mem text s.lcd.widx length = some b ∧ t = writeChar b s) := by
  unfold writeStep
  split
  · rename_i h
    simp [h, eq_comm]
  · rename_i h
    split
    · rename_i h'
      simp [h, h', eq_comm]
    · rename_i h'
      simp only [andThen_eq_next, orBounds_eq_next]
      simp [h, h', eq_comm (a := t)]

/-- The part of the state a tick cannot touch. -/
theorem tick_frame {s t : State} (h : tick s = .next t) :
    t.cfg = s.cfg ∧ t.uarts = s.uarts ∧ t.mem = s.mem ∧ t.cbLog = s.cbLog ∧ t.fgWait = s.fgWait ∧
      t.responses = s.responses ∧ t.script = s.script ∧ t.pc = s.pc := by
  have frame : ∀ (b : Bus) (l : Lcd), t = (s.setBus b).setLcd l →
      t.cfg = s.cfg ∧ t.uarts = s.uarts ∧ t.mem = s.mem ∧ t.cbLog = s.cbLog ∧
        t.fgWait = s.fgWait ∧ t.responses = s.responses ∧ t.script = s.script ∧ t.pc = s.pc := by
    rintro b l rfl
    simp
  unfold tick at h
  split at h
  · cases h; simp
  · cases h
    unfold initStep
    split
    · simp
    · split
      · simp
      · simp [issueInit]
    · simp [issueInit]
    · simp [issueInit]
    · simp
  · unfold serveStep at h
    split at h
    · cases h; simp
    · rcases writeStep_eq_next.mp h with ⟨-, rfl⟩ | ⟨-, -, rfl⟩ | ⟨-, -, b, -, rfl⟩
      · simp
      · simp
      · exact frame _ _ rfl
    · cases h; exact frame _ _ rfl
    · cases h; exact frame _ _ rfl
    · cases h; exact frame _ _ rfl
    · cases h; simp

end Sys2Proof.Machine
end

