-- ==== Sys2Proof/Laws/Serial.lean ====
section
/-!
SUPPORT. What each foreground operation of unit UBT can answer, once: a rejection that changes nothing,
or the one accepted outcome.
-/

namespace Sys2Proof.Machine

/-- A reply that rejects the request: no state changed, a failure code and no data. -/
def Rejects (s t : State) (r : Response) : Prop := t = s ∧ ∃ code, code ≠ .ok ∧ r = codeOnly code

theorem reject_eq_next {s t : State} {code : ResultCode} {r : Response} :
    reject s code = .next (t, r) ↔ t = s ∧ r = codeOnly code := by
  simp [reject, eq_comm]

theorem rejects_of_reject {s t : State} {code : ResultCode} {r : Response} (hc : code ≠ .ok)
    (h : reject s code = .next (t, r)) : Rejects s t r := by
  obtain ⟨rfl, rfl⟩ := reject_eq_next.mp h
  exact ⟨rfl, code, hc, rfl⟩

theorem onChannel_of_none {sel : Byte} {s : State} {k : Channel → Reply}
    (h : resolve s.cfg sel = none) : onChannel sel s k = reject s .invalidChannel := by
  simp [onChannel, h]

theorem onChannel_of_some {sel : Byte} {s : State} {k : Channel → Reply} {c : Channel}
    (h : resolve s.cfg sel = some c) : onChannel sel s k = k c := by
  simp [onChannel, h]

/-- A request on a channel that answers either rejects the selector or is the request on the channel
the selector names. -/
theorem onChannel_eq_next {sel : Byte} {s t : State} {k : Channel → Reply} {r : Response}
    (h : onChannel sel s k = .next (t, r)) :
    Rejects s t r ∨ ∃ c, resolve s.cfg sel = some c ∧ k c = .next (t, r) := by
  unfold onChannel at h
  split at h
  · rename_i c hc
    exact .inr ⟨c, hc, h⟩
  · exact .inl (rejects_of_reject (by decide) h)

theorem requestInit_eq_next {sel : Byte} {flags : InitFlags} {clock baud : Word} {s t : State}
    {r : Response} (h : requestInit sel flags clock baud s = .next (t, r)) :
    Rejects s t r ∨ ∃ c, resolve s.cfg sel = some c ∧ flags.parity ≠ 3 ∧ baud ≠ 0 ∧
      (baudDiv clock.toNat baud.toNat flags.over8).1 < Config.mantissaEnd ∧
      t = s.modUart c (configure flags
        (packBrr (baudDiv clock.toNat baud.toNat flags.over8).1
          (baudDiv clock.toNat baud.toNat flags.over8).2)) ∧
      r = codeOnly .ok := by
  unfold requestInit at h
  split at h
  · cases h
  · rename_i hp
    rcases onChannel_eq_next h with hr | ⟨c, hc, h⟩
    · exact .inl hr
    · split at h
      · cases h
      · split at h
        · cases h
        · rename_i hb hm
          cases h
          exact .inr ⟨c, hc, hp, hb, not_le.mp hm, rfl, rfl⟩

theorem requestSend_eq_next {sel : Byte} {data : Nat} {length : Nat} {s t : State} {r : Response}
    (h : requestSend sel data length s = .next (t, r)) :
    Rejects s t r ∨ ∃ c b, resolve s.cfg sel = some c ∧ fitRef s.cfg data ≠ s.cfg.nullRef ∧
      (s.uart c).ch.txBusy = false ∧
      bufRead s.cfg s.mem (fitRef s.cfg data) 0 (fitIndex s.cfg length) = some b ∧
      (s.uart c).txInflight = false ∧
      t = s.modUart c
        (fun u => startTx (fitRef s.cfg data) (fitIndex s.cfg length) (sentByte b u)) ∧
      r = codeOnly .ok := by
  rcases onChannel_eq_next h with hr | ⟨c, hc, h⟩
  · exact .inl hr
  · split at h
    · exact .inl (rejects_of_reject (by decide) h)
    · split at h
      · exact .inl (rejects_of_reject (by decide) h)
      · rename_i hd hb
        obtain ⟨b, hread, h⟩ := andThen_eq_next.mp h
        obtain ⟨u, hw, h⟩ := andThen_eq_next.mp h
        obtain ⟨hfl, rfl⟩ := drWrite_eq_next.mp hw
        cases h
        exact .inr ⟨c, b, hc, hd, by simpa using hb, orBounds_eq_next.mp hread, hfl, by simp, rfl⟩

theorem requestRecv_eq_next {sel : Byte} {dest : Nat} {start length : Nat} {s t : State}
    {r : Response} (h : requestRecv sel dest start length s = .next (t, r)) :
    Rejects s t r ∨ ∃ c, resolve s.cfg sel = some c ∧ fitRef s.cfg dest ≠ s.cfg.nullRef ∧
      (s.uart c).ch.rxBusy = false ∧
      t = s.modUart c (startRx (fitRef s.cfg dest) (fitIndex s.cfg start) (fitIndex s.cfg length)) ∧
      r = codeOnly .ok := by
  rcases onChannel_eq_next h with hr | ⟨c, hc, h⟩
  · exact .inl hr
  · split at h
    · exact .inl (rejects_of_reject (by decide) h)
    · split at h
      · exact .inl (rejects_of_reject (by decide) h)
      · rename_i hd hb
        cases h
        exact .inr ⟨c, hc, hd, by simpa using hb, rfl, rfl⟩

theorem requestRegcb_eq_next {sel : Byte} {dir : Direction} {handler : Nat} {s t : State}
    {r : Response} (h : requestRegcb sel dir handler s = .next (t, r)) :
    Rejects s t r ∨ ∃ c, resolve s.cfg sel = some c ∧ fitRef s.cfg handler ≠ s.cfg.nullRef ∧
      t = s.modUart c (fun u => setCallback u dir (fitRef s.cfg handler)) ∧ r = codeOnly .ok := by
  rcases onChannel_eq_next h with hr | ⟨c, hc, h⟩
  · exact .inl hr
  · split at h
    · exact .inl (rejects_of_reject (by decide) h)
    · rename_i hh
      cases h
      exact .inr ⟨c, hc, hh, rfl, rfl⟩

/-- What the issue step of a blocking operation can do: reject the selector, or start the wait. -/
theorem issueBlocking_eq_next {sel : Byte} {s t : State} {start : Channel → Result State}
    (h : issueBlocking sel s start = .next t) :
    (resolve s.cfg sel = none ∧ t = (s.respond (codeOnly .invalidChannel)).advance 1) ∨
      ∃ c u, resolve s.cfg sel = some c ∧ mixed (s.uart c) = false ∧ start c = .next u ∧
        t = u.advance 1 := by
  unfold issueBlocking at h
  split at h
  · rename_i hn
    cases h
    exact .inl ⟨hn, rfl⟩
  · rename_i c hc
    split at h
    · cases h
    · rename_i hm
      obtain ⟨u, hu, h⟩ := andThen_eq_next.mp h
      cases h
      exact .inr ⟨c, u, hc, by simpa using hm, hu, rfl⟩

end Sys2Proof.Machine
end

