-- ==== Sys2Proof/Laws/Interrupt.lean ====
section
/-!
SUPPORT. What each part of the interrupt handler can do, once, callbacks with bodies that
act included.
-/

namespace Sys2Proof.Machine

/-! ### Callback bodies -/

/-- What one action of a callback body can do, once. -/
inductive BodyStep (s : State) : State → Prop where
  /-- A rejected request. -/
  | nothing : BodyStep s s
  | strobe (b : Byte) (rs : Bool) : BodyStep s (s.setBus (strobe b rs s.bus))
  | elow : BodyStep s (s.setBus (dropEnable s.bus))
  | display : BodyStep s
      ((s.setBus { s.bus with pinsCfg := true }).setLcd
        { s.lcd with life := if s.lcd.life = .off then .initializing else s.lcd.life })
  | claim (k : Kind) (i : Nat) (x : Slot) (hx : s.lcd.slots[i]? = some x)
      (hfree : x.occupied = false)
      (hlow : ∀ j y, j < i → s.lcd.slots[j]? = some y → y.occupied = true)
      (hnone : k ≠ .none) (hdone : k ≠ .done)
      (hwrite : ∀ text length, k = .write text length →
        text ≠ s.cfg.nullRef ∧ text < s.cfg.memEnd ∧ length < s.cfg.indexEnd) :
      BodyStep s (s.setLcd { s.lcd with slots := s.lcd.slots.set i ⟨true, k, .start⟩ })
  | configure (c : Channel) (flags : InitFlags) (brr : BitVec 16) :
      BodyStep s (s.modUart c (configure flags brr))
  | send (c : Channel) (data : Nat) (length : Nat) (b : Byte)
      (hfree : (s.uart c).ch.txBusy = false) (hnull : data ≠ s.cfg.nullRef)
      (hread : bufRead s.cfg s.mem data 0 length = some b)
      (hfl : (s.uart c).txInflight = false) (hlen : length < s.cfg.indexEnd) :
      BodyStep s (s.modUart c (fun u => startTx data length (sentByte b u)))
  | recv (c : Channel) (dest : Nat) (start length : Nat)
      (hfree : (s.uart c).ch.rxBusy = false) (hnull : dest ≠ s.cfg.nullRef)
      (hdest : dest < s.cfg.memEnd) (hstart : start < s.cfg.indexEnd)
      (hlen : length < s.cfg.indexEnd) :
      BodyStep s (s.modUart c (startRx dest start length))
  | sendb (c : Channel) (b : Byte) (hm : mixed (s.uart c) = false)
      (hfl : (s.uart c).txInflight = false) (htc : (s.uart c).sr.tc = true) :
      BodyStep s (s.modUart c (fun u => clearTc (sentByte b u)))
  | recvb (c : Channel) (hm : mixed (s.uart c) = false) (hrx : (s.uart c).sr.rxne = true) :
      BodyStep s
        (s.modUart c (fun u => clearRxne (afterDrRead s.cfg.drReadClearsRxne u)))
  | regcb (c : Channel) (dir : Direction) (handler : Nat) (hnull : handler ≠ s.cfg.nullRef)
      (hfit : handler < s.cfg.memEnd) :
      BodyStep s (s.modUart c (fun u => setCallback u dir handler))
  | store (a : Nat) (v : Byte) (ha : a < s.cfg.memEnd) :
      BodyStep s (s.setMem (memWrite s.mem a v))

theorem bodyStep_of_claim {k : Kind} {s t : State} {r : Response} (hn : k ≠ .none) (hd : k ≠ .done)
    (hw : ∀ text length, k = .write text length →
      text ≠ s.cfg.nullRef ∧ text < s.cfg.memEnd ∧ length < s.cfg.indexEnd)
    (h : claim k s = .next (t, r)) : BodyStep s t := by
  rcases claim_eq_next.mp h with ⟨i, x, h1, h2, h3, rfl, -⟩ | ⟨-, rfl, -⟩
  · exact .claim k i x h1 h2 h3 hn hd hw
  · exact .nothing

theorem bodyStep_of_reject {code : ResultCode} {s t : State} {r : Response}
    (h : reject s code = .next (t, r)) : BodyStep s t := by
  obtain ⟨rfl, -⟩ := reject_eq_next.mp h
  exact .nothing

/-- What a blocking call inside a callback body can do: reject the selector, or issue and complete. -/
theorem callbackBlocking_eq_next {sel : Byte} {s t : State} {start : Channel → Result State}
    {ready : Uart → Bool} {finish : Channel → State → State × Response} {r : Response}
    (h : callbackBlocking sel s start ready finish = .next (t, r)) :
    Rejects s t r ∨ ∃ c u, resolve s.cfg sel = some c ∧ mixed (s.uart c) = false ∧
      start c = .next u ∧ ready (u.uart c) = true ∧ finish c u = (t, r) := by
  rcases onChannel_eq_next h with hr | ⟨c, hc, h⟩
  · exact .inl hr
  · split at h
    · cases h
    · rename_i hm
      obtain ⟨u, hu, h⟩ := andThen_eq_next.mp h
      split at h
      · rename_i hready
        exact .inr ⟨c, u, hc, by simpa using hm, hu, hready, Host.Outcome.next.inj h⟩
      · cases h

/-- What one action of a callback body can do. -/
theorem callbackRequest_eq_next {a : CallbackAction} {s t : State} {r : Response}
    (h : callbackRequest a s = .next (t, r)) : BodyStep s t := by
  cases a with
  | stbCmd byte => cases h; exact .strobe byte false
  | stbChr byte => cases h; exact .strobe byte true
  | stbElow => cases h; exact .elow
  | lcdInit => cases h; exact .display
  | write text length =>
    simp only [callbackRequest, requestWrite] at h
    split at h
    · exact bodyStep_of_reject h
    · rename_i ht
      exact bodyStep_of_claim (by simp) (by simp)
        (fun _ _ e => by cases e; exact ⟨ht, fitRef_lt _ _, fitIndex_lt _ _⟩) h
  | goto row col =>
    simp only [callbackRequest, requestGoto] at h
    split at h
    · exact bodyStep_of_claim (by simp) (by simp) (fun _ _ e => by cases e) h
    · exact bodyStep_of_reject h
  | clear => exact bodyStep_of_claim (by simp) (by simp) (fun _ _ e => by cases e) h
  | command byte => exact bodyStep_of_claim (by simp) (by simp) (fun _ _ e => by cases e) h
  | init sel flags clock baud =>
    rcases requestInit_eq_next h with ⟨rfl, -⟩ | ⟨c, -, -, -, -, rfl, -⟩
    · exact .nothing
    · exact .configure c _ _
  | send sel data length =>
    rcases requestSend_eq_next h with ⟨rfl, -⟩ | ⟨c, b, -, h1, h2, h3, h4, rfl, -⟩
    · exact .nothing
    · exact .send c _ _ b h2 h1 h3 h4 (fitIndex_lt _ _)
  | recv sel dest start length =>
    rcases requestRecv_eq_next h with ⟨rfl, -⟩ | ⟨c, -, h1, h2, rfl, -⟩
    · exact .nothing
    · exact .recv c _ _ _ h2 h1 (fitRef_lt _ _) (fitIndex_lt _ _) (fitIndex_lt _ _)
  | sendb sel byte =>
    simp only [callbackRequest] at h
    rcases callbackBlocking_eq_next h with ⟨rfl, -⟩ | ⟨c, u, -, hm, hu, hready, hf⟩
    · exact .nothing
    · obtain ⟨hfl, rfl⟩ := drWrite_eq_next.mp hu
      simp only [finishSendb, State.modUart_modUart, Prod.mk.injEq] at hf
      obtain ⟨rfl, -⟩ := hf
      exact .sendb c byte hm hfl (by simpa using hready)
  | recvb sel =>
    simp only [callbackRequest] at h
    rcases callbackBlocking_eq_next h with ⟨rfl, -⟩ | ⟨c, u, -, hm, hu, hready, hf⟩
    · exact .nothing
    · cases hu
      simp only [finishRecvb, drRead_snd, State.modUart_modUart, Prod.mk.injEq] at hf
      obtain ⟨rfl, -⟩ := hf
      exact .recvb c hm hready
  | regcb sel dir handler =>
    rcases requestRegcb_eq_next h with ⟨rfl, -⟩ | ⟨c, -, h1, rfl, -⟩
    · exact .nothing
    · exact .regcb c dir _ h1 (fitRef_lt _ _)
  | store address value =>
    cases h
    exact .store _ value (fitRef_lt _ _)

/-- A property every action keeps is kept by a callback body. -/
theorem runBody_keeps {P : State → Prop} (hP : ∀ s t, P s → BodyStep s t → P t) :
    ∀ (body : List CallbackAction) (s t : State), P s → runBody body s = .next t → P t
  | [], s, t, hs, h => by cases h; exact hs
  | a :: rest, s, t, hs, h => by
    obtain ⟨⟨u, r⟩, h1, h2⟩ := andThen_eq_next.mp h
    exact runBody_keeps hP rest u t (hP s u hs (callbackRequest_eq_next h1)) h2

theorem callBody_keeps {P : State → Prop} (hP : ∀ s t, P s → BodyStep s t → P t) {h : Nat}
    {s t : State} (hs : P s) (ht : callBody h s = .next t) : P t :=
  runBody_keeps hP _ s t hs ht

/-- The part of the state an action of a callback body cannot touch. -/
theorem BodyStep.frame {s t : State} (h : BodyStep s t) :
    t.cfg = s.cfg ∧ t.cbLog = s.cbLog ∧ t.fgWait = s.fgWait ∧ t.responses = s.responses ∧
      t.script = s.script ∧ t.pc = s.pc := by
  cases h <;> simp

/-- The part of the state a callback body cannot touch. -/
theorem callBody_frame {h : Nat} {s t : State} (ht : callBody h s = .next t) :
    t.cfg = s.cfg ∧ t.cbLog = s.cbLog ∧ t.fgWait = s.fgWait ∧ t.responses = s.responses ∧
      t.script = s.script ∧ t.pc = s.pc :=
  callBody_keeps
    (P := fun u => u.cfg = s.cfg ∧ u.cbLog = s.cbLog ∧ u.fgWait = s.fgWait ∧
      u.responses = s.responses ∧ u.script = s.script ∧ u.pc = s.pc)
    (fun _ _ hu hv => by
      obtain ⟨h1, h2, h3, h4, h5, h6⟩ := hv.frame
      exact ⟨h1.trans hu.1, h2.trans hu.2.1, h3.trans hu.2.2.1, h4.trans hu.2.2.2.1,
        h5.trans hu.2.2.2.2.1, h6.trans hu.2.2.2.2.2⟩)
    (by simp) ht

/-- A log-only body does nothing. -/
theorem callBody_logOnly {h : Nat} {s : State} (hb : bodyOf s.cfg h = .listed []) :
    callBody h s = .next s := by
  simp [callBody, hb, actionsOf, runBody]

/-- An absent callback is no call. -/
theorem invoke_absent {c : Channel} {d : Direction} {s : State}
    (h : callbackOf (s.uart c) d = s.cfg.nullRef) : invoke c d s = .next s := by
  simp [invoke, h]

/-- A callback with a log-only body adds its entry to the log and nothing else. -/
theorem invoke_logOnly {c : Channel} {d : Direction} {s : State}
    (hp : callbackOf (s.uart c) d ≠ s.cfg.nullRef)
    (hb : bodyOf s.cfg (callbackOf (s.uart c) d) = .listed []) :
    invoke c d s = .next (s.logCallback (invocation c d (s.uart c))) := by
  simp only [invoke, hp, if_false]
  exact callBody_logOnly hb

/-- The two log-only cases in one equation. -/
theorem invoke_of_logOnly {c : Channel} {d : Direction} {s : State}
    (hb : callbackOf (s.uart c) d ≠ s.cfg.nullRef →
      bodyOf s.cfg (callbackOf (s.uart c) d) = .listed []) :
    invoke c d s = .next
      (if callbackOf (s.uart c) d = s.cfg.nullRef then s
        else s.logCallback (invocation c d (s.uart c))) := by
  split
  · rename_i h
    exact invoke_absent h
  · rename_i h
    exact invoke_logOnly h (hb h)

/-- What an invocation can do: nothing, or its log entry and then its body. -/
theorem invoke_eq_next {c : Channel} {d : Direction} {s t : State} :
    invoke c d s = .next t ↔
      (callbackOf (s.uart c) d = s.cfg.nullRef ∧ t = s) ∨
      (callbackOf (s.uart c) d ≠ s.cfg.nullRef ∧
        callBody (callbackOf (s.uart c) d) (s.logCallback (invocation c d (s.uart c))) =
          .next t) := by
  unfold invoke
  split
  · rename_i h
    simp [h, eq_comm (a := t)]
  · rename_i h
    simp [h]

/-! ### The branches -/

theorem tcComplete_eq_next {c : Channel} {s t : State} :
    tcComplete c s = .next t ↔
      ∃ v, invoke c .tx (s.modUart c finishTx) = .next v ∧
        t = v.modUart c (fun u => disarmTx v.cfg.disarmOnComplete (clearTc u)) := by
  simp [tcComplete, andThen_eq_next, eq_comm (a := t)]

theorem tcNext_eq_next {c : Channel} {s t : State} :
    tcNext c s = .next t ↔
      (s.uart c).ch.txBusy = true ∧ (s.uart c).txInflight = false ∧
        ∃ b, bufRead s.cfg s.mem (s.uart c).ch.txBuffer (s.uart c).ch.txIndex (s.uart c).ch.txLen =
            some b ∧
          t = s.modUart c (fun u => clearTc (nextTx s.cfg (sentByte b u))) := by
  unfold tcNext
  split
  · rename_i h
    simp only [andThen_eq_next, orBounds_eq_next, drWrite_eq_next]
    constructor
    · rintro ⟨b, hb, v, ⟨hf, rfl⟩, ht⟩
      cases ht
      exact ⟨h, hf, b, hb, by simp⟩
    · rintro ⟨-, hf, b, hb, rfl⟩
      exact ⟨b, hb, _, ⟨hf, rfl⟩, by simp⟩
  · rename_i h
    simp [h]

theorem storeReceived_eq_next {c : Channel} {s t : State} :
    storeReceived c s = .next t ↔
      ∃ m, bufWrite s.cfg s.mem (s.uart c).ch.rxBuffer (s.uart c).ch.rxIndex (s.uart c).ch.rxLen
          (s.uart c).rdr = some m ∧
        t = (s.setMem m).modUart c
          (fun u => nextRx s.cfg (afterDrRead s.cfg.drReadClearsRxne u)) := by
  simp only [storeReceived, andThen_eq_next, orBounds_eq_next, drRead_fst, drRead_snd]
  constructor
  · rintro ⟨m, hm, ht⟩
    cases ht
    refine ⟨m, hm, ?_⟩
    cases c <;> rfl
  · rintro ⟨m, hm, rfl⟩
    refine ⟨m, hm, ?_⟩
    cases c <;> rfl

theorem rxBranch_eq_next {c : Channel} {s t : State} :
    rxBranch c s = .next t ↔
      ∃ v, storeReceived c s = .next v ∧
        (((v.uart c).ch.rxIndex = (v.uart c).ch.rxLen ∧ rxComplete c v = .next t) ∨
          ((v.uart c).ch.rxIndex ≠ (v.uart c).ch.rxLen ∧ t = v)) := by
  simp only [rxBranch, andThen_eq_next]
  refine exists_congr fun v => and_congr_right fun _ => ?_
  split
  · rename_i h
    simp [h]
  · rename_i h
    simp [h, eq_comm (a := t)]

/-- What the transmit half can do: nothing without `TC`, else complete at the length or send the next
byte before it. -/
theorem txHalf_eq_next {c : Channel} {s t : State} :
    txHalf c s = .next t ↔
      ((s.uart c).sr.tc = false ∧ t = s) ∨
      ((s.uart c).sr.tc = true ∧ (s.uart c).ch.txIndex = (s.uart c).ch.txLen ∧
        tcComplete c s = .next t) ∨
      ((s.uart c).sr.tc = true ∧ (s.uart c).ch.txIndex ≠ (s.uart c).ch.txLen ∧
        tcNext c s = .next t) := by
  unfold txHalf tcBranch
  split
  · rename_i h
    split <;> rename_i h' <;> simp [h, h']
  · rename_i h
    simp [h, eq_comm (a := t)]

/-- What the receive half can do: nothing without `RXNE` and a receive in progress, else the receive
branch. -/
theorem rxHalf_eq_next {c : Channel} {s t : State} :
    rxHalf c s = .next t ↔
      (¬ ((s.uart c).sr.rxne = true ∧ (s.uart c).ch.rxBusy = true) ∧ t = s) ∨
      ((s.uart c).sr.rxne = true ∧ (s.uart c).ch.rxBusy = true ∧ rxBranch c s = .next t) := by
  unfold rxHalf
  split
  · rename_i h
    simp only [Bool.and_eq_true] at h
    simp [h]
  · rename_i h
    simp only [Bool.and_eq_true] at h
    simp only [h, not_false_eq_true, true_and, Host.Outcome.next.injEq, eq_comm (a := t)]
    exact ⟨.inl, fun h' => h'.elim id fun h' => absurd ⟨h'.1, h'.2.1⟩ h⟩

/-- What US.IRQ can do: the interrupt is pending, the two halves run in order, `pc` advances. -/
theorem execUsIrq_eq_next {c : Channel} {s t : State} :
    execUsIrq c s = .next t ↔
      irqPending (s.cfg.nvicEn.get c) (s.uart c) = true ∧
        ∃ u v, txHalf c s = .next u ∧ rxHalf c u = .next v ∧ t = v.advance 1 := by
  simp only [execUsIrq, andThen_eq_next, takeInterrupt_eq_next, handler]
  constructor
  · rintro ⟨v, ⟨hp, u, hu, hv⟩, ht⟩
    cases ht
    exact ⟨hp, u, v, hu, hv, rfl⟩
  · rintro ⟨hp, u, v, hu, hv, rfl⟩
    exact ⟨v, ⟨hp, u, hu, hv⟩, rfl⟩

end Sys2Proof.Machine
end

