-- ==== Sys2Proof/Laws/PerInstr.lean ====
section
/-!
SUPPORT. The statements made of every operation, one lemma per constructor of `Instr`.
-/

namespace Sys2Proof.Laws

/-- The encoding of an operation has as many words as its format says (30_encoding.md R92). -/
def EncodesWordCount.Statement (i : Instr) : Prop := (encode i).length = i.wordCount

theorem EncodesWordCount.nop : EncodesWordCount.Statement .nop := rfl

theorem EncodesWordCount.stbCmd (byte : Byte) : EncodesWordCount.Statement (.stbCmd byte) := rfl

theorem EncodesWordCount.stbChr (byte : Byte) : EncodesWordCount.Statement (.stbChr byte) := rfl

theorem EncodesWordCount.stbElow : EncodesWordCount.Statement .stbElow := rfl

theorem EncodesWordCount.lcdInit : EncodesWordCount.Statement .lcdInit := rfl

theorem EncodesWordCount.lcdWrite (text : Nat) (length : Nat) :
    EncodesWordCount.Statement (.lcdWrite text length) := rfl

theorem EncodesWordCount.lcdGoto (row col : Byte) :
    EncodesWordCount.Statement (.lcdGoto row col) := rfl

theorem EncodesWordCount.lcdClear : EncodesWordCount.Statement .lcdClear := rfl

theorem EncodesWordCount.lcdCmd (byte : Byte) : EncodesWordCount.Statement (.lcdCmd byte) := rfl

theorem EncodesWordCount.usInit (sel : Byte) (flags : InitFlags) (clock baud : Word) :
    EncodesWordCount.Statement (.usInit sel flags clock baud) := rfl

theorem EncodesWordCount.usSend (sel : Byte) (data : Nat) (length : Nat) :
    EncodesWordCount.Statement (.usSend sel data length) := rfl

theorem EncodesWordCount.usRecv (sel : Byte) (dest : Nat) (start length : Nat) :
    EncodesWordCount.Statement (.usRecv sel dest start length) := rfl

theorem EncodesWordCount.usSendb (sel byte : Byte) :
    EncodesWordCount.Statement (.usSendb sel byte) := rfl

theorem EncodesWordCount.usRecvb (sel : Byte) : EncodesWordCount.Statement (.usRecvb sel) := rfl

theorem EncodesWordCount.usRegcb (sel : Byte) (dir : Direction) (handler : Nat) :
    EncodesWordCount.Statement (.usRegcb sel dir handler) := rfl

theorem EncodesWordCount.lcdTick : EncodesWordCount.Statement .lcdTick := rfl

theorem EncodesWordCount.usIrq (channel : Channel) :
    EncodesWordCount.Statement (.usIrq channel) := rfl

theorem EncodesWordCount.hwTxdone (channel : Channel) :
    EncodesWordCount.Statement (.hwTxdone channel) := rfl

theorem EncodesWordCount.hwRxbyte (channel : Channel) (byte : Byte) :
    EncodesWordCount.Statement (.hwRxbyte channel byte) := rfl

end Sys2Proof.Laws
end

