-- ==== Sys2Proof/Tests/Slice0.lean ====
section
/-!
SUPPORT. Tests of the model's own: decoding of written-out words (30_encoding.md R107,
95_test_vectors.md 2.9), single steps with expected results from 95_test_vectors.md, and for each
statement with hypotheses a concrete state that meets them, clause by clause.
-/

namespace Sys2Proof.Tests

open Sys2Proof.Machine

/-! ### Helpers -/

/-- A part of the state a meaning leaves, or none where it stops. -/
def after {β : Type} (o : Result State) (f : State → β) : Option β :=
  match o with
  | .next t => some (f t)
  | .fault _ => none
  | .refused _ => none

/-- Why a meaning is refused, or none. -/
def refusal (o : Result State) : Option Refusal :=
  match o with
  | .refused r => some r
  | .next _ => none
  | .fault _ => none

/-- The fault of a meaning, or none. -/
def faultOf (o : Result State) : Option Fault :=
  match o with
  | .fault f => some f
  | .next _ => none
  | .refused _ => none

/-- Reset with the given words as script and the given bytes in memory. -/
def scripted (mem : Memory) (words : List Word) : State :=
  { State.reset with mem := mem, script := words }

/-- Reset with the bus inside a cycle of the command 0x38. -/
def asserted : State := State.reset.setBus (presentByte 0x38 false State.reset.bus)

/-- The sequencer after initialisation, with the given slots and index. -/
def operLcd (cur : Nat) (slots : List Slot) : Lcd :=
  { State.reset.lcd with
    life := .operational, isub := .done, delay := 19, cur := cur, slots := slots }

/-- Reset with the sequencer after initialisation. -/
def oper (cur : Nat) (slots : List Slot) : State := State.reset.setLcd (operLcd cur slots)

/-- The same inside a bus cycle. -/
def operUp (cur : Nat) (slots : List Slot) : State :=
  asserted.setLcd (operLcd cur slots)

/-- Reset with the sequencer initialising. -/
def initialising (isub : InitSub) (delay : Nat) (s : State) : State :=
  s.setLcd { s.lcd with life := .initializing, isub := isub, delay := delay }

/-- An occupied slot at Start. -/
def claimed (k : Kind) : Slot := ⟨true, k, .start⟩

/-- A table with the first three slots occupied. -/
def threeFull : State := oper 0 [claimed .clear, claimed .clear, claimed .clear, Slot.free]

/-- A table with every slot occupied. -/
def allFull : State :=
  oper 0 [claimed .clear, claimed .clear, claimed .clear, claimed .clear]

/-- A channel as reset leaves it. -/
def idleUart : Uart := State.reset.uarts.ch0

/-- A channel in the middle of both transfers, enabled and with both status bits set. -/
def busyUart : Uart :=
  { idleUart with
    ch := ⟨true, 1, 2, 0x1000, true, 1, 4, 0x2000⟩
    sr := ⟨true, true⟩
    cr := { idleUart.cr with tcie := true, rxneie := true }
    rdr := 0x5A }

/-- Reset with channel 0 replaced and two bytes of text in memory. -/
def withUart (u : Uart) : State :=
  { State.reset with
    uarts := State.reset.uarts.set .c0 u
    mem := [(0x1000, 0x4F), (0x1001, 0x4B)] }

/-- A state with one handler whose body is listed. -/
def withBody (h : Nat) (body : List CallbackAction) (s : State) : State :=
  { s with cfg := { s.cfg with cbBody := [(h, .listed body)] } }

/-! ### Well-formedness and decoding -/

theorem test_wf_refuses_parity_three :
    Instr.wf (.usInit 0 ⟨false, false, 3, true, true, false, false⟩ 16000000 9600) = false := by
  decide

theorem test_wf_refuses_text_above_word :
    Instr.wf (.lcdWrite 0x100000000 1) = false ∧ Instr.wf (.lcdWrite 0xFFFFFFFF 0x10000) = false ∧
      Instr.wf (.lcdWrite 0xFFFFFFFF 0xFFFF) = true := by decide

theorem test_wf_refuses_send_above_fields :
    Instr.wf (.usSend 0 0x100000000 1) = false ∧ Instr.wf (.usSend 0 1 0x10000) = false := by decide

theorem test_wf_refuses_recv_above_fields :
    Instr.wf (.usRecv 0 0x100000000 0 1) = false ∧ Instr.wf (.usRecv 0 1 0x10000 1) = false ∧
      Instr.wf (.usRecv 0 1 0 0x10000) = false := by decide

theorem test_wf_refuses_handler_above_word :
    Instr.wf (.usRegcb 0 .tx 0x100000000) = false := by decide

theorem test_wf_accepts_parity_two :
    Instr.wf (.usInit 0 ⟨false, false, 2, true, true, false, false⟩ 16000000 9600) = true := by
  decide

theorem test_decode_nop : decode [0x00000000] = .instr .nop := by decide

theorem test_decode_stbCmd : decode [0x01000038] = .instr (.stbCmd 0x38) := by decide

theorem test_decode_stbChr : decode [0x02000041] = .instr (.stbChr 0x41) := by decide

theorem test_decode_stbElow : decode [0x03000000] = .instr .stbElow := by decide

theorem test_decode_lcdInit : decode [0x10000000] = .instr .lcdInit := by decide

theorem test_decode_lcdWrite :
    decode [0x11000002, 0x00004000] = .instr (.lcdWrite 0x4000 2) := by decide

theorem test_decode_lcdGoto : decode [0x12010000] = .instr (.lcdGoto 1 0) := by decide

theorem test_decode_lcdClear : decode [0x13000000] = .instr .lcdClear := by decide

theorem test_decode_lcdCmd : decode [0x14000006] = .instr (.lcdCmd 0x06) := by decide

theorem test_decode_usInit :
    decode [0x2002005B, 0x007A1200, 0x00002580] =
      .instr (.usInit 2 ⟨true, true, 2, true, false, true, false⟩ 8000000 9600) := by decide

theorem test_decode_usSend :
    decode [0x2103FFFF, 0x00001000] = .instr (.usSend 3 0x1000 0xFFFF) := by decide

theorem test_decode_usRecv :
    decode [0x22010004, 0x00002000, 0x00000001] = .instr (.usRecv 1 0x2000 1 4) := by decide

theorem test_decode_usSendb : decode [0x23000055] = .instr (.usSendb 0 0x55) := by decide

theorem test_decode_usRecvb : decode [0x24020000] = .instr (.usRecvb 2) := by decide

theorem test_decode_usRegcb :
    decode [0x25010001, 0x00003100] = .instr (.usRegcb 1 .rx 0x3100) := by decide

theorem test_decode_lcdTick : decode [0x80000000] = .instr .lcdTick := by decide

theorem test_decode_usIrq : decode [0x90010000] = .instr (.usIrq .c1) := by decide

theorem test_decode_hwTxdone : decode [0xA0020000] = .instr (.hwTxdone .c2) := by decide

theorem test_decode_hwRxbyte : decode [0xA1010011] = .instr (.hwRxbyte .c1 0x11) := by decide

/-- The reserved words of 95_test_vectors.md 2.9, and the reserved parity. -/
theorem test_decode_illegal :
    decode [0x01000138] = .illegal ∧ decode [0x04000000] = .illegal ∧
      decode [0x12000100] = .illegal ∧ decode [0x25000002, 0x00003000] = .illegal ∧
      decode [0x90030000] = .illegal ∧
      decode [0x22010004, 0x00002000, 0x00010001] = .illegal ∧
      decode [0x2000000C, 0x00F42400, 0x00002580] = .illegal := by decide

theorem test_decode_truncated :
    decode [0x21000002] = .truncated ∧ decode [0x200000F0, 0x00F42400] = .truncated := by decide

/-- A table word of three words, as the opcode table numbers its bits. -/
theorem test_tableWord_usRecv :
    decodeTableWord 96 (0x22010004 + 0x00002000 * 2 ^ 32 + 0x00000001 * 2 ^ 64) =
      some (.usRecv 1 0x2000 1 4) := by decide

theorem test_tableWord_operand_zero : decodeTableWord 32 0x21000002 = some (.usSend 0 0 2) := by
  decide

theorem test_withFetchWord_runs :
    after (step (State.reset.withFetchWord 32 0x10000000)) (fun t => (t.lcd.life, t.pc)) =
      some (.initializing, 1) := by decide

/-! ### Unit STB -/

/-- Vector S1. -/
theorem test_stbCmd_presents :
    after (exec (.stbCmd 0x38) State.reset) (fun t => (t.bus.phase, t.bus.e, t.bus.rs, t.bus.d)) =
      some (true, true, false, 0x38) := by decide

/-- Vector S2: the second operand is ignored. -/
theorem test_stbCmd_latches :
    after (exec (.stbCmd 0xFF) asserted) (fun t => (t.bus.phase, t.bus.e, t.bus.latchLog)) =
      some (false, false, [⟨false, false, 0x38⟩]) := by decide

/-- Vector S7, first call. -/
theorem test_stbChr_presents :
    after (exec (.stbChr 0x30) State.reset) (fun t => (t.bus.e, t.bus.rs, t.bus.d)) =
      some (true, true, 0x30) := by decide

/-- Vector S3: a command is latched in command mode by a character call. -/
theorem test_stbChr_latches_what_is_presented :
    after (exec (.stbChr 0x41) asserted) (fun t => (t.bus.rs, t.bus.latchLog)) =
      some (false, [⟨false, false, 0x38⟩]) := by decide

/-- Vector S4: an `E` never driven logs nothing. -/
theorem test_stbElow_from_reset :
    after (exec .stbElow State.reset) (fun t => (t.bus.phase, t.bus.e, t.bus.latchLog)) =
      some (false, false, []) := by decide

/-- Vector S5: ELOW logs the latch and leaves the phase. -/
theorem test_stbElow_in_cycle :
    after (exec .stbElow asserted) (fun t => (t.bus.phase, t.bus.e, t.bus.latchLog)) =
      some (true, false, [⟨false, false, 0x38⟩]) := by decide

theorem test_nop_advances : after (exec .nop asserted) (fun t => (t.pc, t.bus)) =
    some (1, asserted.bus) := by decide

/-! ### The display sequencer -/

/-- Vector L1. -/
theorem test_lcdInit_starts :
    after (exec .lcdInit State.reset) (fun t => (t.lcd.life, t.lcd.isub, t.bus.pinsCfg)) =
      some (.initializing, .powerOn, true) := by decide

/-- Vector E2: the null check comes before the full table. -/
theorem test_lcdWrite_null :
    after (exec (.lcdWrite 0 3) allFull) (fun t => t.responses) =
      some [⟨.nullArgument, 0⟩] := by decide

/-- Vector E1, row 8. -/
theorem test_lcdWrite_full :
    after (exec (.lcdWrite 0x4000 3) allFull) (fun t => (t.responses, t.lcd)) =
      some ([⟨.bufferFull, 0⟩], allFull.lcd) := by decide

/-- Vector E3: (1, 15) is accepted. -/
theorem test_lcdGoto_corner :
    after (exec (.lcdGoto 1 15) State.reset) (fun t => t.lcd.slots[0]?) =
      some (some (claimed (.setPosition 1 15))) := by decide

/-- Vector E3: (0, 16) is not. -/
theorem test_lcdGoto_refused :
    after (exec (.lcdGoto 0 16) State.reset) (fun t => (t.responses, t.lcd)) =
      some ([⟨.invalidPosition, 0⟩], State.reset.lcd) := by decide

/-- Vector E1, row 4. -/
theorem test_lcdClear_last_slot :
    after (exec .lcdClear threeFull) (fun t => t.lcd.slots[3]?) =
      some (some (claimed .clear)) := by decide

theorem test_lcdCmd_payload :
    after (exec (.lcdCmd 0x06) State.reset) (fun t => t.lcd.slots[0]?) =
      some (some (claimed (.rawCommand 0x06))) := by decide

/-- Vector L6, tick 1: the address command of (1, 15). -/
theorem test_lcdTick_setPosition :
    after (exec .lcdTick (oper 0 [claimed (.setPosition 1 15)])) (fun t => (t.bus.rs, t.bus.d)) =
      some (false, 0xCF) := by decide

/-- Vector E5, tick 3: the reclaim skips the free slot. -/
theorem test_lcdTick_reclaim_skips :
    after
      (exec .lcdTick
        (oper 0 [⟨true, .done, .finished⟩, Slot.free, claimed (.rawCommand 0x06), Slot.free]))
      (fun t => (t.lcd.cur, t.lcd.slots[0]?)) =
      some (2, some ⟨false, .none, .finished⟩) := by decide

/-- Vector L10: an unreadable character faults. -/
theorem test_lcdTick_unreadable :
    faultOf (exec .lcdTick (oper 0 [⟨true, .write 0x5000 1, .inProgress⟩])) =
      some .bufferBounds := by decide

/-! ### Unit UBT -/

/-- 95_test_vectors.md 2.4: rows of the divisor table. -/
theorem test_baudDiv_rows :
    packBrr (baudDiv 16000000 9600 false).1 (baudDiv 16000000 9600 false).2 = 0x0682 ∧
      packBrr (baudDiv 16000000 9600 true).1 (baudDiv 16000000 9600 true).2 = 0x0D02 ∧
      packBrr (baudDiv 84000000 9600 false).1 (baudDiv 84000000 9600 false).2 = 0x222E ∧
      baudDiv 4294967295 1 false = (268435455, 14) := by decide

/-- 95_test_vectors.md 2.4: flags 0x5B on channel 2. -/
theorem test_usInit_fields :
    after
      (exec (.usInit 2 ⟨true, true, 2, true, false, true, false⟩ 8000000 9600) State.reset)
      (fun t => ((t.uart .c2).brr, (t.uart .c2).cr, (t.uart .c2).ieDesired)) =
      some (0x0681, ⟨true, true, 2, true, false, false, false, true⟩, ⟨true, false⟩) := by decide

/-- 95_test_vectors.md 2.4: baud 244 needs mantissa 4098. -/
theorem test_usInit_range :
    refusal
      (exec (.usInit 0 ⟨false, false, 0, true, true, true, true⟩ 16000000 244) State.reset) =
      some .baudRange := by decide

/-- Vector U11. -/
theorem test_usSend_accepted :
    after (exec (.usSend 0 0x1000 2) (withUart idleUart))
      (fun t => ((t.uart .c0).ch.txIndex, (t.uart .c0).txLog, (t.uart .c0).cr.tcie)) =
      some (1, [0x4F], false) := by decide

/-- Vectors U6 and U7: the channel before the reference, and length 0. -/
theorem test_usSend_checks :
    after (exec (.usSend 7 0 2) State.reset) (fun t => t.responses) =
        some [⟨.invalidChannel, 0⟩] ∧
      faultOf (exec (.usSend 0 0x1000 0) (withUart idleUart)) = some .bufferBounds := by decide

/-- Vector U14: the directions are independent. -/
theorem test_usRecv_accepted :
    after
      (exec (.usRecv 0 0x2000 0 2)
        (withUart { idleUart with ch := ⟨true, 1, 2, 0x1000, false, 0, 0, 0⟩ }))
      (fun t => (t.uart .c0).ch) =
      some ⟨true, 1, 2, 0x1000, true, 0, 2, 0x2000⟩ := by decide

/-- Vector U17: a later registration overwrites. -/
theorem test_usRegcb_overwrites :
    after (exec (.usRegcb 0 .tx 0x3004) (withUart { idleUart with cbTx := 0x3000 }))
      (fun t => ((t.uart .c0).cbTx, (t.uart .c0).cbRx)) = some (0x3004, 0) := by decide

/-- Vector B1, the issue step. -/
theorem test_usSendb_issue :
    after (exec (.usSendb 0 0x55) State.reset)
      (fun t => ((t.uart .c0).txLog, t.fgWait, t.responses)) =
      some ([0x55], .sendB .c0, []) := by decide

/-- Vector B1, the completion step. -/
theorem test_usSendb_completion :
    after (step ((withUart { idleUart with sr := ⟨true, false⟩ }).setFgWait (.sendB .c0)))
      (fun t => ((t.uart .c0).sr.tc, t.fgWait, t.responses)) =
      some (false, .none, [⟨.ok, 0⟩]) := by decide

/-- Vector B2, the completion step. -/
theorem test_usRecvb_completion :
    after
      (step ((withUart { idleUart with sr := ⟨false, true⟩, rdr := 0x7E }).setFgWait (.recvB .c0)))
      (fun t => ((t.uart .c0).sr.rxne, t.responses)) =
      some (false, [⟨.ok, 0x7E⟩]) := by decide

/-- Vector B5: the enable left set by a finished transfer makes the use mixed. -/
theorem test_usRecvb_mixed :
    refusal
      (exec (.usRecvb 0) (withUart { idleUart with cr := { idleUart.cr with tcie := true } })) =
      some .mixedBlockingAsync := by decide

/-- Program P2, step 6: the next byte is sent. -/
theorem test_usIrq_next_byte :
    after
      (exec (.usIrq .c0)
        (withUart { busyUart with sr := ⟨true, false⟩ }))
      (fun t => ((t.uart .c0).txLog, (t.uart .c0).ch.txIndex, (t.uart .c0).sr.tc)) =
      some ([0x4B], 2, false) := by decide

/-- Vector K3: the transmit branch with no busy guard, then the receive branch. -/
theorem test_usIrq_spurious_callback :
    after
      (exec (.usIrq .c0)
        (withUart
          { busyUart with
            ch := ⟨false, 0, 0, 0, true, 0, 2, 0x2000⟩, rdr := 0x11, cbTx := 0x3000
            cr := { idleUart.cr with rxneie := true } }))
      (fun t => (t.cbLog, memRead t.mem 0x2000, (t.uart .c0).ch.rxIndex)) =
      some ([⟨.c0, .tx, 0x3000, false, 0⟩], some 0x11, 1) := by decide

/-- Vector I8. -/
theorem test_hwTxdone_nothing_in_flight :
    refusal (exec (.hwTxdone .c0) State.reset) = some .noByteInFlight := by decide

theorem test_hwTxdone_sets_tc :
    after (exec (.hwTxdone .c0) (withUart { idleUart with txInflight := true }))
      (fun t => ((t.uart .c0).sr.tc, (t.uart .c0).txInflight)) = some (true, false) := by decide

/-- Vector I8. -/
theorem test_hwRxbyte_overrun :
    refusal (exec (.hwRxbyte .c0 2) (withUart { idleUart with sr := ⟨false, true⟩ })) =
      some .rxOverrun := by decide

theorem test_hwRxbyte_loads :
    after (exec (.hwRxbyte .c0 0x77) State.reset)
      (fun t => ((t.uart .c0).rdr, (t.uart .c0).sr.rxne)) = some (0x77, true) := by decide

/-- Vector B3: a foreground word while the foreground waits. -/
theorem test_step_blocked :
    refusal (step ((scripted [] [0x13000000]).setFgWait (.recvB .c2))) =
      some .foregroundBlocked := by decide

theorem test_step_script_ended : refusal (step State.reset) = some .scriptEnded := by decide

/-! ### The parameters and the callback bodies -/

/-- 00_scope.md R10: the defaults of SETPOS_CMD at the four corners and of RESULT_CODE. -/
theorem test_default_parameters :
    setposCmd Cfg.default 0 0 = 0x80 ∧ setposCmd Cfg.default 0 15 = 0x8F ∧
      setposCmd Cfg.default 1 0 = 0xC0 ∧ setposCmd Cfg.default 1 15 = 0xCF ∧
      codeValue Cfg.default .ok = 0 ∧ codeValue Cfg.default .nullArgument = 1 ∧
      codeValue Cfg.default .invalidPosition = 2 ∧ codeValue Cfg.default .invalidChannel = 3 ∧
      codeValue Cfg.default .bufferFull = 4 ∧ codeValue Cfg.default .busy = 5 := by decide

/-- 00_scope.md R10 and R12: an index of four bits wraps at 16, and a reference of eight bits at 256. -/
theorem test_narrow_widths :
    incIndex { Cfg.default with indexWidth := 4 } 15 = 0 ∧ incIndex Cfg.default 15 = 16 ∧
      elemAddr { Cfg.default with refWidth := 8 } 0xFF 1 = none ∧
      elemAddr { Cfg.default with refWidth := 8 } 0xFE 1 = some 0xFF := by decide

/-- Wider than the defaults (00_scope.md R10, R12; 20_memory.md R65): with INDEX_WIDTH 20 an index passes
0xFFFF and wraps at 2^20, with REF_WIDTH 40 an element lies above 2^32. -/
theorem test_widths_above_defaults :
    incIndex { Cfg.default with indexWidth := 20 } 0xFFFF = 0x10000 ∧
      incIndex { Cfg.default with indexWidth := 20 } 0xFFFFF = 0 ∧
      elemAddr { Cfg.default with refWidth := 40 } 0xFFFFFFFF 1 = some 0x100000000 ∧
      elemAddr { Cfg.default with refWidth := 40 } 0xFFFFFFFFFF 1 = none := by decide

/-- A receive at those widths (42_serial_submission.md R176): the bank holds 20-bit and 40-bit values. -/
theorem test_recv_above_default_widths :
    after (exec (.usRecv 0 0x9000000000 0x80000 0xF0000)
        { State.reset with cfg := { Cfg.default with indexWidth := 20, refWidth := 40 } })
      (fun t => (t.uarts.ch0.ch.rxIndex, t.uarts.ch0.ch.rxLen, t.uarts.ch0.ch.rxBuffer)) =
      some (0x80000, 0xF0000, 0x9000000000) := by decide

/-- 00_scope.md R10: another null reference makes 0 an ordinary one. -/
theorem test_other_null_reference :
    after
      (exec (.lcdWrite 0 3)
        { State.reset with cfg := { State.reset.cfg with nullRef := 0xFFFFFFFF } })
      (fun t => t.responses) = some [⟨.ok, 0⟩] := by decide

/-- A finished transmit of channel 0 whose callback does what is listed. -/
def calling (body : List CallbackAction) : State :=
  withBody 0x3000 body
    (withUart
      { idleUart with
        ch := ⟨true, 2, 2, 0x1000, false, 0, 0, 0⟩
        sr := ⟨true, false⟩
        cr := { idleUart.cr with tcie := true }
        cbTx := 0x3000 })

/-- 60_exceptions.md R254: a body may start the display, drive the bus and store into memory; its codes
are not the foreground's. -/
theorem test_callback_body_acts :
    after (exec (.usIrq .c0) (calling [.lcdInit, .stbCmd 0x38, .store 0x1000 0x21]))
      (fun t => (t.lcd.life, t.bus.d, memRead t.mem 0x1000, t.responses)) =
      some (.initializing, 0x38, some 0x21, []) := by decide

/-- 42_serial_submission.md R182 and 60_exceptions.md R254: a blocking call in a body completes where its
flag is set already, and never returns where it is not. -/
theorem test_callback_blocking :
    after
      (exec (.usIrq .c0)
        { calling [.recvb 1] with
          uarts := (calling []).uarts.set .c1 { idleUart with sr := ⟨false, true⟩ } })
      (fun t => ((t.uart .c1).sr.rxne, t.fgWait)) = some (false, .none) ∧
      refusal (exec (.usIrq .c0) (calling [.recvb 1])) = some .callbackHangs := by decide

/-! ### Witnesses: states that meet the hypotheses of the statements -/

/-- A channel in the middle of a transmit, its byte reported sent, with the interrupt enabled. -/
def txUart (idx len : Nat) (buf : Nat) : Uart :=
  { idleUart with
    ch := ⟨true, idx, len, buf, false, 0, 0, 0⟩
    sr := ⟨true, false⟩
    cr := { idleUart.cr with tcie := true } }

/-- A channel in the middle of a receive, a byte received, with the interrupt enabled. -/
def rxUart (idx len : Nat) (buf : Nat) : Uart :=
  { idleUart with
    ch := ⟨false, 0, 0, 0, true, idx, len, buf⟩
    sr := ⟨false, true⟩
    cr := { idleUart.cr with rxneie := true }
    rdr := 0x11 }

/-- A Write of the two characters at 0x1000, in progress, at character `widx`. -/
def writing (text : Nat) (length : Nat) (p : Progress) (widx : Nat) : State :=
  { (oper 0 [⟨true, .write text length, p⟩, Slot.free]) with
    lcd := setWidx (operLcd 0 [⟨true, .write text length, p⟩, Slot.free]) widx
    mem := [(0x1000, 0x4F), (0x1001, 0x4B), (0xFFFFFFFF, 0x41)] }

/-- The fourth slot of `threeFull` is the lowest free one. -/
theorem threeFull_lowest_free :
    threeFull.lcd.slots[3]? = some Slot.free ∧
      ∀ j y, j < 3 → threeFull.lcd.slots[j]? = some y → y.occupied = true := by
  refine ⟨by decide, fun j y hj hy => ?_⟩
  obtain rfl | rfl | rfl : j = 0 ∨ j = 1 ∨ j = 2 := by omega
  all_goals exact (Option.some.inj hy) ▸ rfl

/-- At reset the first slot is the lowest free one. -/
theorem reset_lowest_free :
    State.reset.lcd.slots[0]? = some Slot.free ∧
      ∀ j y, j < 0 → State.reset.lcd.slots[j]? = some y → y.occupied = true :=
  ⟨by decide, fun _ _ h => absurd h (Nat.not_lt_zero _)⟩

theorem allFull_full : ∀ x ∈ allFull.lcd.slots, x.occupied = true := by decide

theorem witness_StbCmdDrivesOneCall :
    State.reset.bus.phase = false ∧ asserted.bus.phase = true := by decide

theorem witness_StbChrDrivesOneCall :
    State.reset.bus.phase = false ∧ asserted.bus.phase = true := by decide

theorem witness_StbElowDropsEnable :
    (asserted.bus.eDriven = true ∧ asserted.bus.e = true) ∧
      ¬ (State.reset.bus.eDriven = true ∧ State.reset.bus.e = true) := by decide

theorem witness_TwoStrobeCallsPerByte : State.reset.bus.phase = false := by decide

theorem witness_LcdInitStartsOnlyFromOff :
    State.reset.lcd.life = .off ∧ threeFull.lcd.life ≠ .off := by decide

/-- Clauses of LCD.WRITE: a null text; a free slot at index 0 and at index 3; a full table. -/
theorem witness_LcdWriteClaimsLowestFreeSlot :
    (fitRef State.reset.cfg 0 = State.reset.cfg.nullRef ∧
        fitRef allFull.cfg 0x4000 ≠ allFull.cfg.nullRef ∧ fitIndex allFull.cfg 0xFFFF = 0xFFFF) ∧
      (State.reset.lcd.slots[0]? = some Slot.free ∧ Slot.free.occupied = false) ∧
      (threeFull.lcd.slots[3]? = some Slot.free ∧
        ∀ j y, j < 3 → threeFull.lcd.slots[j]? = some y → y.occupied = true) ∧
      ∀ x ∈ allFull.lcd.slots, x.occupied = true :=
  ⟨by decide, by decide, threeFull_lowest_free, allFull_full⟩

/-- Clauses of LCD.GOTO at the edges of the position check: (1, 15) in, (2, 15) and (1, 16) out. -/
theorem witness_LcdGotoChecksThenClaims :
    ((1 : Byte).toNat ≤ 1 ∧ (15 : Byte).toNat ≤ 15) ∧
      (1 < (2 : Byte).toNat ∨ 15 < (15 : Byte).toNat) ∧
      (1 < (1 : Byte).toNat ∨ 15 < (16 : Byte).toNat) ∧
      (threeFull.lcd.slots[3]? = some Slot.free ∧
        ∀ j y, j < 3 → threeFull.lcd.slots[j]? = some y → y.occupied = true) ∧
      ∀ x ∈ allFull.lcd.slots, x.occupied = true :=
  ⟨by decide, by decide, by decide, threeFull_lowest_free, allFull_full⟩

theorem witness_LcdClearClaimsLowestFreeSlot :
    (State.reset.lcd.slots[0]? = some Slot.free ∧
        ∀ j y, j < 0 → State.reset.lcd.slots[j]? = some y → y.occupied = true) ∧
      ∀ x ∈ allFull.lcd.slots, x.occupied = true :=
  ⟨reset_lowest_free, allFull_full⟩

theorem witness_LcdCmdClaimsLowestFreeSlot :
    (threeFull.lcd.slots[3]? = some Slot.free ∧
        ∀ j y, j < 3 → threeFull.lcd.slots[j]? = some y → y.occupied = true) ∧
      ∀ x ∈ allFull.lcd.slots, x.occupied = true :=
  ⟨threeFull_lowest_free, allFull_full⟩

theorem witness_TickIdlesWhenOffOrEmpty :
    State.reset.lcd.life = .off ∧
      (oper 0 [Slot.free]).lcd.life = .operational ∧
      (oper 0 [Slot.free]).lcd.slots[(oper 0 [Slot.free]).lcd.cur]? = some Slot.free ∧
      Slot.free.kind = .none := by decide

/-- Each arm of the init machine, with the counter one below and at INIT_DELAY_TICKS, and both
phases. -/
theorem witness_TickRunsInitSubStates :
    ((initialising .powerOn 0 State.reset).lcd.life = .initializing ∧
        (initialising .powerOn 0 State.reset).lcd.isub = .powerOn) ∧
      ((initialising .functionSet 18 State.reset).lcd.isub = .functionSet ∧
        (initialising .functionSet 18 State.reset).lcd.delay <
          (initialising .functionSet 18 State.reset).cfg.initDelayTicks) ∧
      ((initialising .functionSet 19 State.reset).cfg.initDelayTicks ≤
          (initialising .functionSet 19 State.reset).lcd.delay ∧
        (initialising .functionSet 19 State.reset).bus.phase = false) ∧
      ((initialising .displayControl 19 asserted).lcd.isub = .displayControl ∧
        (initialising .displayControl 19 asserted).bus.phase = true) ∧
      (initialising .displayClear 19 asserted).lcd.isub = .displayClear ∧
      (initialising .done 19 State.reset).lcd.isub = .done := by decide

/-- The clauses of a Write tick: the Start tick, the end test at length 0 and 2, the last character of
memory at address 2^32 - 1, and each reason for the fault. -/
theorem witness_TickServesWrite :
    ((writing 0x1000 2 .start 7).lcd.life = .operational ∧
        (writing 0x1000 2 .start 7).lcd.slots[0]? = some ⟨true, .write 0x1000 2, .start⟩) ∧
      ((writing 0x1000 0 .inProgress 0).lcd.widx = 0 ∧
        (writing 0x1000 2 .inProgress 2).lcd.widx = 2) ∧
      ((writing 0xFFFFFFFF 1 .inProgress 0).lcd.widx < (1 : Nat) ∧
        (0xFFFFFFFF : Nat) ≠ (writing 0xFFFFFFFF 1 .inProgress 0).cfg.nullRef ∧
        (0xFFFFFFFF : Nat) + (writing 0xFFFFFFFF 1 .inProgress 0).lcd.widx <
          2 ^ (writing 0xFFFFFFFF 1 .inProgress 0).cfg.refWidth ∧
        memRead (writing 0xFFFFFFFF 1 .inProgress 0).mem
          ((0xFFFFFFFF : Nat) + (writing 0xFFFFFFFF 1 .inProgress 0).lcd.widx) =
            some 0x41) ∧
      ((writing 0x1000 2 .inProgress 3).lcd.widx ≠ 2 ∧
        (2 : Nat) ≤ (writing 0x1000 2 .inProgress 3).lcd.widx) ∧
      2 ^ (writing 0xFFFFFFFF 2 .inProgress 1).cfg.refWidth ≤
        (0xFFFFFFFF : Nat) + (writing 0xFFFFFFFF 2 .inProgress 1).lcd.widx ∧
      memRead (writing 0x5000 1 .inProgress 0).mem
        ((0x5000 : Nat) + (writing 0x5000 1 .inProgress 0).lcd.widx) = none := by
  decide

/-- The three command kinds, in both phases; the address command of (1, 15). -/
theorem witness_TickServesCommandKinds :
    ((oper 0 [claimed .clear]).lcd.life = .operational ∧
        (oper 0 [claimed .clear]).lcd.slots[0]? = some (claimed .clear) ∧
        (oper 0 [claimed .clear]).bus.phase = false) ∧
      ((operUp 0 [claimed (.rawCommand 6)]).lcd.slots[0]? = some (claimed (.rawCommand 6)) ∧
        (operUp 0 [claimed (.rawCommand 6)]).bus.phase = true) ∧
      (operUp 0 [claimed (.setPosition 1 15)]).lcd.slots[0]? = some (claimed (.setPosition 1 15)) ∧
      (0xCF : Byte) = setposCmd (operUp 0 [claimed (.setPosition 1 15)]).cfg 1 15 := by
  decide

/-- A finished slot at index 0: another request waits at index 2; none waits. -/
theorem witness_TickReclaimsThenSelectsLowest :
    (∃ s : State, s.lcd.life = .operational ∧
        s.lcd.slots[s.lcd.cur]? = some ⟨true, .done, .finished⟩ ∧ 2 ≠ s.lcd.cur ∧
        s.lcd.slots[2]? = some (claimed .clear) ∧
        ∀ j z, j < 2 → j ≠ s.lcd.cur → s.lcd.slots[j]? = some z → z.occupied = false) ∧
      ∃ s : State, s.lcd.life = .operational ∧
        s.lcd.slots[s.lcd.cur]? = some ⟨true, .done, .finished⟩ ∧
        ∀ i y, i ≠ s.lcd.cur → s.lcd.slots[i]? = some y → y.occupied = false := by
  refine ⟨⟨oper 0 [⟨true, .done, .finished⟩, Slot.free, claimed .clear], by decide, by decide,
    by decide, by decide, fun j z hj hc hz => ?_⟩,
    ⟨oper 0 [⟨true, .done, .finished⟩, Slot.free], by decide, by decide, fun i y hc hy => ?_⟩⟩
  · obtain rfl | rfl : j = 0 ∨ j = 1 := by omega
    · exact absurd rfl hc
    · exact (Option.some.inj hz) ▸ rfl
  · match i, hc, hy with
    | 0, hc, _ => exact absurd rfl hc
    | 1, _, hy => exact (Option.some.inj hy) ▸ rfl
    | _ + 2, _, hy => exact absurd hy (by simp [oper, operLcd, State.setLcd])

theorem witness_InitialisationTakesDelayPlusEightTicks :
    (initialising .powerOn 0 State.reset).lcd.life = .initializing ∧
      (initialising .powerOn 0 State.reset).lcd.isub = .powerOn ∧
      (initialising .powerOn 0 State.reset).lcd.delay = 0 ∧
      (initialising .powerOn 0 State.reset).bus.phase = false ∧
      ((initialising .powerOn 0 State.reset).bus.eDriven = true →
        (initialising .powerOn 0 State.reset).bus.e = false) := by decide

/-- Two characters; and one character at the last address of memory. -/
theorem witness_WriteTakesTwoTicksPerCharacterPlusThree :
    ((writing 0x1000 2 .start 0).lcd.life = .operational ∧
      (writing 0x1000 2 .start 0).lcd.slots[(writing 0x1000 2 .start 0).lcd.cur]? =
        some ⟨true, .write 0x1000 2, .start⟩ ∧
      (writing 0x1000 2 .start 0).bus.phase = false ∧
      (0x1000 : Nat) ≠ (writing 0x1000 2 .start 0).cfg.nullRef ∧
      ([0x4F, 0x4B] : List Byte).length = (2 : Nat) ∧
      (2 : Nat) < 2 ^ (writing 0x1000 2 .start 0).cfg.indexWidth ∧
      (0x1000 : Nat) + (2 : Nat) ≤ 2 ^ (writing 0x1000 2 .start 0).cfg.refWidth ∧
      ∀ k b, ([0x4F, 0x4B] : List Byte)[k]? = some b →
        memRead (writing 0x1000 2 .start 0).mem ((0x1000 : Nat) + k) = some b) ∧
      (0xFFFFFFFF : Nat) + (1 : Nat) ≤
        2 ^ (writing 0xFFFFFFFF 1 .start 0).cfg.refWidth := by
  refine ⟨⟨by decide, by decide, by decide, by decide, by decide, by decide, by decide,
    fun k b h => ?_⟩, by decide⟩
  match k, h with
  | 0, h => exact (Option.some.inj h) ▸ by decide
  | 1, h => exact (Option.some.inj h) ▸ by decide
  | _ + 2, h => exact absurd h (by simp)

theorem witness_CommandKindsTakeThreeTicks :
    (oper 0 [claimed (.rawCommand 6)]).lcd.life = .operational ∧
      (oper 0 [claimed (.rawCommand 6)]).lcd.slots[0]? = some (claimed (.rawCommand 6)) ∧
      (claimed (.rawCommand 6)).occupied = true ∧
      (oper 0 [claimed (.rawCommand 6)]).bus.phase = false ∧
      (claimed (.setPosition 1 15)).kind = .setPosition 1 15 ∧
      (claimed .clear).kind = .clear := by decide

/-- The clauses of US.INIT: parity 3 and 2, an unknown selector, baud 0, and mantissas on both sides of
4096 (baud 245 and 244 at 16 MHz). -/
theorem witness_UsInitProgramsTheChannel :
    ((⟨false, false, 3, true, true, true, true⟩ : InitFlags).parity = 3 ∧
        (⟨false, false, 2, true, true, true, true⟩ : InitFlags).parity ≠ 3) ∧
      (resolve State.reset.cfg 7 = none ∧ resolve State.reset.cfg 2 = some .c2) ∧
      ((245 : Word) ≠ 0 ∧ 16000000 * 1000 / (245 * 16) / 1000 < 4096) ∧
      ((244 : Word) ≠ 0 ∧ 4096 ≤ 16000000 * 1000 / (244 * 16) / 1000) := by decide

/-- The clauses of US.SEND: unknown selector, null data, busy, empty length, unreadable data, a byte in
flight, and an accepted send from the last address of memory. -/
theorem witness_UsSendStartsTransfer :
    (resolve State.reset.cfg 3 = none ∧ resolve State.reset.cfg 0 = some .c0) ∧
      (fitRef State.reset.cfg 0 = State.reset.cfg.nullRef ∧
        fitRef (withUart (txUart 1 2 0x1000)).cfg 0x1000 ≠
          (withUart (txUart 1 2 0x1000)).cfg.nullRef ∧
        ((withUart (txUart 1 2 0x1000)).uarts.get .c0).ch.txBusy = true) ∧
      (((withUart idleUart).uarts.get .c0).ch.txBusy = false ∧
        fitIndex (withUart idleUart).cfg 0 = 0 ∧
        memRead (withUart idleUart).mem (fitRef (withUart idleUart).cfg 0x1002) = none) ∧
      (memRead (withUart idleUart).mem (fitRef (withUart idleUart).cfg 0x1001) = some 0x4B ∧
        fitIndex (withUart idleUart).cfg 1 ≠ 0 ∧
        ((withUart idleUart).uarts.get .c0).txInflight = false ∧
        ((withUart { idleUart with txInflight := true }).uarts.get .c0).txInflight = true) ∧
      memRead (writing 0 0 .start 0).mem (0xFFFFFFFF : Nat) = some 0x41 := by decide

theorem witness_UsRecvStartsTransfer :
    (resolve State.reset.cfg 3 = none ∧ resolve State.reset.cfg 0 = some .c0) ∧
      fitRef State.reset.cfg 0 = State.reset.cfg.nullRef ∧
      fitRef State.reset.cfg 0xFFFFFFFF ≠ State.reset.cfg.nullRef ∧
      ((withUart (rxUart 0 2 0x2000)).uarts.get .c0).ch.rxBusy = true ∧
      (State.reset.uarts.get .c0).ch.rxBusy = false := by decide

theorem witness_UsRegcbOverwritesEntry :
    resolve State.reset.cfg 0xFF = none ∧ resolve State.reset.cfg 1 = some .c1 ∧
      fitRef State.reset.cfg 0 = State.reset.cfg.nullRef ∧
      fitRef State.reset.cfg 0x3000 ≠ State.reset.cfg.nullRef := by decide

/-- The issue clauses of US.SENDB (unknown channel, each kind of asynchronous activity, a byte in
flight, idle) and its completion. -/
theorem witness_UsSendbIssuesThenCompletes :
    (resolve State.reset.cfg 3 = none ∧ resolve State.reset.cfg 0 = some .c0) ∧
      ((txUart 1 2 0x1000).ch.txBusy = true ∧ (rxUart 0 2 0x2000).ch.rxBusy = true ∧
        (txUart 1 2 0x1000).cr.tcie = true ∧ (rxUart 0 2 0x2000).cr.rxneie = true) ∧
      (idleUart.ch.txBusy = false ∧ idleUart.ch.rxBusy = false ∧ idleUart.cr.tcie = false ∧
        idleUart.cr.rxneie = false ∧ idleUart.txInflight = false) ∧
      (({ idleUart with txInflight := true } : Uart).txInflight = true) ∧
      ((withUart { idleUart with sr := ⟨true, false⟩ }).setFgWait (.sendB .c0)).fgWait = .sendB .c0 ∧
      (((withUart { idleUart with sr := ⟨true, false⟩ }).setFgWait (.sendB .c0)).uarts.get
        .c0).sr.tc = true := by decide

theorem witness_UsRecvbIssuesThenCompletes :
    (resolve State.reset.cfg 3 = none ∧ resolve State.reset.cfg 0 = some .c0) ∧
      ((txUart 1 2 0x1000).ch.txBusy = true ∧ (rxUart 0 2 0x2000).cr.rxneie = true) ∧
      (idleUart.ch.txBusy = false ∧ idleUart.ch.rxBusy = false ∧ idleUart.cr.tcie = false ∧
        idleUart.cr.rxneie = false) ∧
      ((withUart { idleUart with sr := ⟨false, true⟩ }).setFgWait (.recvB .c0)).fgWait = .recvB .c0 ∧
      (((withUart { idleUart with sr := ⟨false, true⟩ }).setFgWait (.recvB .c0)).uarts.get
        .c0).sr.rxne = true := by decide

theorem witness_TxdoneReportsByteSent :
    ((withUart { idleUart with txInflight := true }).uarts.get .c0).txInflight = true ∧
      (State.reset.uarts.get .c2).txInflight = false := by decide

theorem witness_RxbyteLoadsByte :
    (State.reset.uarts.get .c1).sr.rxne = false ∧
      ((withUart (rxUart 0 2 0x2000)).uarts.get .c0).sr.rxne = true := by decide

/-- Not pending at reset; and a set and enabled source on a line that is not routed. -/
theorem witness_IrqRefusedUnlessPending :
    (((State.reset.uarts.get .c0).sr.tc = false ∨ (State.reset.uarts.get .c0).cr.tcie = false) ∧
        ((State.reset.uarts.get .c0).sr.rxne = false ∨
          (State.reset.uarts.get .c0).cr.rxneie = false)) ∧
      ({ Cfg.default with nvicEn := PerChannel.all false } : Cfg).nvicEn.get .c1 = false := by decide

/-- The hypotheses and each clause of the next-byte interrupt: not busy, index past the length, null
buffer, address past the end, unreadable byte, and a byte to send (first from 0x1001, then from the
last address), with and without a byte in flight. -/
theorem witness_IrqSendsNextByte :
    ((withUart (txUart 1 2 0x1000)).cfg = Cfg.default ∧ Cfg.default.nvicEn.get .c0 = true ∧
        (txUart 1 2 0x1000).sr.tc = true ∧ (txUart 1 2 0x1000).cr.tcie = true ∧
        (txUart 1 2 0x1000).sr.rxne = false ∧
        (txUart 1 2 0x1000).ch.txIndex ≠ (txUart 1 2 0x1000).ch.txLen ∧
        (txUart 1 2 0x1000).ch.txBusy = true ∧
        (txUart 1 2 0x1000).ch.txIndex < (txUart 1 2 0x1000).ch.txLen ∧
        (txUart 1 2 0x1000).ch.txBuffer ≠ Cfg.default.nullRef ∧
        (txUart 1 2 0x1000).ch.txBuffer + (txUart 1 2 0x1000).ch.txIndex <
          2 ^ Cfg.default.refWidth ∧
        memRead (withUart (txUart 1 2 0x1000)).mem
          ((txUart 1 2 0x1000).ch.txBuffer + (txUart 1 2 0x1000).ch.txIndex) =
            some 0x4B ∧
        (txUart 1 2 0x1000).txInflight = false) ∧
      ({ txUart 1 0 0x1000 with ch := ⟨false, 1, 0, 0x1000, false, 0, 0, 0⟩ } : Uart).ch.txBusy =
        false ∧
      (txUart 3 2 0x1000).ch.txLen < (txUart 3 2 0x1000).ch.txIndex ∧
      (txUart 1 2 0).ch.txBuffer = Cfg.default.nullRef ∧
      2 ^ Cfg.default.refWidth ≤
        (txUart 1 2 0xFFFFFFFF).ch.txBuffer + (txUart 1 2 0xFFFFFFFF).ch.txIndex ∧
      memRead (withUart (txUart 2 3 0x1000)).mem
        ((txUart 2 3 0x1000).ch.txBuffer + (txUart 2 3 0x1000).ch.txIndex) = none ∧
      (txUart 1 2 0xFFFFFFFE).ch.txBuffer + (txUart 1 2 0xFFFFFFFE).ch.txIndex <
        2 ^ Cfg.default.refWidth ∧
      ({ txUart 1 2 0x1000 with txInflight := true } : Uart).txInflight = true := by decide

/-- A finished transmit with a log-only callback. -/
theorem witness_IrqCompletesTransmit :
    (withUart { txUart 2 2 0x1000 with cbTx := 0x3000 }).cfg.nvicEn.get .c0 = true ∧
      (txUart 2 2 0x1000).sr.tc = true ∧ (txUart 2 2 0x1000).cr.tcie = true ∧
      (txUart 2 2 0x1000).sr.rxne = false ∧
      (txUart 2 2 0x1000).ch.txIndex = (txUart 2 2 0x1000).ch.txLen ∧
      bodyOf (withUart { txUart 2 2 0x1000 with cbTx := 0x3000 }).cfg 0x3000 = .listed [] := by decide

/-- A receive of two bytes at its first; and the three reasons for the fault. -/
theorem witness_IrqStoresReceivedByte :
    ((withUart (rxUart 0 2 0x2000)).cfg = Cfg.default ∧ Cfg.default.nvicEn.get .c0 = true ∧
        (rxUart 0 2 0x2000).sr.tc = false ∧ (rxUart 0 2 0x2000).sr.rxne = true ∧
        (rxUart 0 2 0x2000).cr.rxneie = true ∧ (rxUart 0 2 0x2000).ch.rxBusy = true ∧
        (rxUart 0 2 0x2000).ch.rxIndex + 1 < (rxUart 0 2 0x2000).ch.rxLen ∧
        (rxUart 0 2 0x2000).ch.rxBuffer ≠ Cfg.default.nullRef ∧
        (rxUart 0 2 0x2000).ch.rxBuffer + (rxUart 0 2 0x2000).ch.rxIndex <
          2 ^ Cfg.default.refWidth) ∧
      (rxUart 2 2 0x2000).ch.rxLen ≤ (rxUart 2 2 0x2000).ch.rxIndex ∧
      (rxUart 0 2 0).ch.rxBuffer = Cfg.default.nullRef ∧
      2 ^ Cfg.default.refWidth ≤
        (rxUart 1 3 0xFFFFFFFF).ch.rxBuffer + (rxUart 1 3 0xFFFFFFFF).ch.rxIndex := by
  decide

/-- The last byte of a receive, at the last address of memory. -/
theorem witness_IrqCompletesReceive :
    (withUart (rxUart 1 2 0xFFFFFFFE)).cfg = Cfg.default ∧ Cfg.default.nvicEn.get .c0 = true ∧
      (rxUart 1 2 0xFFFFFFFE).sr.tc = false ∧ (rxUart 1 2 0xFFFFFFFE).sr.rxne = true ∧
      (rxUart 1 2 0xFFFFFFFE).cr.rxneie = true ∧ (rxUart 1 2 0xFFFFFFFE).ch.rxBusy = true ∧
      (rxUart 1 2 0xFFFFFFFE).ch.rxIndex + 1 = (rxUart 1 2 0xFFFFFFFE).ch.rxLen ∧
      (rxUart 1 2 0xFFFFFFFE).ch.rxLen < 2 ^ Cfg.default.indexWidth ∧
      (rxUart 1 2 0xFFFFFFFE).ch.rxBuffer ≠ Cfg.default.nullRef ∧
      (rxUart 1 2 0xFFFFFFFE).ch.rxBuffer + (rxUart 1 2 0xFFFFFFFE).ch.rxIndex <
        2 ^ Cfg.default.refWidth ∧
      (rxUart 1 2 0xFFFFFFFE).cbRx = Cfg.default.nullRef := by decide

/-- Both transfers at their end, both bits set, both callbacks registered. -/
def endingUart : Uart :=
  { busyUart with ch := ⟨true, 2, 2, 0x1000, true, 1, 2, 0x2000⟩, cbTx := 0x3000, cbRx := 0x3100 }

/-- No transmit in progress and no callback, both bits set, a receive at its first byte of two. -/
def spuriousUart : Uart :=
  { busyUart with
    ch := ⟨false, 0, 0, 0, true, 0, 2, 0x2000⟩
    cr := { idleUart.cr with rxneie := true } }

/-- The last byte of a receive beside a busy transmit, both callbacks log-only; and a byte in the middle
of a receive with no transmit and no callback (vector K3 without its callback). -/
theorem witness_IrqRunsBothBranchesTransmitFirst :
    ((withUart endingUart).cfg = Cfg.default ∧ Cfg.default.nvicEn.get .c0 = true ∧
        endingUart.sr.tc = true ∧ endingUart.sr.rxne = true ∧
        (endingUart.cr.tcie = true ∨ endingUart.cr.rxneie = true) ∧
        endingUart.ch.txIndex = endingUart.ch.txLen ∧ endingUart.ch.rxBusy = true ∧
        endingUart.ch.rxIndex + 1 ≤ endingUart.ch.rxLen ∧
        endingUart.ch.rxLen < 2 ^ Cfg.default.indexWidth ∧
        endingUart.ch.rxBuffer ≠ Cfg.default.nullRef ∧
        endingUart.ch.rxBuffer + endingUart.ch.rxIndex < 2 ^ Cfg.default.refWidth ∧
        true = decide (endingUart.ch.rxIndex + 1 = endingUart.ch.rxLen) ∧
        bodyOf Cfg.default endingUart.cbTx = .listed [] ∧
        bodyOf Cfg.default endingUart.cbRx = .listed []) ∧
      ((withUart spuriousUart).cfg = Cfg.default ∧ spuriousUart.sr.tc = true ∧
        spuriousUart.sr.rxne = true ∧ spuriousUart.cr.rxneie = true ∧
        spuriousUart.ch.txIndex = spuriousUart.ch.txLen ∧ spuriousUart.ch.rxBusy = true ∧
        spuriousUart.ch.rxIndex + 1 ≤ spuriousUart.ch.rxLen ∧
        spuriousUart.ch.rxLen < 2 ^ Cfg.default.indexWidth ∧
        spuriousUart.ch.rxBuffer ≠ Cfg.default.nullRef ∧
        spuriousUart.ch.rxBuffer + spuriousUart.ch.rxIndex < 2 ^ Cfg.default.refWidth ∧
        false = decide (spuriousUart.ch.rxIndex + 1 = spuriousUart.ch.rxLen) ∧
        spuriousUart.cbTx = Cfg.default.nullRef) := by decide

/-- The hypotheses of the next statement that do not depend on where the receive is. -/
def midHypotheses (u : Uart) : Prop :=
  (withUart u).cfg = Cfg.default ∧ u.sr = ⟨true, true⟩ ∧
    (u.cr.tcie = true ∨ u.cr.rxneie = true) ∧ u.ch.txBusy = true ∧ u.txInflight = false ∧
    u.ch.txIndex < u.ch.txLen ∧ u.ch.txLen < 2 ^ Cfg.default.indexWidth ∧
    u.ch.txBuffer ≠ Cfg.default.nullRef ∧
    u.ch.txBuffer + u.ch.txIndex < 2 ^ Cfg.default.refWidth ∧
    memRead (withUart u).mem (u.ch.txBuffer + u.ch.txIndex) = some 0x4B ∧
    u.ch.rxBusy = true ∧ u.ch.rxIndex + 1 ≤ u.ch.rxLen ∧
    u.ch.rxLen < 2 ^ Cfg.default.indexWidth ∧ u.ch.rxBuffer ≠ Cfg.default.nullRef ∧
    u.ch.rxBuffer + u.ch.rxIndex < 2 ^ Cfg.default.refWidth

/-- A receive in its middle; and one at its last byte, with a log-only callback. -/
theorem witness_IrqServesBothDirectionsMidTransfer :
    (midHypotheses busyUart ∧
        false = decide (busyUart.ch.rxIndex + 1 = busyUart.ch.rxLen)) ∧
      (midHypotheses
          { busyUart with ch := ⟨true, 1, 2, 0x1000, true, 3, 4, 0x2000⟩, cbRx := 0x3100 } ∧
        true = decide ((3 : Nat) + 1 = (4 : Nat)) ∧
        bodyOf Cfg.default 0x3100 = .listed []) := by
  unfold midHypotheses
  decide

/-- A received byte on an enabled channel with no receive in progress. -/
def strayUart : Uart :=
  { idleUart with sr := ⟨false, true⟩, cr := { idleUart.cr with rxneie := true } }

theorem witness_IrqWithNoReceiveChangesNothing :
    (withUart strayUart).cfg.nvicEn.get .c0 = true ∧ strayUart.sr.tc = false ∧
      strayUart.sr.rxne = true ∧ strayUart.cr.rxneie = true ∧ strayUart.ch.rxBusy = false := by
  decide

/-- A finished transmit whose callback sends again. -/
def chained : State :=
  withBody 0x3000 [.send 0 0x1000 2] (withUart { txUart 2 2 0x1000 with cbTx := 0x3000 })

theorem witness_TransmitCallbackMaySubmitNext :
    chained.cfg.nvicEn.get .c0 = true ∧ (chained.uarts.get .c0).sr.tc = true ∧
      (chained.uarts.get .c0).cr.tcie = true ∧ (chained.uarts.get .c0).sr.rxne = false ∧
      (chained.uarts.get .c0).ch.txIndex = (chained.uarts.get .c0).ch.txLen ∧
      (chained.uarts.get .c0).txInflight = false ∧ (chained.uarts.get .c0).cbTx ≠ chained.cfg.nullRef ∧
      bodyOf chained.cfg (chained.uarts.get .c0).cbTx = .listed [.send 0 0x1000 2] ∧
      resolve chained.cfg 0 = some .c0 ∧ fitRef chained.cfg 0x1000 ≠ chained.cfg.nullRef ∧
      fitIndex chained.cfg 2 ≠ 0 ∧
      memRead chained.mem (fitRef chained.cfg 0x1000) = some 0x4F := by decide

/-- A transmit of two bytes whose first is in flight. -/
def sendingUart : Uart := { txUart 1 2 0x1000 with sr := ⟨false, false⟩, txInflight := true }

theorem witness_TransmitFinishesAfterItsEvents :
    sendingUart.ch.txBusy = true ∧ sendingUart.ch.txBuffer = 0x1000 ∧
      (0x1000 : Nat) ≠ (withUart sendingUart).cfg.nullRef ∧ sendingUart.ch.txLen = 2 ∧
      (2 : Nat) < 2 ^ (withUart sendingUart).cfg.indexWidth ∧
      sendingUart.ch.txIndex + ([0x4B] : List Byte).length = (2 : Nat) ∧
      (0x1000 : Nat) + (2 : Nat) ≤ 2 ^ (withUart sendingUart).cfg.refWidth ∧
      (∀ k b, ([0x4B] : List Byte)[k]? = some b →
        memRead (withUart sendingUart).mem
          ((0x1000 : Nat) + sendingUart.ch.txIndex + k) = some b) ∧
      sendingUart.txInflight = true ∧ sendingUart.sr.tc = false ∧ sendingUart.cr.tcie = true ∧
      sendingUart.sr.rxne = false ∧ (withUart sendingUart).cfg.nvicEn.get .c0 = true ∧
      sendingUart.cbTx = (withUart sendingUart).cfg.nullRef := by
  refine ⟨by decide, by decide, by decide, by decide, by decide, by decide, by decide,
    fun k b h => ?_,
    by decide, by decide, by decide, by decide, by decide, by decide⟩
  match k, h with
  | 0, h => exact (Option.some.inj h) ▸ by decide
  | _ + 1, h => exact absurd h (by simp)

/-- A receive of two bytes that waits for its first. -/
def receivingUart : Uart := { rxUart 0 2 0x2000 with sr := ⟨false, false⟩ }

theorem witness_ReceiveFinishesAfterItsBytes :
    receivingUart.ch.rxBusy = true ∧ receivingUart.ch.rxBuffer = 0x2000 ∧
      (0x2000 : Nat) ≠ (withUart receivingUart).cfg.nullRef ∧ ([0x11, 0x22] : List Byte) ≠ [] ∧
      receivingUart.ch.rxLen < 2 ^ (withUart receivingUart).cfg.indexWidth ∧
      receivingUart.ch.rxIndex + ([0x11, 0x22] : List Byte).length =
        receivingUart.ch.rxLen ∧
      (0x2000 : Nat) + receivingUart.ch.rxLen ≤
        2 ^ (withUart receivingUart).cfg.refWidth ∧
      receivingUart.sr = ⟨false, false⟩ ∧ receivingUart.cr.rxneie = true ∧
      (withUart receivingUart).cfg.nvicEn.get .c0 = true ∧
      (withUart receivingUart).cfg.drReadClearsRxne = true ∧
      receivingUart.cbRx = (withUart receivingUart).cfg.nullRef := by decide

/-- A foreground request while nothing waits, and an event during a busy-wait that cannot end. -/
theorem witness_StepRunsTheDecodedOperation :
    (decode ((scripted [] [0x13000000]).script.drop 0) = .instr .lcdClear ∧
        (scripted [] [0x13000000]).fgWait = .none) ∧
      ((∀ c, ((scripted [] [0xA1020077]).setFgWait (.recvB .c2)).fgWait = .recvB c →
          (((scripted [] [0xA1020077]).setFgWait (.recvB .c2)).uarts.get c).sr.rxne = false) ∧
        decode (((scripted [] [0xA1020077]).setFgWait (.recvB .c2)).script.drop 0) =
          .instr (.hwRxbyte .c2 0x77) ∧
        (Instr.hwRxbyte .c2 0x77).isForeground = false) := by
  refine ⟨by decide, ⟨fun c _ => ?_, by decide, by decide⟩⟩
  cases c <;> decide

/-- Each clause: a request during a busy-wait, a reserved word, a missing operand word, the end. -/
theorem witness_StepRefusesWhatTheScriptMayNotDo :
    (decode (((scripted [] [0x13000000]).setFgWait (.recvB .c2)).script.drop 0) = .instr .lcdClear ∧
        Instr.isForeground .lcdClear = true ∧
        ((scripted [] [0x13000000]).setFgWait (.recvB .c2)).fgWait ≠ .none) ∧
      decode ((scripted [] [0x04000000]).script.drop 0) = .illegal ∧
      (decode ((scripted [] [0x21000002]).script.drop 0) = .truncated ∧
        (scripted [] [0x21000002]).pc < (scripted [] [0x21000002]).script.length) ∧
      State.reset.script.length ≤ State.reset.pc := by decide

/-- An accepted send, an event, and a blocking request all answer a next state. -/
theorem witness_EveryOperationAdvancesAndAnswers :
    (∃ t, exec (.usSend 0 0x1000 2) (withUart idleUart) = .next t) ∧
      (∃ t, exec (.usIrq .c0) (withUart busyUart) = .next t) ∧
      ∃ t, exec (.usSendb 0 0x55) State.reset = .next t := ⟨⟨_, rfl⟩, ⟨_, rfl⟩, ⟨_, rfl⟩⟩

/-- A send on a busy channel answers Busy. -/
theorem witness_FailedRequestsChangeNothing :
    ∃ t, exec (.usSend 0 0x1000 2) (withUart (txUart 1 2 0x1000)) = .next t ∧
      t.responses = (withUart (txUart 1 2 0x1000)).responses ++ [⟨.busy, 0⟩] ∧
      ResultCode.busy ≠ .ok := ⟨_, rfl, by decide, by decide⟩

theorem witness_DecodeReadsBackEveryEncoding :
    Instr.wf (.usInit 0xFF ⟨true, true, 2, true, true, true, true⟩ 0xFFFFFFFF 0xFFFFFFFF) = true := by
  decide

theorem witness_DecodedWordsAreTheEncoding :
    decode [0x22FFFFFF, 0xFFFFFFFF, 0x0000FFFF] =
      .instr (.usRecv 0xFF 0xFFFFFFFF 0xFFFF 0xFFFF) := by decide

/-- The exceptions of the match columns at their edges: parity 2 and 3, channel 2 and 3. -/
theorem witness_DecoderAgreesWithOpcodeMap :
    (decode [0x20020008, 0, 0] = .instr (.usInit 2 ⟨false, false, 2, false, false, false, false⟩ 0 0) ∧
        (0x20020008 : Word) &&& 0x0000000C ≠ 0x0000000C) ∧
      (0x2002000C : Word) &&& 0x0000000C = 0x0000000C ∧
      ((0xA1020077 : Word) &&& 0x00FF0000).toNat ≤ 0x00020000 ∧
      ¬ ((0xA1030077 : Word) &&& 0x00FF0000).toNat ≤ 0x00020000 := by decide

theorem witness_ResetLeavesTheResetTable :
    State.reset = State.resetWith Cfg.default Config.resetSlots ResetLevels.zero [] := rfl

theorem goodCfg_default : goodCfg Cfg.default := by
  have key : ∀ c sel, resolve Cfg.default sel = some c → sel = c.index := by
    intro c
    cases c <;> decide
  exact ⟨by decide, by decide, by decide, fun a b c ha hb => (key c a ha).trans (key c b hb).symm⟩

/-- Parameters the spec allows, the least number of slots, and a memory up to the last address. -/
theorem witness_ResetIsAGoodState :
    goodCfg Cfg.default ∧ 1 ≤ 1 ∧ memWf Cfg.default [(0, 0x41), (0xFFFFFFFF, 0x42)] :=
  ⟨goodCfg_default, by decide, by decide⟩

/-- A good state in the middle of two transfers and a Write, from which a step is a next. -/
def midRun : State :=
  { withUart { busyUart with txInflight := false } with
    lcd := operLcd 1 [Slot.free, ⟨true, .write 0x1000 2, .inProgress⟩]
    script := [0x90000000] }

theorem witness_EveryStepKeepsTheInvariant : goodState midRun ∧ ∃ t, step midRun = .next t := by
  refine ⟨⟨by decide, goodCfg_default, ⟨by decide, by decide, ?_, ?_, ?_, ?_, ?_⟩, ⟨by decide, by decide⟩,
    ?_⟩,
    ⟨_, rfl⟩⟩
  · intro x hx
    obtain rfl | rfl : x = Slot.free ∨ x = ⟨true, .write 0x1000 2, .inProgress⟩ := by
      simpa [midRun, operLcd] using hx
    · exact ⟨by decide, by decide, fun _ _ h => by simp [Slot.free] at h⟩
    · exact ⟨by decide, by decide, fun _ _ h => by cases h; decide⟩
  · intro h
    exact absurd h (by decide)
  · intro i x hi hx ho
    match i, hi, hx with
    | 0, _, hx =>
      obtain rfl := Option.some.inj hx
      exact absurd ho (by decide)
    | 1, hi, _ => exact absurd rfl hi
    | _ + 2, _, hx => exact absurd hx (by simp [midRun, operLcd])
  · intro text length h _
    obtain ⟨rfl, rfl⟩ : (0x1000 : Nat) = text ∧ (2 : Nat) = length := by
      simpa [curSlot, midRun, operLcd] using h
    decide
  · exact ⟨by decide, by decide, by decide, by decide, by decide⟩
  · intro c
    cases c <;> exact ⟨by decide, by decide, by decide, by decide, by unfold fitsWidths; decide⟩

/-- Every channel disciplined: the first in the middle of a transmit with `TC` set, the others idle. -/
theorem txMid_disciplined : ∀ c, txDisciplined ((withUart (txUart 1 2 0x1000)).uarts.get c) := by
  intro c
  cases c <;> exact ⟨by decide, by decide⟩

theorem witness_AsynchronousUseKeepsTransmitDiscipline :
    (∀ c, txDisciplined ((withUart (txUart 1 2 0x1000)).uarts.get c)) ∧
      (∀ sel byte, Instr.usIrq .c0 ≠ .usSendb sel byte) ∧
      ∃ t, exec (.usIrq .c0) (withUart (txUart 1 2 0x1000)) = .next t :=
  ⟨txMid_disciplined, by simp, ⟨_, rfl⟩⟩

/-- A byte still to send; and the last one sent. -/
theorem witness_DisciplinedTransmitInterruptCompletes :
    (txDisciplined (txUart 1 2 0x1000) ∧ goodUart Cfg.default (txUart 1 2 0x1000) ∧
      (withUart (txUart 1 2 0x1000)).cfg = Cfg.default ∧ Cfg.default.nvicEn.get .c0 = true ∧
      (txUart 1 2 0x1000).sr.tc = true ∧ (txUart 1 2 0x1000).cr.tcie = true ∧
      (txUart 1 2 0x1000).sr.rxne = false ∧ (txUart 1 2 0x1000).cbTx = Cfg.default.nullRef ∧
      (txUart 1 2 0x1000).ch.txBuffer + (txUart 1 2 0x1000).ch.txIndex <
        2 ^ Cfg.default.refWidth ∧
      ∃ b, memRead (withUart (txUart 1 2 0x1000)).mem
        ((txUart 1 2 0x1000).ch.txBuffer + (txUart 1 2 0x1000).ch.txIndex) = some b) ∧
      txDisciplined (txUart 2 2 0x1000) ∧ goodUart Cfg.default (txUart 2 2 0x1000) ∧
      (txUart 2 2 0x1000).ch.txIndex = (txUart 2 2 0x1000).ch.txLen := by
  refine ⟨⟨⟨by decide, by decide⟩, ⟨by decide, by decide, by decide, by decide,
    by unfold fitsWidths; decide⟩, by decide, by decide, by decide, by decide, by decide, by decide,
    by decide, ⟨0x4B, by decide⟩⟩,
    ⟨by decide, by decide⟩, ⟨by decide, by decide, by decide, by decide,
    by unfold fitsWidths; decide⟩, by decide⟩

/-- A send changes its channel. -/
theorem witness_ChannelsAreIndependent :
    ∃ t, exec (.usSend 0 0x1000 2) (withUart idleUart) = .next t ∧
      (withUart idleUart).cfg.cbBody = [] ∧
      t.uarts.get .c0 ≠ (withUart idleUart).uarts.get .c0 := ⟨_, rfl, by decide, by decide⟩

/-- A call that latches, one that does not, and an interrupt with log-only bodies. -/
theorem witness_LatchLogRecordsEveryFallOfEnable :
    (∃ t, exec (.stbCmd 0xFF) asserted = .next t ∧
        asserted.bus.eDriven = true ∧ asserted.bus.e = true ∧ t.bus.e = false) ∧
      (∃ t, exec (.stbCmd 0x38) State.reset = .next t ∧
        ¬ (State.reset.bus.eDriven = true ∧ State.reset.bus.e = true ∧ t.bus.e = false)) ∧
      ∃ t, exec (.usIrq .c0) (withUart busyUart) = .next t ∧ (withUart busyUart).cfg.cbBody = [] :=
  ⟨⟨_, rfl, by decide⟩, ⟨_, rfl, by decide⟩, ⟨_, rfl, by decide⟩⟩

theorem witness_StatusBitsAreSetOnlyByHardware :
    (∃ t, exec (.hwTxdone .c0) (withUart sendingUart) = .next t ∧
        ((withUart sendingUart).uarts.get .c0).sr.tc = false ∧ (t.uarts.get .c0).sr.tc = true) ∧
      ∃ t, exec (.hwRxbyte .c0 0x11) (withUart receivingUart) = .next t ∧
        ((withUart receivingUart).uarts.get .c0).sr.rxne = false ∧
        (t.uarts.get .c0).sr.rxne = true := ⟨⟨_, rfl, by decide⟩, ⟨_, rfl, by decide⟩⟩

theorem witness_EnablesStaySetWithoutDisarm :
    ∃ t, exec (.usIrq .c0) (withUart endingUart) = .next t ∧
      (withUart endingUart).cfg.disarmOnComplete = false ∧
      ((withUart endingUart).uarts.get .c0).cr.tcie = true ∧
      ((withUart endingUart).uarts.get .c0).cr.rxneie = true := ⟨_, rfl, by decide⟩

theorem witness_LifecycleOnlyMovesForward : ∃ t, exec .lcdInit State.reset = .next t := ⟨_, rfl⟩

/-- Both directions busy beside another operation; both free. -/
theorem witness_BusyFlagHandsOverTheBank :
    (∃ t, exec (.hwTxdone .c0) (withUart { busyUart with txInflight := true }) = .next t ∧
        ((withUart busyUart).uarts.get .c0).ch.txBusy = true ∧
        ((withUart busyUart).uarts.get .c0).ch.rxBusy = true) ∧
      ∃ t, exec (.usSendb 0 0x55) State.reset = .next t ∧ State.reset.cfg.cbBody = [] ∧
        (State.reset.uarts.get .c0).ch.txBusy = false ∧
        (State.reset.uarts.get .c0).ch.rxBusy = false := ⟨⟨_, rfl, by decide⟩, ⟨_, rfl, by decide⟩⟩

/-- A claim beside occupied slots; and a tick, whose current slot is not the one looked at. -/
theorem witness_OccupiedSlotKeepsItsRequest :
    (∃ t, exec .lcdClear threeFull = .next t ∧ threeFull.lcd.slots[2]? = some (claimed .clear) ∧
        (claimed .clear).occupied = true) ∧
      ∃ t, exec .lcdTick threeFull = .next t ∧ threeFull.lcd.slots[2]? = some (claimed .clear) ∧
        2 ≠ threeFull.lcd.cur := ⟨⟨_, rfl, by decide⟩, ⟨_, rfl, by decide⟩⟩

/-- A display operation, a serial one, an interrupt that stores and one that stores nothing (log-only
bodies). -/
theorem witness_DisplaySerialAndMemoryAreSeparate :
    (∃ t, exec .lcdTick threeFull = .next t) ∧
      (∃ t, exec (.usSend 0 0x1000 2) (withUart idleUart) = .next t ∧
        (withUart idleUart).cfg.cbBody = []) ∧
      (∃ t, exec (.usIrq .c0) (withUart (rxUart 0 2 0x2000)) = .next t ∧
        (withUart (rxUart 0 2 0x2000)).cfg.cbBody = []) ∧
      (∃ t, exec (.usIrq .c0) (withUart (txUart 1 2 0x1000)) = .next t ∧
        (withUart (txUart 1 2 0x1000)).cfg.cbBody = [] ∧
        ((withUart (txUart 1 2 0x1000)).uarts.get .c0).sr.rxne = false) ∧
      ∃ t, exec (.usIrq .c0) (withUart strayUart) = .next t ∧
        ((withUart strayUart).uarts.get .c0).ch.rxBusy = false :=
  ⟨⟨_, rfl⟩, ⟨_, rfl, by decide⟩, ⟨_, rfl, by decide⟩, ⟨_, rfl, by decide⟩, ⟨_, rfl, by decide⟩⟩

end Sys2Proof.Tests
end

section
/-!
SUPPORT. What a task tick, a run of the interrupt handler and an operation can do, once each
(`TickStep`, `HandlerRun`, `ExecStep`): the statements about every operation are read off their cases.
-/

namespace Sys2Proof.Machine

/-! ### What one task tick can do -/

/-- What a task tick can do to the state, one constructor per branch of 41_display_sequencer.md R148 to
R157. Clear, SetPosition and RawCommand share `command`: leaving the cursor alone is moving it where it
stands. -/
inductive TickStep (s : State) : State → Prop where
  | idle : TickStep s s
  | powerOn (hlife : s.lcd.life = .initializing) (hsub : s.lcd.isub = .powerOn) :
      TickStep s ((s.setBus (dropEnable s.bus)).setLcd { s.lcd with isub := .functionSet })
  | wait (hlife : s.lcd.life = .initializing) (hsub : s.lcd.isub = .functionSet)
      (hdelay : s.lcd.delay < s.cfg.initDelayTicks) :
      TickStep s (s.setLcd { s.lcd with delay := s.lcd.delay + 1 })
  | issueInit (cmd : Byte) (here next : InitSub) (hlife : s.lcd.life = .initializing)
      (hsub : s.lcd.isub = here) (hpower : here ≠ .powerOn)
      (hnext : isubValue next = isubValue here + 1)
      (hdelay : here = .functionSet → s.cfg.initDelayTicks ≤ s.lcd.delay) :
      TickStep s (issueInit cmd here next s)
  | operational (hlife : s.lcd.life = .initializing) (hsub : s.lcd.isub = .done) :
      TickStep s (s.setLcd { s.lcd with life := .operational })
  | writeBegin (text length : Nat) (hkind : (curSlot s.lcd).kind = .write text length) :
      TickStep s (s.setLcd (setWidx (beginCur s.lcd) 0))
  | writeEnd (text length : Nat) (hkind : (curSlot s.lcd).kind = .write text length) :
      TickStep s (s.setLcd (complete s.lcd))
  | writeChar (text length : Nat) (b : Byte) (hkind : (curSlot s.lcd).kind = .write text length)
      (hidx : s.lcd.widx < length) : TickStep s (writeChar b s)
  | command (b : Byte) (row : BitVec 1) (col : BitVec 4) (hnone : (curSlot s.lcd).kind ≠ .none)
      (hdone : (curSlot s.lcd).kind ≠ .done)
      (hwrite : ∀ text length, (curSlot s.lcd).kind ≠ .write text length) :
      TickStep s (commandStep b (moveCursor row col) s)
  | reclaim (hkind : (curSlot s.lcd).kind = .done) : TickStep s (s.setLcd (reclaimStep s.lcd))

/-- A command that leaves the cursor alone moves it where it stands. -/
theorem commandStep_id (b : Byte) (s : State) :
    commandStep b id s = commandStep b (moveCursor s.lcd.cursorRow s.lcd.cursorCol) s := rfl

theorem initStep_tickStep {s : State} (hlife : s.lcd.life = .initializing) :
    TickStep s (initStep s) := by
  unfold initStep
  split
  · rename_i hsub
    exact .powerOn hlife hsub
  · rename_i hsub
    split
    · rename_i hdelay
      exact .wait hlife hsub hdelay
    · rename_i hdelay
      exact .issueInit _ _ _ hlife hsub (by simp) rfl fun _ => not_lt.mp hdelay
  · rename_i hsub
    exact .issueInit _ _ _ hlife hsub (by simp) rfl (by simp)
  · rename_i hsub
    exact .issueInit _ _ _ hlife hsub (by simp) rfl (by simp)
  · rename_i hsub
    exact .operational hlife hsub

theorem serveStep_eq_next {s t : State} (h : serveStep s = .next t) : TickStep s t := by
  unfold serveStep at h
  split at h
  · cases h
    exact .idle
  · rename_i text length hkind
    rcases writeStep_eq_next.mp h with ⟨-, rfl⟩ | ⟨-, -, rfl⟩ | ⟨-, -, b, hread, rfl⟩
    · exact .writeBegin text length hkind
    · exact .writeEnd text length hkind
    · obtain ⟨hidx, -⟩ := bufRead_eq_some.mp hread
      exact .writeChar text length b hkind hidx
  · rename_i hkind
    cases h
    rw [clearStep, commandStep_id]
    exact .command _ _ _ (by simp [hkind]) (by simp [hkind]) (by simp [hkind])
  · rename_i row col hkind
    cases h
    exact .command _ row col (by simp [hkind]) (by simp [hkind]) (by simp [hkind])
  · rename_i byte hkind
    cases h
    rw [rawCommandStep, commandStep_id]
    exact .command _ _ _ (by simp [hkind]) (by simp [hkind]) (by simp [hkind])
  · rename_i hkind
    cases h
    exact .reclaim hkind

theorem tick_eq_next {s t : State} (h : tick s = .next t) : TickStep s t := by
  unfold tick at h
  split at h
  · cases h
    exact .idle
  · rename_i hlife
    cases h
    exact initStep_tickStep hlife
  · exact serveStep_eq_next h

/-- A tick leaves unit STB alone, drops `E` or makes one call of the protocol driver. -/
theorem TickStep.bus {s t : State} (h : TickStep s t) :
    t.bus = s.bus ∨ t.bus = dropEnable s.bus ∨ ∃ b rs, t.bus = strobe b rs s.bus := by
  cases h with
  | idle | wait | operational | writeBegin | writeEnd | reclaim => exact .inl rfl
  | powerOn => exact .inr (.inl rfl)
  | issueInit | writeChar | command => exact .inr (.inr ⟨_, _, rfl⟩)

/-! ### What the interrupt handler can do -/

/-- One piece of the handler of channel `c` (43_serial_interrupt_handler.md R201 to R211). A callback
acts only where CB_BODY has an entry. -/
inductive HandlerStep (c : Channel) (s : State) : State → Prop where
  | body {t : State} (hacts : s.cfg.cbBody ≠ []) (h : BodyStep s t) : HandlerStep c s t
  | log (x : CbEntry) : HandlerStep c s (s.logCallback x)
  | releaseTx : HandlerStep c s (s.modUart c finishTx)
  | ackTx : HandlerStep c s (s.modUart c fun u => disarmTx s.cfg.disarmOnComplete (clearTc u))
  | sendNext (b : Byte) (hbusy : (s.uart c).ch.txBusy = true)
      (hidx : (s.uart c).ch.txIndex < (s.uart c).ch.txLen) :
      HandlerStep c s (s.modUart c fun u => clearTc (nextTx s.cfg (sentByte b u)))
  | store (m : Memory)
      (hm : bufWrite s.cfg s.mem (s.uart c).ch.rxBuffer (s.uart c).ch.rxIndex (s.uart c).ch.rxLen
        (s.uart c).rdr = some m) :
      HandlerStep c s
        ((s.setMem m).modUart c fun u => nextRx s.cfg (afterDrRead s.cfg.drReadClearsRxne u))
  | releaseRx :
      HandlerStep c s
        (s.modUart c fun u => disarmRx s.cfg.disarmOnComplete (finishRx (clearRxne u)))

/-- The pieces of one run of the handler, one after the other. -/
abbrev HandlerRun (c : Channel) : State → State → Prop := Relation.ReflTransGen (HandlerStep c)

/-- A property every piece keeps is kept by a run of the handler. -/
theorem HandlerRun.keeps {P : State → Prop} {c : Channel} {s t : State} (h : HandlerRun c s t)
    (hs : P s) (hP : ∀ u v, P u → HandlerStep c u v → P v) : P t := by
  induction h with
  | refl => exact hs
  | tail _ hstep ih => exact hP _ _ ih hstep

theorem HandlerStep.frame {c : Channel} {s t : State} (h : HandlerStep c s t) :
    t.cfg = s.cfg ∧ t.fgWait = s.fgWait ∧ t.responses = s.responses ∧ t.script = s.script ∧
      t.pc = s.pc := by
  cases h with
  | body _ h =>
    obtain ⟨hcfg, -, hrest⟩ := h.frame
    exact ⟨hcfg, hrest⟩
  | log | releaseTx | ackTx | sendNext | store | releaseRx => simp

/-- The part of the state a run of the handler cannot touch. -/
theorem HandlerRun.frame {c : Channel} {s t : State} (h : HandlerRun c s t) :
    t.cfg = s.cfg ∧ t.fgWait = s.fgWait ∧ t.responses = s.responses ∧ t.script = s.script ∧
      t.pc = s.pc := by
  refine h.keeps (P := fun u => u.cfg = s.cfg ∧ u.fgWait = s.fgWait ∧
    u.responses = s.responses ∧ u.script = s.script ∧ u.pc = s.pc) (by simp) fun u v hu huv => ?_
  obtain ⟨h1, h2, h3, h4, h5⟩ := huv.frame
  rwa [h1, h2, h3, h4, h5]

/-- Outside its callbacks the handler leaves the display side and the other channels alone. -/
theorem HandlerStep.body_or_local {c : Channel} {s t : State} (h : HandlerStep c s t) :
    (s.cfg.cbBody ≠ [] ∧ BodyStep s t) ∨
      (t.bus = s.bus ∧ t.lcd = s.lcd ∧ ∀ d, d ≠ c → t.uart d = s.uart d) := by
  cases h with
  | body hacts h => exact .inl ⟨hacts, h⟩
  | log => exact .inr ⟨rfl, rfl, fun _ _ => rfl⟩
  | releaseTx | ackTx | sendNext | releaseRx =>
    exact .inr ⟨rfl, rfl, fun d hd => State.modUart_uart_ne _ _ _ _ hd⟩
  | store m => exact .inr ⟨rfl, rfl, fun d hd => State.modUart_uart_ne (s.setMem m) _ _ _ hd⟩

/-- With log-only callbacks a run of the handler leaves the display side and the other channels
alone. -/
theorem HandlerRun.local_of_logOnly {c : Channel} {s t : State} (h : HandlerRun c s t)
    (hlog : s.cfg.cbBody = []) :
    t.bus = s.bus ∧ t.lcd = s.lcd ∧ ∀ d, d ≠ c → t.uart d = s.uart d := by
  have hkept := h.keeps (P := fun u => u.cfg = s.cfg ∧
      u.bus = s.bus ∧ u.lcd = s.lcd ∧ ∀ d, d ≠ c → u.uart d = s.uart d)
    (by simp) fun u v ⟨hcfg, hbus, hlcd, hother⟩ huv => by
      rcases huv.body_or_local with ⟨hacts, -⟩ | ⟨hbus', hlcd', hother'⟩
      · exact absurd (hcfg ▸ hlog) hacts
      · obtain ⟨hcfg', -⟩ := huv.frame
        exact ⟨hcfg'.trans hcfg, hbus'.trans hbus, hlcd'.trans hlcd,
          fun d hd => (hother' d hd).trans (hother d hd)⟩
  obtain ⟨-, hlocal⟩ := hkept
  exact hlocal

theorem callBody_run {c : Channel} {k : Nat} {s t : State} (h : callBody k s = .next t) :
    HandlerRun c s t := by
  by_cases hlog : s.cfg.cbBody = []
  · rw [callBody_logOnly (by simp [bodyOf, hlog])] at h
    cases h
    exact .refl
  · have hkept := callBody_keeps (P := fun u => u.cfg = s.cfg ∧ HandlerRun c s u)
      (fun u v ⟨hcfg, hrun⟩ huv => by
        obtain ⟨hcfg', -⟩ := huv.frame
        exact ⟨hcfg'.trans hcfg, hrun.tail (.body (hcfg ▸ hlog) huv)⟩)
      ⟨rfl, .refl⟩ h
    obtain ⟨-, hrun⟩ := hkept
    exact hrun

theorem invoke_run {c d : Channel} {dir : Direction} {s t : State}
    (h : invoke d dir s = .next t) : HandlerRun c s t := by
  rcases invoke_eq_next.mp h with ⟨-, rfl⟩ | ⟨-, h⟩
  · exact .refl
  · exact .head (.log _) (callBody_run h)

theorem txHalf_run {c : Channel} {s t : State} (h : txHalf c s = .next t) : HandlerRun c s t := by
  rcases txHalf_eq_next.mp h with ⟨-, rfl⟩ | ⟨-, -, h⟩ | ⟨-, -, h⟩
  · exact .refl
  · obtain ⟨v, hv, rfl⟩ := tcComplete_eq_next.mp h
    exact .head .releaseTx ((invoke_run hv).tail .ackTx)
  · obtain ⟨hbusy, -, b, hread, rfl⟩ := tcNext_eq_next.mp h
    obtain ⟨hidx, -⟩ := bufRead_eq_some.mp hread
    exact .single (.sendNext b hbusy hidx)

theorem rxHalf_run {c : Channel} {s t : State} (h : rxHalf c s = .next t) : HandlerRun c s t := by
  rcases rxHalf_eq_next.mp h with ⟨-, rfl⟩ | ⟨-, -, h⟩
  · exact .refl
  · obtain ⟨v, hv, hbranch⟩ := rxBranch_eq_next.mp h
    obtain ⟨m, hm, rfl⟩ := storeReceived_eq_next.mp hv
    rcases hbranch with ⟨-, hdone⟩ | ⟨-, rfl⟩
    · exact .head (.store m hm) (.head .releaseRx (invoke_run hdone))
    · exact .single (.store m hm)

/-! ### What every operation can do -/

/-- The request of an operation that answers at once, which a callback body can make as well
(60_exceptions.md R254). -/
def requestOf : Instr → Option CallbackAction
  | .stbCmd byte => some (.stbCmd byte)
  | .stbChr byte => some (.stbChr byte)
  | .stbElow => some .stbElow
  | .lcdInit => some .lcdInit
  | .lcdWrite text length => some (.write text length)
  | .lcdGoto row col => some (.goto row col)
  | .lcdClear => some .clear
  | .lcdCmd byte => some (.command byte)
  | .usInit sel flags clock baud => some (.init sel flags clock baud)
  | .usSend sel data length => some (.send sel data length)
  | .usRecv sel dest start length => some (.recv sel dest start length)
  | .usRegcb sel dir handler => some (.regcb sel dir handler)
  | .nop | .usSendb _ _ | .usRecvb _ | .lcdTick | .usIrq _ | .hwTxdone _ | .hwRxbyte _ _ => none

theorem exec_of_requestOf {i : Instr} {a : CallbackAction} (h : requestOf i = some a) (s : State) :
    exec i s = deliver i.wordCount (callbackRequest a s) := by
  cases i <;> cases h <;> rfl

theorem claim_code {k : Kind} {s t : State} {r : Response} (h : claim k s = .next (t, r)) :
    ∃ code, r = codeOnly code := by
  rcases claim_eq_next.mp h with ⟨_, _, _, _, _, _, rfl⟩ | ⟨_, _, rfl⟩
  · exact ⟨_, rfl⟩
  · exact ⟨_, rfl⟩

theorem reject_code {code : ResultCode} {s t : State} {r : Response}
    (h : reject s code = .next (t, r)) : ∃ code, r = codeOnly code :=
  ⟨code, (reject_eq_next.mp h).2⟩

theorem Rejects.answers {s t : State} {r : Response} (h : Rejects s t r) :
    ∃ code, r = codeOnly code := by
  obtain ⟨-, code, -, rfl⟩ := h
  exact ⟨code, rfl⟩

/-- A request that answers at once answers a code and no data (30_encoding.md R100). -/
theorem callbackRequest_code {i : Instr} {a : CallbackAction} {s t : State} {r : Response}
    (hi : requestOf i = some a) (h : callbackRequest a s = .next (t, r)) :
    ∃ code, r = codeOnly code := by
  cases i with
  | nop | usSendb | usRecvb | lcdTick | usIrq | hwTxdone | hwRxbyte => cases hi
  | stbCmd | stbChr | stbElow | lcdInit =>
    cases hi
    cases h
    exact ⟨_, rfl⟩
  | lcdWrite text length =>
    cases hi
    simp only [callbackRequest, requestWrite] at h
    split at h
    · exact reject_code h
    · exact claim_code h
  | lcdGoto row col =>
    cases hi
    simp only [callbackRequest, requestGoto] at h
    split at h
    · exact claim_code h
    · exact reject_code h
  | lcdClear | lcdCmd =>
    cases hi
    exact claim_code h
  | usInit =>
    cases hi
    rcases requestInit_eq_next h with hr | ⟨_, _, _, _, _, _, rfl⟩
    · exact hr.answers
    · exact ⟨_, rfl⟩
  | usSend =>
    cases hi
    rcases requestSend_eq_next h with hr | ⟨_, _, _, _, _, _, _, _, rfl⟩
    · exact hr.answers
    · exact ⟨_, rfl⟩
  | usRecv =>
    cases hi
    rcases requestRecv_eq_next h with hr | ⟨_, _, _, _, _, rfl⟩
    · exact hr.answers
    · exact ⟨_, rfl⟩
  | usRegcb =>
    cases hi
    rcases requestRegcb_eq_next h with hr | ⟨_, _, _, _, rfl⟩
    · exact hr.answers
    · exact ⟨_, rfl⟩

/-- What an operation that takes a next state can do. -/
inductive ExecStep (s : State) : Instr → State → Prop where
  | nop : ExecStep s .nop (s.advance 1)
  | request {i : Instr} {a : CallbackAction} {u : State} {code : ResultCode}
      (hi : requestOf i = some a) (h : callbackRequest a s = .next (u, codeOnly code)) :
      ExecStep s i ((u.respond (codeOnly code)).advance i.wordCount)
  | sendbRejected (sel byte : Byte) :
      ExecStep s (.usSendb sel byte) ((s.respond (codeOnly .invalidChannel)).advance 1)
  | sendbIssued (sel byte : Byte) (c : Channel) :
      ExecStep s (.usSendb sel byte)
        (((s.modUart c (sentByte byte)).setFgWait (.sendB c)).advance 1)
  | recvbRejected (sel : Byte) :
      ExecStep s (.usRecvb sel) ((s.respond (codeOnly .invalidChannel)).advance 1)
  | recvbIssued (sel : Byte) (c : Channel) :
      ExecStep s (.usRecvb sel) ((s.setFgWait (.recvB c)).advance 1)
  | tick {u : State} (h : tick s = .next u) : ExecStep s .lcdTick (u.advance 1)
  | irq {c : Channel} {u : State} (h : HandlerRun c s u) : ExecStep s (.usIrq c) (u.advance 1)
  | txdone (c : Channel) : ExecStep s (.hwTxdone c) ((s.modUart c byteSent).advance 1)
  | rxbyte (c : Channel) (b : Byte) :
      ExecStep s (.hwRxbyte c b) ((s.modUart c (byteReceived b)).advance 1)

theorem execUsIrq_run {c : Channel} {s t : State} (h : execUsIrq c s = .next t) :
    ∃ u, HandlerRun c s u ∧ t = u.advance 1 := by
  obtain ⟨-, u, v, hu, hv, rfl⟩ := execUsIrq_eq_next.mp h
  exact ⟨v, (txHalf_run hu).trans (rxHalf_run hv), rfl⟩

/-- Every operation that takes a next state is one of the cases of `ExecStep`. -/
theorem exec_eq_next {i : Instr} {s t : State} (h : exec i s = .next t) : ExecStep s i t := by
  cases hreq : requestOf i with
  | some a =>
    rw [exec_of_requestOf hreq] at h
    obtain ⟨u, r, hr, rfl⟩ := deliver_eq_next.mp h
    obtain ⟨code, rfl⟩ := callbackRequest_code hreq hr
    exact .request hreq hr
  | none =>
    cases i with
    | stbCmd | stbChr | stbElow | lcdInit | lcdWrite | lcdGoto | lcdClear | lcdCmd | usInit
    | usSend | usRecv | usRegcb => cases hreq
    | nop =>
      cases h
      exact .nop
    | usSendb sel byte =>
      rcases issueBlocking_eq_next h with ⟨-, rfl⟩ | ⟨c, u, -, -, hu, rfl⟩
      · exact .sendbRejected sel byte
      · obtain ⟨v, hv, hu⟩ := andThen_eq_next.mp hu
        obtain ⟨-, rfl⟩ := drWrite_eq_next.mp hv
        cases hu
        exact .sendbIssued sel byte c
    | usRecvb sel =>
      rcases issueBlocking_eq_next h with ⟨-, rfl⟩ | ⟨c, u, -, -, hu, rfl⟩
      · exact .recvbRejected sel
      · cases hu
        exact .recvbIssued sel c
    | lcdTick =>
      obtain ⟨u, hu, ht⟩ := andThen_eq_next.mp h
      cases ht
      exact .tick hu
    | usIrq c =>
      obtain ⟨u, hu, rfl⟩ := execUsIrq_run h
      exact .irq hu
    | hwTxdone c =>
      simp only [exec, execHwTxdone] at h
      split at h
      · cases h
        exact .txdone c
      · cases h
    | hwRxbyte c b =>
      simp only [exec, execHwRxbyte] at h
      split at h
      · cases h
      · cases h
        exact .rxbyte c b

end Sys2Proof.Machine
end

section
/-!
SUPPORT. The invariant of the machine: it holds at reset, and every tick, callback action, handler piece,
operation and completion keeps it. Settles O47, O48 and O49.
-/

namespace Sys2Proof.Machine

/-! ### Unit STB -/

theorem goodBus_dropEnable {u : Bus} (h : goodBus u) : goodBus (dropEnable u) := by
  obtain ⟨hline, hlog⟩ := h
  refine ⟨by simp, fun x hx => ?_⟩
  rw [dropEnable_latchLog] at hx
  split at hx
  · rename_i hfall
    obtain ⟨hdriven, he⟩ := Bool.and_eq_true_iff.mp hfall
    rcases List.mem_append.mp hx with hx | hx
    · exact hlog x hx
    · obtain rfl := List.mem_singleton.mp hx
      exact (hline hdriven he).2
  · exact hlog x hx

theorem goodBus_strobe {u : Bus} (b : Byte) (rs : Bool) (h : goodBus u) :
    goodBus (strobe b rs u) := by
  cases hphase : u.phase with
  | false =>
    rw [strobe_of_not_asserted hphase]
    exact ⟨by simp, h.2⟩
  | true =>
    rw [strobe_of_asserted hphase]
    exact ⟨by simp, (goodBus_dropEnable h).2⟩

/-! ### Channels -/

/-- The invariant of a channel reads its bank and its two callback entries only. -/
theorem goodUart_of_bank {cfg : Cfg} {u v : Uart} (h : goodUart cfg u) (hch : v.ch = u.ch)
    (htx : v.cbTx = u.cbTx) (hrx : v.cbRx = u.cbRx) : goodUart cfg v := by
  simpa [goodUart, fitsWidths, hch, htx, hrx] using h

theorem goodUart_startTx {cfg : Cfg} {u : Uart} {data length : Nat} (h : goodUart cfg u)
    (hwidth : 1 ≤ cfg.indexWidth) (hnull : data ≠ cfg.nullRef) (hdata : data < cfg.memEnd)
    (hpos : 0 < length) (hlen : length < cfg.indexEnd) : goodUart cfg (startTx data length u) := by
  obtain ⟨-, -, hrxRef, hrxLen, -, -, hri, hrl, -, hrb, hct, hcr⟩ := h
  have hone : 1 < cfg.indexEnd := Nat.one_lt_two_pow (by omega)
  exact ⟨fun _ => ⟨hnull, le_refl 1, hpos⟩, by simp, hrxRef, hrxLen,
    hone, hlen, hri, hrl, hdata, hrb, hct, hcr⟩

theorem goodUart_startRx {cfg : Cfg} {u : Uart} {dest start length : Nat} (h : goodUart cfg u)
    (hnull : dest ≠ cfg.nullRef) (hdest : dest < cfg.memEnd) (hstart : start < cfg.indexEnd)
    (hlen : length < cfg.indexEnd) : goodUart cfg (startRx dest start length u) := by
  obtain ⟨htxRef, htxLen, -, -, hti, htl, -, -, htb, -, hct, hcr⟩ := h
  exact ⟨htxRef, htxLen, fun _ => hnull, by simp, hti, htl, hstart, hlen, htb, hdest, hct, hcr⟩

theorem goodUart_finishTx {cfg : Cfg} {u : Uart} (h : goodUart cfg u) :
    goodUart cfg (finishTx u) := by
  obtain ⟨-, -, hrxRef, hrxLen, hti, -, hrest⟩ := h
  exact ⟨by simp, by simp, hrxRef, hrxLen, hti, indexEnd_pos cfg, hrest⟩

theorem goodUart_finishRx {cfg : Cfg} {u : Uart} (h : goodUart cfg u) :
    goodUart cfg (finishRx u) := by
  obtain ⟨htxRef, htxLen, -, -, hti, htl, hri, -, hrest⟩ := h
  exact ⟨htxRef, htxLen, by simp, by simp, hti, htl, hri, indexEnd_pos cfg, hrest⟩

/-- The next byte of a busy transmit: the index stays below a length that fits, so it cannot wrap. -/
theorem goodUart_nextTx {cfg : Cfg} {u : Uart} (h : goodUart cfg u) (hbusy : u.ch.txBusy = true)
    (hidx : u.ch.txIndex < u.ch.txLen) : goodUart cfg (nextTx cfg u) := by
  obtain ⟨htxRef, htxLen, hrxRef, hrxLen, -, htl, hrest⟩ := h
  obtain ⟨hnull, -, -⟩ := htxRef hbusy
  have hinc := incIndex_of_lt hidx htl
  exact ⟨fun _ => ⟨hnull, by simp [hinc], by simpa [hinc] using hidx⟩, htxLen, hrxRef, hrxLen,
    incIndex_lt cfg _, htl, hrest⟩

theorem goodUart_nextRx {cfg : Cfg} {u : Uart} (h : goodUart cfg u) :
    goodUart cfg (nextRx cfg u) := by
  obtain ⟨htxRef, htxLen, hrxRef, hrxLen, hti, htl, -, hrest⟩ := h
  exact ⟨htxRef, htxLen, hrxRef, hrxLen, hti, htl, incIndex_lt cfg _, hrest⟩

theorem goodUart_setCallback {cfg : Cfg} {u : Uart} (dir : Direction) {handler : Nat}
    (h : goodUart cfg u) (hfit : handler < cfg.memEnd) :
    goodUart cfg (setCallback u dir handler) := by
  obtain ⟨htxRef, htxLen, hrxRef, hrxLen, hti, htl, hri, hrl, htb, hrb, hct, hcr⟩ := h
  cases dir with
  | tx => exact ⟨htxRef, htxLen, hrxRef, hrxLen, hti, htl, hri, hrl, htb, hrb, hfit, hcr⟩
  | rx => exact ⟨htxRef, htxLen, hrxRef, hrxLen, hti, htl, hri, hrl, htb, hrb, hct, hfit⟩

/-! ### The display sequencer -/

/-- The invariant of the init order is the only one that reads the lifecycle, the init sub-state and the
delay counter. -/
theorem goodLcd_of_goodInit {cfg : Cfg} {l : Lcd} (life : Life) (isub : InitSub) (delay : Nat)
    (h : goodLcd cfg l)
    (hinit : goodInit cfg { l with life := life, isub := isub, delay := delay }) :
    goodLcd cfg { l with life := life, isub := isub, delay := delay } := by
  obtain ⟨hcur, hwidx, hslots, hidle, hserved, hwrite, -⟩ := h
  exact ⟨hcur, hwidx, hslots, hidle, hserved, hwrite, hinit⟩

theorem curSlot_mem {l : Lcd} (h : l.cur < l.slots.length) : curSlot l ∈ l.slots := by
  simp [curSlot, h]

theorem goodLcd.goodInit {cfg : Cfg} {l : Lcd} (h : goodLcd cfg l) : goodInit cfg l := by
  obtain ⟨-, -, -, -, -, -, hinit⟩ := h
  exact hinit

theorem goodLcd.goodSlot_current {cfg : Cfg} {l : Lcd} (h : goodLcd cfg l) :
    goodSlot cfg (curSlot l) := by
  obtain ⟨hcur, -, hslots, -⟩ := h
  exact hslots _ (curSlot_mem hcur)

/-- A slot that holds a request is occupied. -/
theorem goodSlot.occupied {cfg : Cfg} {x : Slot} (h : goodSlot cfg x) (hk : x.kind ≠ .none) :
    x.occupied = true := by
  obtain ⟨hfree, -⟩ := h
  simpa using mt hfree.mp hk

theorem goodSlot_free {cfg : Cfg} {x : Slot} (hocc : x.occupied = false) (hk : x.kind = .none) :
    goodSlot cfg x := by
  simp [goodSlot, hocc, hk]

/-- A claimed slot (41_display_sequencer.md R143). -/
theorem goodSlot_claimed {cfg : Cfg} {k : Kind} (hnone : k ≠ .none) (hdone : k ≠ .done)
    (hwrite : ∀ text length, k = .write text length →
      text ≠ cfg.nullRef ∧ text < cfg.memEnd ∧ length < cfg.indexEnd) :
    goodSlot cfg ⟨true, k, .start⟩ :=
  ⟨by simp [hnone], fun h => absurd h hdone, hwrite⟩

/-- Only a slot of kind Done must be Finished: any other may change its progress. -/
theorem goodSlot_withProgress {cfg : Cfg} {x : Slot} (p : Progress) (h : goodSlot cfg x)
    (hdone : x.kind ≠ .done) : goodSlot cfg { x with progress := p } := by
  obtain ⟨hfree, -, hwrite⟩ := h
  exact ⟨hfree, fun hk => absurd hk hdone, hwrite⟩

theorem goodSlot_finished {cfg : Cfg} {x : Slot} (hocc : x.occupied = true) :
    goodSlot cfg (finished x) := by
  simp [goodSlot, hocc]

/-- The current slot may take any good request whose service the character index fits. -/
theorem goodLcd_setCur {cfg : Cfg} {l : Lcd} {x : Slot} (h : goodLcd cfg l) (hx : goodSlot cfg x)
    (hocc : x.occupied = true)
    (hidx : ∀ text length, x.kind = .write text length → x.progress = .inProgress →
      l.widx ≤ length) : goodLcd cfg (setCur l x) := by
  obtain ⟨hcur, hwidx, hslots, -, hserved, -, hinit⟩ := h
  have hsel := curSlot_setCur x hcur
  refine ⟨by simpa using hcur, hwidx, fun y hy => ?_, fun hfree => ?_, fun i y hi hy => ?_, ?_,
    hinit⟩
  · rcases List.mem_or_eq_of_mem_set hy with hy | rfl
    · exact hslots y hy
    · exact hx
  · simp [hsel, hocc] at hfree
  · rw [setCur_cur] at hi
    rw [setCur_slots, List.getElem?_set_ne (Ne.symm hi)] at hy
    exact hserved i y hi hy
  · rwa [writeIndexInRange, hsel]

theorem goodLcd_setWidx {cfg : Cfg} {l : Lcd} {v : Nat} (h : goodLcd cfg l)
    (hv : v < cfg.indexEnd)
    (hidx : ∀ text length, (curSlot l).kind = .write text length →
      (curSlot l).progress = .inProgress → v ≤ length) : goodLcd cfg (setWidx l v) := by
  obtain ⟨hcur, -, hslots, hidle, hserved, -, hinit⟩ := h
  exact ⟨hcur, hv, hslots, hidle, hserved, hidx, hinit⟩

theorem goodLcd_moveCursor {cfg : Cfg} {l : Lcd} (row : BitVec 1) (col : BitVec 4)
    (h : goodLcd cfg l) : goodLcd cfg (moveCursor row col l) := h

/-- Putting a request other than Done in service; for a Write the index must be in its range. -/
theorem goodLcd_beginCur {cfg : Cfg} {l : Lcd} (h : goodLcd cfg l)
    (hnone : (curSlot l).kind ≠ .none) (hdone : (curSlot l).kind ≠ .done)
    (hidx : ∀ text length, (curSlot l).kind = .write text length → l.widx ≤ length) :
    goodLcd cfg (beginCur l) :=
  goodLcd_setCur h (goodSlot_withProgress .inProgress h.goodSlot_current hdone)
    (h.goodSlot_current.occupied hnone)
    fun text length hk _ => hidx text length hk

theorem goodLcd_complete {cfg : Cfg} {l : Lcd} (h : goodLcd cfg l)
    (hnone : (curSlot l).kind ≠ .none) : goodLcd cfg (complete l) :=
  have hocc := h.goodSlot_current.occupied hnone
  goodLcd_setCur h (goodSlot_finished hocc) hocc (by simp)

/-- A claim: an idle engine has every slot free, so the lowest free one is the current one
(41_display_sequencer.md R151). -/
theorem goodLcd_claim {cfg : Cfg} {l : Lcd} {k : Kind} {i : Nat} (h : goodLcd cfg l)
    (hlow : ∀ j y, j < i → l.slots[j]? = some y → y.occupied = true)
    (hk : goodSlot cfg ⟨true, k, .start⟩) :
    goodLcd cfg { l with slots := l.slots.set i ⟨true, k, .start⟩ } := by
  by_cases hi : i = l.cur
  · rw [hi]
    exact goodLcd_setCur h hk rfl (by simp)
  · obtain ⟨hcur, hwidx, hslots, hidle, hserved, hwrite, hinit⟩ := h
    have hsel : curSlot { l with slots := l.slots.set i ⟨true, k, .start⟩ } = curSlot l := by
      simp [curSlot, List.getD, List.getElem?_set_ne hi]
    refine ⟨by simpa using hcur, hwidx, fun y hy => ?_, fun hidleCur => ?_,
      fun j y hj hy hocc => ?_, by rwa [writeIndexInRange, hsel], hinit⟩
    · rcases List.mem_or_eq_of_mem_set hy with hy | rfl
      · exact hslots y hy
      · exact hk
    · rw [hsel] at hidleCur
      obtain ⟨hzero, -⟩ := hidle hidleCur
      have hcurOcc := hlow l.cur (curSlot l) (by omega) (by simp [curSlot, hcur])
      simp [hidleCur] at hcurOcc
    · rw [List.getElem?_set] at hy
      split at hy
      · split at hy
        · cases hy
          rfl
        · cases hy
      · exact hserved j y hj hy hocc

/-- The engine goes idle on an empty table (41_display_sequencer.md R157). -/
theorem goodLcd_idle {cfg : Cfg} {l : Lcd} (hpos : 0 < l.slots.length)
    (hwidx : l.widx < cfg.indexEnd) (hslots : ∀ x ∈ l.slots, goodSlot cfg x) (hempty : ∀ x ∈ l.slots, x.occupied = false)
    (hinit : goodInit cfg l) : goodLcd cfg { l with cur := 0 } := by
  have hmem : curSlot { l with cur := 0 } ∈ l.slots := curSlot_mem (l := { l with cur := 0 }) hpos
  obtain ⟨hfree, -⟩ := hslots _ hmem
  have hnone : (curSlot { l with cur := 0 }).kind = .none := hfree.mp (hempty _ hmem)
  refine ⟨hpos, hwidx, hslots, fun _ => ⟨rfl, hempty⟩, fun j x _ hx hocc => ?_,
    fun text length hk => ?_, hinit⟩
  · rw [hempty x (List.mem_of_getElem? hx)] at hocc
    cases hocc
  · rw [hnone] at hk
    cases hk

/-- The engine selects an occupied slot while every occupied slot is at Start, so none of them is
Done (10_state.md R31 (a), (d)). -/
theorem goodLcd_select {cfg : Cfg} {l : Lcd} {i : Nat} {y : Slot} (hy : l.slots[i]? = some y)
    (hocc : y.occupied = true) (hwidx : l.widx < cfg.indexEnd)
    (hslots : ∀ x ∈ l.slots, goodSlot cfg x)
    (hstart : ∀ (j : Nat) (x : Slot), l.slots[j]? = some x → x.occupied = true →
      x.progress = .start)
    (hinit : goodInit cfg l) :
    goodLcd cfg { l with cur := i, slots := l.slots.set i (restarted y) } := by
  obtain ⟨hi, -⟩ := List.getElem?_eq_some_iff.mp hy
  have hygood := hslots y (List.mem_of_getElem? hy)
  obtain ⟨-, hfin, -⟩ := id hygood
  have hydone : y.kind ≠ .done := fun hk => by simpa [hstart i y hy hocc] using hfin hk
  have hsel : curSlot { l with cur := i, slots := l.slots.set i (restarted y) } = restarted y :=
    curSlot_of_getElem? (by simp [hi])
  refine ⟨by simpa using hi, hwidx, fun x hx => ?_, fun hfree => ?_, fun j x hj hx hxocc => ?_,
    fun text length _ hprog => ?_, hinit⟩
  · rcases List.mem_or_eq_of_mem_set hx with hx | rfl
    · exact hslots x hx
    · exact goodSlot_withProgress .start hygood hydone
  · simp [hsel, hocc] at hfree
  · rw [List.getElem?_set_ne (Ne.symm hj)] at hx
    exact hstart j x hx hxocc
  · simp [hsel] at hprog

/-- A reclaim frees the slot in service, which leaves every occupied slot at Start. -/
theorem goodLcd_reclaimStep {cfg : Cfg} {l : Lcd} (h : goodLcd cfg l) :
    goodLcd cfg (reclaimStep l) := by
  obtain ⟨hcur, hwidx, hslots, -, hserved, -, hinit⟩ := h
  have hslots' : ∀ x ∈ (setCur l (released (curSlot l))).slots, goodSlot cfg x := fun x hx => by
    rcases List.mem_or_eq_of_mem_set hx with hx | rfl
    · exact hslots x hx
    · exact goodSlot_free rfl rfl
  have hstart : ∀ (j : Nat) (x : Slot), (setCur l (released (curSlot l))).slots[j]? = some x →
      x.occupied = true → x.progress = .start := fun j x hx hocc => by
    rw [setCur_slots, List.getElem?_set] at hx
    split at hx
    · rename_i hj
      cases hx
      cases hocc
    · rename_i hj
      exact hserved j x (Ne.symm hj) hx hocc
  rcases selectNext_cases (setCur l (released (curSlot l))) with ⟨i, y, hy, hocc, -, hnext⟩ |
    ⟨hempty, hnext⟩
  · rw [reclaimStep, hnext]
    exact goodLcd_select hy hocc hwidx hslots' hstart hinit
  · rw [reclaimStep, hnext]
    exact goodLcd_idle (by simpa using Nat.zero_lt_of_lt hcur) hwidx hslots' hempty hinit

/-- LCD.INIT starts the initialisation from Off only (41_display_sequencer.md R140). -/
theorem goodLcd_initDisplay {cfg : Cfg} {l : Lcd} (h : goodLcd cfg l) :
    goodLcd cfg { l with life := if l.life = .off then .initializing else l.life } := by
  refine goodLcd_of_goodInit _ l.isub l.delay h ?_
  obtain ⟨hoff, hoper, hrest⟩ := h.goodInit
  split
  · exact ⟨by simp, by simp, hrest⟩
  · exact ⟨hoff, hoper, hrest⟩

theorem goodLcd_issueInit {s : State} (cmd : Byte) {here next : InitSub}
    (h : goodLcd s.cfg s.lcd) (hlife : s.lcd.life = .initializing) (hsub : s.lcd.isub = here)
    (hpower : here ≠ .powerOn) (hnext : isubValue next = isubValue here + 1)
    (hdelay : here = .functionSet → s.cfg.initDelayTicks ≤ s.lcd.delay) :
    goodLcd s.cfg (issueInit cmd here next s).lcd := by
  rcases issueInit_cases cmd here next s with ⟨-, hissue⟩ | ⟨-, hissue⟩
  · rw [hissue, ← hsub]
    exact h
  · rw [hissue]
    refine goodLcd_of_goodInit s.lcd.life next s.lcd.delay h ?_
    obtain ⟨-, -, -, hle, hfull⟩ := h.goodInit
    have hnextPower : next ≠ .powerOn := fun e => by simp [e, isubValue] at hnext
    refine ⟨by simp [hlife], by simp [hlife], fun e => absurd e hnextPower, hle, fun _ _ => ?_⟩
    by_cases hfs : here = .functionSet
    · exact le_antisymm hle (hdelay hfs)
    · exact hfull (hsub ▸ hpower) (hsub ▸ hfs)

/-- Clear, SetPosition and RawCommand: the slot is in service, or completes. -/
theorem goodLcd_commandStep {s : State} (b : Byte) (row : BitVec 1) (col : BitVec 4)
    (h : goodLcd s.cfg s.lcd) (hnone : (curSlot s.lcd).kind ≠ .none)
    (hdone : (curSlot s.lcd).kind ≠ .done)
    (hwrite : ∀ text length, (curSlot s.lcd).kind ≠ .write text length) :
    goodLcd s.cfg (commandStep b (moveCursor row col) s).lcd := by
  have hbegin : goodLcd s.cfg (beginCur s.lcd) :=
    goodLcd_beginCur h hnone hdone fun text length hk => absurd hk (hwrite text length)
  rcases commandStep_cases b (moveCursor row col) s with ⟨-, hstep⟩ | ⟨-, hstep⟩
  · rw [hstep]
    exact hbegin
  · rw [hstep]
    refine goodLcd_complete (goodLcd_moveCursor row col hbegin) ?_
    have hsel : curSlot (moveCursor row col (beginCur s.lcd)) = inProgress (curSlot s.lcd) :=
      curSlot_setCur _ h.1
    rwa [hsel]

/-- One call of a character's bus cycle: the index of an accepted read is below the length. -/
theorem goodLcd_writeChar {s : State} {text length : Nat} (b : Byte) (h : goodLcd s.cfg s.lcd)
    (hkind : (curSlot s.lcd).kind = .write text length) (hidx : s.lcd.widx < length) :
    goodLcd s.cfg (writeChar b s).lcd := by
  rcases writeChar_cases b s with ⟨-, hstep⟩ | ⟨-, hstep⟩
  · rw [hstep]
    exact h
  · rw [hstep]
    obtain ⟨-, -, hfits⟩ := h.goodSlot_current
    obtain ⟨-, -, hlen⟩ := hfits text length hkind
    refine goodLcd_setWidx h (incIndex_lt _ _) fun text' length' hk _ => ?_
    rw [hkind] at hk
    cases hk
    rw [incIndex_of_lt hidx hlen]
    exact hidx

/-- A Write is put in service with its index at 0. -/
theorem goodLcd_writeBegin {cfg : Cfg} {l : Lcd} {text length : Nat} (h : goodLcd cfg l)
    (hkind : (curSlot l).kind = .write text length) :
    goodLcd cfg (setWidx (beginCur l) 0) := by
  have hzero : goodLcd cfg (setWidx l 0) :=
    goodLcd_setWidx h (indexEnd_pos cfg) fun _ _ _ _ => Nat.zero_le _
  have hsel : curSlot (setWidx l 0) = curSlot l := rfl
  exact goodLcd_beginCur hzero (by simp [hsel, hkind]) (by simp [hsel, hkind])
    fun _ _ _ => Nat.zero_le _

/-- A tick keeps the sequencer's invariant. -/
theorem TickStep.keeps_goodLcd {s t : State} (h : TickStep s t) (hs : goodLcd s.cfg s.lcd) :
    goodLcd s.cfg t.lcd := by
  have hinit := hs.goodInit
  cases h with
  | idle => exact hs
  | powerOn hlife hsub =>
    obtain ⟨-, -, -, hle, -⟩ := hinit
    exact goodLcd_of_goodInit _ _ _ hs ⟨by simp [hlife], by simp [hlife], by simp, hle, by simp⟩
  | wait hlife hsub hdelay =>
    exact goodLcd_of_goodInit _ _ _ hs
      ⟨by simp [hlife], by simp [hlife], by simp [hsub], hdelay, fun _ hne => absurd hsub hne⟩
  | issueInit cmd here next hlife hsub hpower hnext hdelay =>
    exact goodLcd_issueInit cmd hs hlife hsub hpower hnext hdelay
  | operational hlife hsub =>
    obtain ⟨-, -, hrest⟩ := hinit
    exact goodLcd_of_goodInit _ _ _ hs ⟨by simp, fun _ => hsub, hrest⟩
  | writeBegin text length hkind => exact goodLcd_writeBegin hs hkind
  | writeEnd text length hkind => exact goodLcd_complete hs (by simp [hkind])
  | writeChar text length b hkind hidx => exact goodLcd_writeChar b hs hkind hidx
  | command b row col hnone hdone hwrite =>
    exact goodLcd_commandStep b row col hs hnone hdone hwrite
  | reclaim hkind => exact goodLcd_reclaimStep hs

/-! ### The whole state -/

/-- The invariant reads neither the logs, the wait marker, the responses nor the script. -/
theorem goodState_congr {s t : State} (h : goodState s) (hcfg : t.cfg = s.cfg)
    (hbus : t.bus = s.bus) (hlcd : t.lcd = s.lcd) (huarts : t.uarts = s.uarts)
    (hmem : t.mem = s.mem) : goodState t := by
  simpa [goodState, State.uart, hcfg, hbus, hlcd, huarts, hmem] using h

theorem goodState_setBus {s : State} {b : Bus} (h : goodState s) (hb : goodBus b) :
    goodState (s.setBus b) := by
  obtain ⟨hmem, hcfg, hlcd, -, huarts⟩ := h
  exact ⟨hmem, hcfg, hlcd, hb, huarts⟩

theorem goodState_setLcd {s : State} {l : Lcd} (h : goodState s) (hl : goodLcd s.cfg l) :
    goodState (s.setLcd l) := by
  obtain ⟨hmem, hcfg, -, hbus, huarts⟩ := h
  exact ⟨hmem, hcfg, hl, hbus, huarts⟩

theorem goodState_setMem {s : State} {m : Memory} (h : goodState s) (hm : memWf s.cfg m) :
    goodState (s.setMem m) := by
  obtain ⟨-, hrest⟩ := h
  exact ⟨hm, hrest⟩

theorem goodState.goodUart {s : State} (h : goodState s) (c : Channel) :
    goodUart s.cfg (s.uart c) := by
  obtain ⟨-, -, -, -, huarts⟩ := h
  exact huarts c

theorem goodState_modUart {s : State} {c : Channel} {f : Uart → Uart} (h : goodState s)
    (hf : goodUart s.cfg (f (s.uart c))) : goodState (s.modUart c f) := by
  obtain ⟨hmem, hcfg, hlcd, hbus, huarts⟩ := h
  refine ⟨hmem, hcfg, hlcd, hbus, fun d => ?_⟩
  rw [State.modUart_uart]
  split
  · exact hf
  · exact huarts d

/-- A change of a channel outside its bank and callback entries keeps the invariant. -/
theorem goodState_modUart_of_bank {s : State} {c : Channel} {f : Uart → Uart} (h : goodState s)
    (hch : (f (s.uart c)).ch = (s.uart c).ch) (htx : (f (s.uart c)).cbTx = (s.uart c).cbTx)
    (hrx : (f (s.uart c)).cbRx = (s.uart c).cbRx) : goodState (s.modUart c f) :=
  goodState_modUart h (goodUart_of_bank (h.goodUart c) hch htx hrx)

/-- One action of a callback body, and so every request that answers at once, keeps the invariant. -/
theorem BodyStep.keeps_goodState {s t : State} (h : BodyStep s t) (hs : goodState s) :
    goodState t := by
  obtain ⟨hmem, ⟨-, hwidth, -, -⟩, hlcd, hbus, huarts⟩ := id hs
  cases h with
  | nothing => exact hs
  | strobe b rs => exact goodState_setBus hs (goodBus_strobe b rs hbus)
  | elow => exact goodState_setBus hs (goodBus_dropEnable hbus)
  | display => exact goodState_setLcd (goodState_setBus hs hbus) (goodLcd_initDisplay hlcd)
  | claim k i x _ _ hlow hnone hdone hwrite =>
    exact goodState_setLcd hs (goodLcd_claim hlcd hlow (goodSlot_claimed hnone hdone hwrite))
  | configure c flags brr => exact goodState_modUart_of_bank hs rfl rfl rfl
  | send c data length b _ hnull hread _ hlen =>
    obtain ⟨hpos, -, hdata, -⟩ := bufRead_eq_some.mp hread
    exact goodState_modUart hs (goodUart_startTx (goodUart_of_bank (huarts c) rfl rfl rfl)
      hwidth hnull (by simpa using hdata) hpos hlen)
  | recv c dest start length _ hnull hdest hstart hlen =>
    exact goodState_modUart hs (goodUart_startRx (huarts c) hnull hdest hstart hlen)
  | sendb c b => exact goodState_modUart_of_bank hs rfl rfl rfl
  | recvb c => exact goodState_modUart_of_bank hs rfl rfl rfl
  | regcb c dir handler _ hfit =>
    exact goodState_modUart hs (goodUart_setCallback dir (huarts c) hfit)
  | store a v ha => exact goodState_setMem hs (memWrite_wf a v hmem ha)

/-- Each piece of the handler keeps the invariant. -/
theorem HandlerStep.keeps_goodState {c : Channel} {s t : State} (h : HandlerStep c s t)
    (hs : goodState s) : goodState t := by
  have hc := hs.goodUart c
  cases h with
  | body _ hbody => exact hbody.keeps_goodState hs
  | log x => exact goodState_congr hs rfl rfl rfl rfl rfl
  | releaseTx => exact goodState_modUart hs (goodUart_finishTx hc)
  | ackTx => exact goodState_modUart_of_bank hs rfl rfl rfl
  | sendNext b hbusy hidx =>
    have hnext : goodUart s.cfg (nextTx s.cfg (sentByte b (s.uart c))) :=
      goodUart_nextTx (goodUart_of_bank hc rfl rfl rfl) hbusy hidx
    exact goodState_modUart hs (goodUart_of_bank hnext rfl rfl rfl)
  | store m hm =>
    have hstored : goodState (s.setMem m) := goodState_setMem hs (bufWrite_wf hs.1 hm)
    exact goodState_modUart hstored (goodUart_nextRx (goodUart_of_bank hc rfl rfl rfl))
  | releaseRx =>
    have hfinished : goodUart s.cfg (finishRx (clearRxne (s.uart c))) :=
      goodUart_finishRx (goodUart_of_bank hc rfl rfl rfl)
    exact goodState_modUart hs (goodUart_of_bank hfinished rfl rfl rfl)

theorem tick_goodState {s t : State} (h : tick s = .next t) (hs : goodState s) : goodState t := by
  obtain ⟨hcfg, huarts, hmem, -⟩ := tick_frame h
  have hstep := tick_eq_next h
  obtain ⟨-, -, hlcd, hbus, -⟩ := id hs
  have hbus' : goodBus t.bus := by
    rcases hstep.bus with hb | hb | ⟨b, rs, hb⟩
    · rwa [hb]
    · rw [hb]
      exact goodBus_dropEnable hbus
    · rw [hb]
      exact goodBus_strobe b rs hbus
  exact goodState_congr (goodState_setLcd (goodState_setBus hs hbus') (hstep.keeps_goodLcd hlcd))
    hcfg rfl rfl huarts hmem

/-- Every operation keeps the invariant. -/
theorem exec_goodState {i : Instr} {s t : State} (h : exec i s = .next t) (hs : goodState s) :
    goodState t := by
  cases exec_eq_next h with
  | nop | sendbRejected | recvbRejected | recvbIssued =>
    exact goodState_congr hs rfl rfl rfl rfl rfl
  | request _ hreq =>
    exact goodState_congr ((callbackRequest_eq_next hreq).keeps_goodState hs) rfl rfl rfl rfl rfl
  | sendbIssued sel byte c =>
    have hsent : goodState (s.modUart c (sentByte byte)) := goodState_modUart_of_bank hs rfl rfl rfl
    exact goodState_congr hsent rfl rfl rfl rfl rfl
  | tick htick => exact goodState_congr (tick_goodState htick hs) rfl rfl rfl rfl rfl
  | irq hrun =>
    have hu := hrun.keeps hs fun _ _ hu huv => huv.keeps_goodState hu
    exact goodState_congr hu rfl rfl rfl rfl rfl
  | txdone c =>
    have hsent : goodState (s.modUart c byteSent) := goodState_modUart_of_bank hs rfl rfl rfl
    exact goodState_congr hsent rfl rfl rfl rfl rfl
  | rxbyte c b =>
    have hreceived : goodState (s.modUart c (byteReceived b)) :=
      goodState_modUart_of_bank hs rfl rfl rfl
    exact goodState_congr hreceived rfl rfl rfl rfl rfl

/-- The completion of a busy-wait keeps the invariant (42_serial_submission.md R182, R183). -/
theorem completeBlocking_goodState {s : State} (hs : goodState s) :
    goodState (completeBlocking s) := by
  unfold completeBlocking
  split
  · exact hs
  · rename_i c _
    have hcleared : goodState (s.modUart c clearTc) := goodState_modUart_of_bank hs rfl rfl rfl
    exact goodState_congr hcleared rfl rfl rfl rfl rfl
  · rename_i c _
    have hread : goodState (drRead c s).2 := goodState_modUart_of_bank hs rfl rfl rfl
    have hcleared : goodState ((drRead c s).2.modUart c clearRxne) :=
      goodState_modUart_of_bank hread rfl rfl rfl
    exact goodState_congr hcleared rfl rfl rfl rfl rfl

/-- What a step that takes a next state can do: complete a busy-wait, or run an operation. -/
theorem step_eq_next {s t : State} (h : step s = .next t) :
    (completionEnabled s = true ∧ t = completeBlocking s) ∨ ∃ i, exec i s = .next t := by
  unfold step at h
  split at h
  · rename_i hdone
    cases h
    exact .inl ⟨hdone, rfl⟩
  · split at h
    · cases h
    · split at h
      · cases h
      · cases h
      · split at h
        · cases h
        · exact .inr ⟨_, h⟩

/-! ### Reset -/

/-- The bank of every channel after reset is the same (10_state.md R32, R52). -/
theorem resetWith_uart (cfg : Cfg) (n : Nat) (o : ResetLevels) (mem : Memory) (c : Channel) :
    (State.resetWith cfg n o mem).uart c =
      Uart.resetWith cfg.nullRef (o.sr.get c) (o.brr.get c) (o.cr.get c) (o.rdr.get c) := by
  cases c <;> rfl

theorem goodUart_resetWith {cfg : Cfg} (sr : StatusReg) (brr : BitVec 16) (cr : ControlReg)
    (rdr : Byte) (hnull : cfg.nullRef < cfg.memEnd) :
    goodUart cfg (Uart.resetWith cfg.nullRef sr brr cr rdr) := by
  simp [goodUart, fitsWidths, Uart.resetWith, ChBank.resetWith, hnull, indexEnd_pos]

theorem curSlot_resetWith (n : Nat) : curSlot (Lcd.resetWith n) = Slot.free := by
  simp only [curSlot, Lcd.resetWith, List.getD, List.getElem?_replicate]
  split <;> rfl

theorem goodLcd_resetWith {cfg : Cfg} {n : Nat} (hn : 1 ≤ n) : goodLcd cfg (Lcd.resetWith n) := by
  have hfree : ∀ x ∈ (Lcd.resetWith n).slots, x = Slot.free :=
    fun x hx => List.eq_of_mem_replicate hx
  have hpos : 0 < (Lcd.resetWith n).slots.length := by
    rw [Lcd.resetWith, List.length_replicate]
    exact hn
  refine ⟨hpos, indexEnd_pos cfg, fun x hx => ?_, fun _ => ⟨rfl, ?_⟩, fun i x _ hx _ => ?_, ?_,
    by simp [goodInit, Lcd.resetWith]⟩
  · exact hfree x hx ▸ goodSlot_free rfl rfl
  · exact fun x hx => hfree x hx ▸ rfl
  · exact hfree x (List.mem_of_getElem? hx) ▸ rfl
  · simp [writeIndexInRange, curSlot_resetWith, Slot.free]

theorem goodState_resetWith {cfg : Cfg} {n : Nat} {o : ResetLevels} {mem : Memory}
    (hcfg : goodCfg cfg) (hn : 1 ≤ n) (hmem : memWf cfg mem) :
    goodState (State.resetWith cfg n o mem) := by
  obtain ⟨-, -, hnull, -⟩ := id hcfg
  refine ⟨hmem, hcfg, goodLcd_resetWith hn, ⟨by simp [State.resetWith, Bus.resetWith],
    by simp [State.resetWith, Bus.resetWith]⟩, fun c => ?_⟩
  rw [resetWith_uart]
  exact goodUart_resetWith _ _ _ _ hnull

/-- CHANNEL_OF of the default parameters names each channel by one selector. -/
theorem resolve_default {sel : Byte} {c : Channel} (h : resolve Cfg.default sel = some c) :
    sel = c.index := by
  simp only [resolve, Cfg.default, List.lookup_cons, List.lookup_nil] at h
  split at h
  · cases h
    simp_all [Channel.index]
  · split at h
    · cases h
      simp_all [Channel.index]
    · split at h
      · cases h
        simp_all [Channel.index]
      · cases h

theorem goodCfg_default : goodCfg Cfg.default :=
  ⟨le_refl _, by decide, by decide, fun _ _ _ h h' =>
    (resolve_default h).trans (resolve_default h').symm⟩

/-! ### The statements -/

/-- Settles O49, by the cases of a step: a completion keeps the invariant, and so does every
operation. -/
theorem everyStepKeepsTheInvariant : Obligations.EveryStepKeepsTheInvariant := by
  intro s t hs h
  rcases step_eq_next h with ⟨-, rfl⟩ | ⟨i, hi⟩
  · exact completeBlocking_goodState hs
  · exact exec_goodState hi hs

/-- Settles O48. -/
theorem resetIsAGoodState : Obligations.ResetIsAGoodState :=
  ⟨fun _ _ _ _ hcfg hn hmem => goodState_resetWith hcfg hn hmem,
    goodState_resetWith goodCfg_default (by decide) reset_memWf⟩

/-- Settles O47, by the channel; the model's own reset is its named choice of the open values. -/
theorem resetLeavesTheResetTable : Obligations.ResetLeavesTheResetTable := by
  refine ⟨?_, _, _, _, _, rfl⟩
  rintro cfg n o mem c s rfl
  have hslots : ∀ x ∈ (State.resetWith cfg n o mem).lcd.slots, x = Slot.free :=
    fun x hx => List.eq_of_mem_replicate hx
  have hfree : ∀ x ∈ (State.resetWith cfg n o mem).lcd.slots,
      x.occupied = false ∧ x.kind = .none ∧ x.progress = .start := fun x hx => by
    rw [hslots x hx]
    exact ⟨rfl, rfl, rfl⟩
  have hlength : (State.resetWith cfg n o mem).lcd.slots.length = n := List.length_replicate
  rw [State.uarts_get, resetWith_uart]
  exact ⟨rfl, rfl, rfl, rfl, rfl, rfl, rfl, rfl, rfl, rfl, rfl, hlength, hfree, rfl, rfl, rfl, rfl,
    rfl, rfl, rfl, rfl, rfl, rfl, rfl, rfl, rfl, rfl, rfl, rfl, rfl, rfl⟩

end Sys2Proof.Machine
end

section
/-!
SUPPORT. What each operation moves and what it leaves alone, as one relation per part of the state: the
script position and responses, the latch log, the status and enable bits, the lifecycle, the slot
table, the transfer banks; and what a step does with the words at `pc`. Settles O39 to O41 and O53 to O58.
-/

namespace Sys2Proof.Machine

/-! ### Script position and responses -/

/-- A request writes neither the parameters nor the script, and answers one code. -/
theorem request_frame {a : CallbackAction} {s u : State} {r : Response}
    (h : callbackRequest a s = .next (u, r)) :
    u.cfg = s.cfg ∧ u.responses = s.responses ∧ u.script = s.script ∧ u.pc = s.pc := by
  obtain ⟨hcfg, -, -, hresp, hscript, hpc⟩ := (callbackRequest_eq_next h).frame
  exact ⟨hcfg, hresp, hscript, hpc⟩

/-- An operation moves `pc` past its words and writes neither the script nor the parameters
(30_encoding.md R102, 10_state.md R34). -/
theorem ExecStep.advances {i : Instr} {s t : State} (h : ExecStep s i t) :
    t.pc = s.pc + i.wordCount ∧ t.script = s.script ∧ t.cfg = s.cfg := by
  cases h with
  | nop | sendbRejected | sendbIssued | recvbRejected | recvbIssued | txdone | rxbyte =>
    exact ⟨rfl, rfl, rfl⟩
  | request _ hreq =>
    obtain ⟨hcfg, -, hscript, hpc⟩ := request_frame hreq
    simp [hcfg, hscript, hpc]
  | tick htick =>
    obtain ⟨hcfg, -, -, -, -, -, hscript, hpc⟩ := tick_frame htick
    simp [hcfg, hscript, hpc, Instr.wordCount]
  | irq hrun =>
    obtain ⟨hcfg, -, -, hscript, hpc⟩ := hrun.frame
    simp [hcfg, hscript, hpc, Instr.wordCount]

/-- An operation that is no request that answers at once delivers nothing, or InvalidChannel for a
blocking request (30_encoding.md R100, R101). -/
theorem ExecStep.responses_of_noRequest {i : Instr} {s t : State} (h : ExecStep s i t)
    (hi : requestOf i = none) :
    t.responses = s.responses ∨
      (i.isForeground = true ∧ t.responses = s.responses ++ [codeOnly .invalidChannel]) := by
  cases h with
  | nop | sendbIssued | recvbIssued | txdone | rxbyte => exact .inl rfl
  | sendbRejected | recvbRejected => exact .inr ⟨rfl, rfl⟩
  | request hsome => simp [hi] at hsome
  | tick htick =>
    obtain ⟨-, -, -, -, -, hresp, -⟩ := tick_frame htick
    exact .inl hresp
  | irq hrun =>
    obtain ⟨-, -, hresp, -⟩ := hrun.frame
    exact .inl hresp

/-- A request that answers at once delivers one code and no data (30_encoding.md R100). -/
theorem ExecStep.responses_of_request {i : Instr} {a : CallbackAction} {s t : State}
    (h : ExecStep s i t) (hi : requestOf i = some a) :
    ∃ code, t.responses = s.responses ++ [codeOnly code] := by
  cases h with
  | request _ hreq =>
    obtain ⟨-, hresp, -⟩ := request_frame hreq
    exact ⟨_, by rw [State.advance_responses, State.respond_responses, hresp]⟩
  | nop | sendbRejected | sendbIssued | recvbRejected | recvbIssued | tick | irq | txdone
  | rxbyte => cases hi

theorem requestOf_eq_none_of_event {i : Instr} (h : i.isForeground = false) :
    requestOf i = none := by
  cases i with
  | nop | lcdTick | usIrq | hwTxdone | hwRxbyte => rfl
  | stbCmd | stbChr | stbElow | lcdInit | lcdWrite | lcdGoto | lcdClear | lcdCmd | usInit | usSend
  | usRecv | usSendb | usRecvb | usRegcb => cases h

/-- A foreground request is a blocking one or answers at once. -/
theorem exists_requestOf {i : Instr} (h : i.isForeground = true)
    (hblock : ∀ sel byte, i ≠ .usSendb sel byte ∧ i ≠ .usRecvb sel) :
    ∃ a, requestOf i = some a := by
  cases i with
  | nop | lcdTick | usIrq | hwTxdone | hwRxbyte => cases h
  | usSendb sel byte => exact absurd rfl (hblock sel byte).1
  | usRecvb sel => exact absurd rfl (hblock sel 0).2
  | stbCmd | stbChr | stbElow | lcdInit | lcdWrite | lcdGoto | lcdClear | lcdCmd | usInit | usSend
  | usRecv | usRegcb => exact ⟨_, rfl⟩

/-- Settles O41, from what an operation moves and what it answers. -/
theorem everyOperationAdvancesAndAnswers : Obligations.EveryOperationAdvancesAndAnswers := by
  intro i s t h
  have hstep := exec_eq_next h
  obtain ⟨hpc, hscript, hcfg⟩ := hstep.advances
  refine ⟨hpc, hscript, hcfg, fun hevent => ?_, fun sel byte hblock => ?_, fun hfg hblock => ?_⟩
  · rcases hstep.responses_of_noRequest (requestOf_eq_none_of_event hevent) with hr | ⟨hfg, -⟩
    · exact hr
    · simp [hevent] at hfg
  · have hnone : requestOf i = none := by rcases hblock with rfl | rfl <;> rfl
    exact (hstep.responses_of_noRequest hnone).imp_right And.right
  · obtain ⟨a, ha⟩ := exists_requestOf hfg hblock
    exact hstep.responses_of_request ha

/-! ### The latch log -/

/-- From `u` to `v` the latch log grows exactly at a fall of an `E` the block had driven high, by the
levels held (10_state.md R47). -/
def LatchRecords (u v : Bus) : Prop :=
  (u.eDriven = true ∧ u.e = true ∧ v.e = false → v.latchLog = u.latchLog ++ [⟨u.rs, u.rw, u.d⟩]) ∧
    (¬ (u.eDriven = true ∧ u.e = true ∧ v.e = false) → v.latchLog = u.latchLog)

theorem LatchRecords.of_same {u v : Bus} (he : v.e = u.e) (hlog : v.latchLog = u.latchLog) :
    LatchRecords u v :=
  ⟨fun ⟨_, hhigh, hlow⟩ => by simp [he, hhigh] at hlow, fun _ => hlog⟩

/-- A write of 0 to `E` whatever becomes of the phase (40_strobe_driver.md R121, R124). -/
theorem LatchRecords.dropEnable (u : Bus) (phase : Bool) :
    LatchRecords u { dropEnable u with phase := phase } := by
  simp only [LatchRecords, dropEnable_e, dropEnable_latchLog, Bool.and_eq_true, and_true]
  exact ⟨fun hfall => if_pos hfall, fun hfall => if_neg hfall⟩

theorem LatchRecords.strobe (b : Byte) (rs : Bool) (u : Bus) : LatchRecords u (strobe b rs u) := by
  cases hphase : u.phase with
  | false =>
    rw [strobe_of_not_asserted hphase]
    exact ⟨fun ⟨_, _, hlow⟩ => by simp at hlow, fun _ => rfl⟩
  | true =>
    rw [strobe_of_asserted hphase]
    exact LatchRecords.dropEnable u false

theorem BodyStep.latchRecords {s t : State} (h : BodyStep s t) : LatchRecords s.bus t.bus := by
  cases h with
  | strobe b rs => exact .strobe b rs s.bus
  | elow => exact .dropEnable s.bus s.bus.phase
  | nothing | display | claim | configure | send | recv | sendb | recvb | regcb | store =>
    exact .of_same rfl rfl

theorem TickStep.latchRecords {s t : State} (h : TickStep s t) : LatchRecords s.bus t.bus := by
  rcases h.bus with hb | hb | ⟨b, rs, hb⟩
  · exact hb ▸ .of_same rfl rfl
  · exact hb ▸ .dropEnable s.bus s.bus.phase
  · exact hb ▸ .strobe b rs s.bus

/-- Settles O53: a request and a tick drive the bus at most once; the rest, log-only interrupts
included, leave it alone. -/
theorem latchLogRecordsEveryFallOfEnable : Obligations.LatchLogRecordsEveryFallOfEnable := by
  intro i s t h hlog
  change LatchRecords s.bus t.bus
  cases exec_eq_next h with
  | nop | sendbRejected | sendbIssued | recvbRejected | recvbIssued | txdone | rxbyte =>
    exact .of_same rfl rfl
  | request _ hreq => exact (callbackRequest_eq_next hreq).latchRecords
  | tick htick => exact (tick_eq_next htick).latchRecords
  | irq hrun =>
    obtain ⟨hbus, -⟩ := hrun.local_of_logOnly (hlog _ rfl)
    exact .of_same (congrArg Bus.e hbus) (congrArg Bus.latchLog hbus)

/-! ### Relations between a channel before and after -/

/-- A relation that one change of channel `c` has, and that no change has, holds of every channel. -/
theorem modUart_related {R : Uart → Uart → Prop} (hrefl : ∀ u, R u u) {s : State} {c : Channel}
    {f : Uart → Uart} (hf : R (s.uart c) (f (s.uart c))) (d : Channel) :
    R (s.uart d) ((s.modUart c f).uart d) := by
  rw [State.modUart_uart]
  split
  · rename_i hd
    exact hd ▸ hf
  · exact hrefl _

/-! ### Status bits -/

/-- From `u` to `v` no status bit becomes set. -/
def NoStatusSet (u v : Uart) : Prop :=
  (v.sr.tc = true → u.sr.tc = true) ∧ (v.sr.rxne = true → u.sr.rxne = true)

theorem NoStatusSet.of_sr {u v : Uart} (h : v.sr = u.sr) : NoStatusSet u v := by
  simp [NoStatusSet, h]

theorem NoStatusSet.trans {u v w : Uart} (h : NoStatusSet u v) (h' : NoStatusSet v w) :
    NoStatusSet u w :=
  ⟨fun hw => h.1 (h'.1 hw), fun hw => h.2 (h'.2 hw)⟩

theorem BodyStep.noStatusSet {s t : State} (h : BodyStep s t) (d : Channel) :
    NoStatusSet (s.uart d) (t.uart d) := by
  cases h with
  | nothing | strobe | elow | display | claim | store => exact .of_sr rfl
  | configure | send | recv => exact modUart_related (fun _ => .of_sr rfl) (.of_sr rfl) d
  | regcb => exact modUart_related (fun _ => .of_sr rfl) (.of_sr (setCallback_sr _ _ _)) d
  | sendb => exact modUart_related (fun _ => .of_sr rfl) ⟨by simp, by simp⟩ d
  | recvb => exact modUart_related (fun _ => .of_sr rfl) ⟨by simp, by simp⟩ d

theorem HandlerStep.noStatusSet {c : Channel} {s t : State} (h : HandlerStep c s t) (d : Channel) :
    NoStatusSet (s.uart d) (t.uart d) := by
  cases h with
  | body _ hbody => exact hbody.noStatusSet d
  | log => exact .of_sr rfl
  | releaseTx => exact modUart_related (fun _ => .of_sr rfl) (.of_sr rfl) d
  | ackTx | sendNext | releaseRx =>
    exact modUart_related (fun _ => .of_sr rfl) ⟨by simp, by simp⟩ d
  | store m =>
    exact modUart_related (s := s.setMem m) (fun _ => .of_sr rfl) ⟨id, by simp +contextual⟩ d

/-- Only the two hardware events set a status bit, HW.TXDONE its channel's `TC` and HW.RXBYTE its
channel's `RXNE`. -/
theorem ExecStep.status {i : Instr} {s t : State} (h : ExecStep s i t) (d : Channel) :
    NoStatusSet (s.uart d) (t.uart d) ∨
      (i = .hwTxdone d ∧ (t.uart d).sr.rxne = (s.uart d).sr.rxne) ∨
      ((∃ b, i = .hwRxbyte d b) ∧ (t.uart d).sr.tc = (s.uart d).sr.tc) := by
  cases h with
  | nop | sendbRejected | recvbRejected | recvbIssued => exact .inl (.of_sr rfl)
  | sendbIssued => exact .inl (modUart_related (fun _ => .of_sr rfl) (.of_sr rfl) d)
  | request _ hreq => exact .inl ((callbackRequest_eq_next hreq).noStatusSet d)
  | tick htick =>
    obtain ⟨-, huarts, -⟩ := tick_frame htick
    exact .inl (.of_sr (by simp [State.uart, huarts]))
  | irq hrun =>
    exact .inl (hrun.keeps (P := fun u => NoStatusSet (s.uart d) (u.uart d)) (.of_sr rfl)
      fun _ _ hu huv => hu.trans (huv.noStatusSet d))
  | txdone c =>
    by_cases hd : d = c
    · subst hd
      exact .inr (.inl ⟨rfl, by simp⟩)
    · exact .inl (.of_sr (by simp [State.modUart_uart, hd]))
  | rxbyte c b =>
    by_cases hd : d = c
    · subst hd
      exact .inr (.inr ⟨⟨b, rfl⟩, by simp⟩)
    · exact .inl (.of_sr (by simp [State.modUart_uart, hd]))

/-- Settles O54, by what an operation can do to a status register. -/
theorem statusBitsAreSetOnlyByHardware : Obligations.StatusBitsAreSetOnlyByHardware := by
  intro i s t c h
  simp only [State.uarts_get]
  rcases (exec_eq_next h).status c with ⟨htc, hrxne⟩ | ⟨rfl, hrxne⟩ | ⟨hi, htc⟩
  · exact ⟨fun hlow hhigh => by simp [htc hhigh] at hlow,
      fun hlow hhigh => by simp [hrxne hhigh] at hlow⟩
  · exact ⟨fun _ _ => rfl, fun hlow hhigh => by simp [hrxne, hlow] at hhigh⟩
  · exact ⟨fun hlow hhigh => by simp [htc, hlow] at hhigh, fun _ _ => hi⟩

/-! ### Interrupt enables -/

/-- From `u` to `v` no interrupt enable becomes clear. -/
def NoEnableCleared (u v : Uart) : Prop :=
  (u.cr.tcie = true → v.cr.tcie = true) ∧ (u.cr.rxneie = true → v.cr.rxneie = true)

theorem NoEnableCleared.of_cr {u v : Uart} (h : v.cr = u.cr) : NoEnableCleared u v := by
  simp [NoEnableCleared, h]

theorem NoEnableCleared.trans {u v w : Uart} (h : NoEnableCleared u v) (h' : NoEnableCleared v w) :
    NoEnableCleared u w :=
  ⟨fun hu => h'.1 (h.1 hu), fun hu => h'.2 (h.2 hu)⟩

theorem BodyStep.noEnableCleared {s t : State} (h : BodyStep s t) (d : Channel) :
    NoEnableCleared (s.uart d) (t.uart d) := by
  cases h with
  | nothing | strobe | elow | display | claim | store => exact .of_cr rfl
  | sendb | recvb => exact modUart_related (fun _ => .of_cr rfl) (.of_cr rfl) d
  | regcb => exact modUart_related (fun _ => .of_cr rfl) (.of_cr (setCallback_cr _ _ _)) d
  | configure => exact modUart_related (fun _ => .of_cr rfl) ⟨id, id⟩ d
  | send => exact modUart_related (fun _ => .of_cr rfl) ⟨fun htc => by simp [htc], id⟩ d
  | recv => exact modUart_related (fun _ => .of_cr rfl) ⟨id, fun hrx => by simp [hrx]⟩ d

theorem HandlerStep.noEnableCleared {c : Channel} {s t : State} (h : HandlerStep c s t)
    (hkeep : s.cfg.disarmOnComplete = false) (d : Channel) :
    NoEnableCleared (s.uart d) (t.uart d) := by
  cases h with
  | body _ hbody => exact hbody.noEnableCleared d
  | log => exact .of_cr rfl
  | releaseTx | sendNext => exact modUart_related (fun _ => .of_cr rfl) (.of_cr rfl) d
  | store m => exact modUart_related (s := s.setMem m) (fun _ => .of_cr rfl) (.of_cr rfl) d
  | ackTx | releaseRx =>
    exact modUart_related (fun _ => .of_cr rfl) (.of_cr (by simp [hkeep])) d

theorem ExecStep.noEnableCleared {i : Instr} {s t : State} (h : ExecStep s i t)
    (hkeep : s.cfg.disarmOnComplete = false) (d : Channel) :
    NoEnableCleared (s.uart d) (t.uart d) := by
  cases h with
  | nop | sendbRejected | recvbRejected | recvbIssued => exact .of_cr rfl
  | sendbIssued | txdone | rxbyte => exact modUart_related (fun _ => .of_cr rfl) (.of_cr rfl) d
  | request _ hreq => exact (callbackRequest_eq_next hreq).noEnableCleared d
  | tick htick =>
    obtain ⟨-, huarts, -⟩ := tick_frame htick
    exact .of_cr (by simp [State.uart, huarts])
  | irq hrun =>
    have hkept := hrun.keeps
      (P := fun u => u.cfg = s.cfg ∧ NoEnableCleared (s.uart d) (u.uart d)) ⟨rfl, .of_cr rfl⟩
      fun u v ⟨hcfg, hu⟩ huv => by
        obtain ⟨hcfg', -⟩ := huv.frame
        exact ⟨hcfg'.trans hcfg, hu.trans (huv.noEnableCleared (hcfg ▸ hkeep) d)⟩
    obtain ⟨-, henables⟩ := hkept
    exact henables

/-- Settles O55. -/
theorem enablesStaySetWithoutDisarm : Obligations.EnablesStaySetWithoutDisarm :=
  fun _ _ _ c h hkeep => (exec_eq_next h).noEnableCleared hkeep c

/-! ### The lifecycle -/

/-- From `l` to `l'` the lifecycle leaves Off at most, and the init sub-state stays: what LCD.INIT does,
however often it is called (41_display_sequencer.md R140). -/
def StartsAtMost (l l' : Lcd) : Prop :=
  l'.isub = l.isub ∧ (l'.life = l.life ∨ (l.life = .off ∧ l'.life = .initializing))

theorem StartsAtMost.of_same {l l' : Lcd} (hlife : l'.life = l.life) (hsub : l'.isub = l.isub) :
    StartsAtMost l l' := ⟨hsub, .inl hlife⟩

theorem StartsAtMost.trans {l m n : Lcd} (h : StartsAtMost l m) (h' : StartsAtMost m n) :
    StartsAtMost l n := by
  obtain ⟨hsub, hlife⟩ := h
  obtain ⟨hsub', hlife'⟩ := h'
  refine ⟨hsub'.trans hsub, ?_⟩
  rcases hlife with hsame | ⟨hoff, hinit⟩
  · rwa [hsame] at hlife'
  · rcases hlife' with hsame | ⟨hoff', -⟩
    · exact .inr ⟨hoff, hsame.trans hinit⟩
    · simp [hinit] at hoff'

theorem BodyStep.startsAtMost {s t : State} (h : BodyStep s t) : StartsAtMost s.lcd t.lcd := by
  cases h with
  | nothing | strobe | elow | claim | configure | send | recv | sendb | recvb | regcb | store =>
    exact .of_same rfl rfl
  | display =>
    refine ⟨rfl, ?_⟩
    by_cases hoff : s.lcd.life = .off
    · exact .inr ⟨hoff, by simp [hoff]⟩
    · exact .inl (by simp [hoff])

/-- From `l` to `l'` the lifecycle and the init sub-state move forward by at most one state
(10_state.md R24, R25). -/
def MovesForward (l l' : Lcd) : Prop :=
  lifeValue l.life ≤ lifeValue l'.life ∧ lifeValue l'.life ≤ lifeValue l.life + 1 ∧
    isubValue l.isub ≤ isubValue l'.isub ∧ isubValue l'.isub ≤ isubValue l.isub + 1

theorem MovesForward.of_same {l l' : Lcd} (hlife : l'.life = l.life) (hsub : l'.isub = l.isub) :
    MovesForward l l' := by
  simp [MovesForward, hlife, hsub]

theorem StartsAtMost.movesForward {l l' : Lcd} (h : StartsAtMost l l') : MovesForward l l' := by
  obtain ⟨hsub, hsame | ⟨hoff, hinit⟩⟩ := h
  · exact .of_same hsame hsub
  · simp [MovesForward, hsub, hoff, hinit, lifeValue]

theorem issueInit_movesForward {s : State} (cmd : Byte) {here next : InitSub}
    (hsub : s.lcd.isub = here) (hnext : isubValue next = isubValue here + 1) :
    MovesForward s.lcd (issueInit cmd here next s).lcd := by
  rcases issueInit_cases cmd here next s with ⟨-, hissue⟩ | ⟨-, hissue⟩
  · exact .of_same (by simp [hissue]) (by simp [hissue, hsub])
  · simp [MovesForward, hissue, hsub, hnext]

/-- Serving a request leaves the lifecycle alone. -/
theorem commandStep_lifecycle (b : Byte) (row : BitVec 1) (col : BitVec 4) (s : State) :
    (commandStep b (moveCursor row col) s).lcd.life = s.lcd.life ∧
      (commandStep b (moveCursor row col) s).lcd.isub = s.lcd.isub := by
  rcases commandStep_cases b (moveCursor row col) s with ⟨-, hstep⟩ | ⟨-, hstep⟩
  · rw [hstep]
    exact ⟨rfl, rfl⟩
  · rw [hstep]
    exact ⟨rfl, rfl⟩

theorem selectNext_lifecycle (l : Lcd) :
    (selectNext l).life = l.life ∧ (selectNext l).isub = l.isub := by
  rcases selectNext_cases l with ⟨_, _, _, _, _, hnext⟩ | ⟨_, hnext⟩
  · rw [hnext]
    exact ⟨rfl, rfl⟩
  · rw [hnext]
    exact ⟨rfl, rfl⟩

theorem TickStep.movesForward {s t : State} (h : TickStep s t) : MovesForward s.lcd t.lcd := by
  cases h with
  | idle | wait | writeBegin | writeEnd | writeChar => exact .of_same rfl rfl
  | powerOn hlife hsub => simp [MovesForward, hsub, isubValue]
  | issueInit cmd here next _ hsub _ hnext => exact issueInit_movesForward cmd hsub hnext
  | operational hlife => simp [MovesForward, hlife, lifeValue]
  | command b row col =>
    obtain ⟨hlife, hsub⟩ := commandStep_lifecycle b row col s
    exact .of_same hlife hsub
  | reclaim =>
    obtain ⟨hlife, hsub⟩ := selectNext_lifecycle (setCur s.lcd (released (curSlot s.lcd)))
    exact .of_same hlife hsub

/-- Outside its callbacks the handler leaves the sequencer alone, so what every action of a callback does
to it, and a chain of such changes does too, the handler does. -/
theorem HandlerRun.lcd_related {R : Lcd → Lcd → Prop} (hrefl : ∀ l, R l l)
    (htrans : ∀ {l m n}, R l m → R m n → R l n)
    (hbody : ∀ {u v : State}, BodyStep u v → R u.lcd v.lcd) {c : Channel} {s t : State}
    (h : HandlerRun c s t) : R s.lcd t.lcd :=
  h.keeps (P := fun u => R s.lcd u.lcd) (hrefl _) fun u v hu huv => by
    rcases huv.body_or_local with ⟨-, hb⟩ | ⟨-, hlcd, -⟩
    · exact htrans hu (hbody hb)
    · rwa [hlcd]

/-- Settles O56: a request or a callback starts the sequencer at most, a tick advances it by one. -/
theorem lifecycleOnlyMovesForward : Obligations.LifecycleOnlyMovesForward := by
  intro i s t h
  change MovesForward s.lcd t.lcd
  cases exec_eq_next h with
  | nop | sendbRejected | sendbIssued | recvbRejected | recvbIssued | txdone | rxbyte =>
    exact .of_same rfl rfl
  | request _ hreq => exact (callbackRequest_eq_next hreq).startsAtMost.movesForward
  | tick htick => exact (tick_eq_next htick).movesForward
  | irq hrun =>
    exact (hrun.lcd_related (fun _ => .of_same rfl rfl) .trans
      BodyStep.startsAtMost).movesForward

/-! ### The slot table -/

/-- From `l` to `l'` the table keeps its length and every occupied slot is unchanged. -/
def KeepsOccupied (l l' : Lcd) : Prop :=
  l'.slots.length = l.slots.length ∧
    ∀ (j : Nat) (x : Slot), l.slots[j]? = some x → x.occupied = true → l'.slots[j]? = some x

theorem KeepsOccupied.of_slots {l l' : Lcd} (h : l'.slots = l.slots) : KeepsOccupied l l' := by
  rw [KeepsOccupied, h]
  exact ⟨rfl, fun _ _ hx _ => hx⟩

theorem KeepsOccupied.trans {l m n : Lcd} (h : KeepsOccupied l m) (h' : KeepsOccupied m n) :
    KeepsOccupied l n :=
  ⟨h'.1.trans h.1, fun j x hx hocc => h'.2 j x (h.2 j x hx hocc) hocc⟩

theorem BodyStep.keepsOccupied {s t : State} (h : BodyStep s t) : KeepsOccupied s.lcd t.lcd := by
  cases h with
  | nothing | strobe | elow | display | configure | send | recv | sendb | recvb | regcb | store =>
    exact .of_slots rfl
  | claim k i x hx hfree =>
    refine ⟨by simp, fun j y hy hocc => ?_⟩
    have hij : i ≠ j := fun e => by
      rw [← e, hx, Option.some.injEq] at hy
      simp [← hy, hfree] at hocc
    rwa [State.setLcd_lcd, List.getElem?_set_ne hij]

/-- From `l` to `l'` the table keeps its length and every occupied slot but the current one keeps its
request (10_state.md R31 (b)). -/
def KeepsWaiting (l l' : Lcd) : Prop :=
  l'.slots.length = l.slots.length ∧
    ∀ (j : Nat) (x : Slot), l.slots[j]? = some x → x.occupied = true → j ≠ l.cur →
      ∃ y, l'.slots[j]? = some y ∧ y.occupied = true ∧ y.kind = x.kind

theorem KeepsWaiting.of_slots {l l' : Lcd} (h : l'.slots = l.slots) : KeepsWaiting l l' := by
  rw [KeepsWaiting, h]
  exact ⟨rfl, fun _ x hx hocc _ => ⟨x, hx, hocc, rfl⟩⟩

theorem KeepsWaiting.setCur (l : Lcd) (z : Slot) : KeepsWaiting l (setCur l z) := by
  refine ⟨by simp, fun j x hx hocc hj => ⟨x, ?_, hocc, rfl⟩⟩
  rwa [setCur_slots, List.getElem?_set_ne (Ne.symm hj)]

/-- Selecting a slot restarts it and keeps its request. -/
theorem selectNext_slots (l : Lcd) :
    (selectNext l).slots.length = l.slots.length ∧
      ∀ (j : Nat) (x : Slot), l.slots[j]? = some x →
        ∃ y, (selectNext l).slots[j]? = some y ∧ y.occupied = x.occupied ∧ y.kind = x.kind := by
  rcases selectNext_cases l with ⟨i, y, hy, -, -, hnext⟩ | ⟨-, hnext⟩
  · rw [hnext]
    refine ⟨by simp, fun j x hx => ?_⟩
    by_cases hij : i = j
    · subst hij
      obtain ⟨hi, -⟩ := List.getElem?_eq_some_iff.mp hy
      rw [hy, Option.some.injEq] at hx
      subst hx
      exact ⟨restarted y, by simp [hi], rfl, rfl⟩
    · exact ⟨x, by rwa [List.getElem?_set_ne hij], rfl, rfl⟩
  · rw [hnext]
    exact ⟨rfl, fun j x hx => ⟨x, hx, rfl, rfl⟩⟩

theorem KeepsWaiting.reclaimStep (l : Lcd) : KeepsWaiting l (reclaimStep l) := by
  obtain ⟨hlen, hkeep⟩ := KeepsWaiting.setCur l (released (curSlot l))
  obtain ⟨hlen', hkeep'⟩ := selectNext_slots (Machine.setCur l (released (curSlot l)))
  refine ⟨hlen'.trans hlen, fun j x hx hocc hj => ?_⟩
  obtain ⟨y, hy, hyocc, hykind⟩ := hkeep j x hx hocc hj
  obtain ⟨z, hz, hzocc, hzkind⟩ := hkeep' j y hy
  exact ⟨z, hz, hzocc.trans hyocc, hzkind.trans hykind⟩

/-- Clear, SetPosition and RawCommand write the current slot only. -/
theorem commandStep_slots (b : Byte) (row : BitVec 1) (col : BitVec 4) (s : State) :
    ∃ z, (commandStep b (moveCursor row col) s).lcd.slots = (setCur s.lcd z).slots := by
  rcases commandStep_cases b (moveCursor row col) s with ⟨-, hstep⟩ | ⟨-, hstep⟩
  · exact ⟨inProgress (curSlot s.lcd), by simp [hstep, beginCur]⟩
  · exact ⟨finished (curSlot (moveCursor row col (beginCur s.lcd))),
      by simp [hstep, complete, beginCur]⟩

theorem TickStep.keepsWaiting {s t : State} (h : TickStep s t) : KeepsWaiting s.lcd t.lcd := by
  cases h with
  | idle | powerOn | wait | issueInit | operational | writeChar => exact .of_slots rfl
  | writeBegin => exact .setCur s.lcd (inProgress (curSlot s.lcd))
  | writeEnd => exact .setCur s.lcd (finished (curSlot s.lcd))
  | command b row col =>
    obtain ⟨z, hz⟩ := commandStep_slots b row col s
    rw [KeepsWaiting, hz]
    exact KeepsWaiting.setCur s.lcd z
  | reclaim => exact .reclaimStep s.lcd

/-- Every operation but LCD.TICK leaves the occupied slots unchanged. -/
theorem ExecStep.keepsOccupied {i : Instr} {s t : State} (h : ExecStep s i t) (hi : i ≠ .lcdTick) :
    KeepsOccupied s.lcd t.lcd := by
  cases h with
  | nop | sendbRejected | sendbIssued | recvbRejected | recvbIssued | txdone | rxbyte =>
    exact .of_slots rfl
  | request _ hreq => exact (callbackRequest_eq_next hreq).keepsOccupied
  | tick => exact absurd rfl hi
  | irq hrun => exact hrun.lcd_related (fun _ => .of_slots rfl) .trans BodyStep.keepsOccupied

/-- Settles O58, LCD.TICK apart from the other operations. -/
theorem occupiedSlotKeepsItsRequest : Obligations.OccupiedSlotKeepsItsRequest := by
  intro i s t h
  by_cases hi : i = .lcdTick
  · subst hi
    cases exec_eq_next h with
    | request hsome => cases hsome
    | tick htick =>
      obtain ⟨hlen, hkeep⟩ := (tick_eq_next htick).keepsWaiting
      refine ⟨hlen, fun j x hx hocc hj => ?_⟩
      obtain ⟨y, hy, hyocc, hykind⟩ := hkeep j x hx hocc (hj rfl)
      exact ⟨y, hy, hyocc, hykind, fun hne => absurd rfl hne⟩
  · obtain ⟨hlen, hkeep⟩ := (exec_eq_next h).keepsOccupied hi
    exact ⟨hlen, fun j x hx hocc _ => ⟨x, hkeep j x hx hocc, hocc, rfl, fun _ => rfl⟩⟩

/-! ### The transfer banks -/

/-- The transfer registers of one direction of a channel (10_state.md R32). -/
def bankOf (u : Uart) : Direction → Bool × Nat × Nat × Nat
  | .tx => (u.ch.txBusy, u.ch.txIndex, u.ch.txLen, u.ch.txBuffer)
  | .rx => (u.ch.rxBusy, u.ch.rxIndex, u.ch.rxLen, u.ch.rxBuffer)

theorem bankOf_of_ch {u v : Uart} (h : v.ch = u.ch) (dir : Direction) :
    bankOf v dir = bankOf u dir := by
  cases dir <;> simp [bankOf, h]

theorem bankOf_busy (u : Uart) (dir : Direction) : (bankOf u dir).1 = busyOf u dir := by
  cases dir <;> rfl

theorem bankOf_tx_eq {u v : Uart} :
    bankOf v .tx = bankOf u .tx ↔
      v.ch.txBusy = u.ch.txBusy ∧ v.ch.txIndex = u.ch.txIndex ∧ v.ch.txLen = u.ch.txLen ∧
        v.ch.txBuffer = u.ch.txBuffer := by
  simp [bankOf]

theorem bankOf_rx_eq {u v : Uart} :
    bankOf v .rx = bankOf u .rx ↔
      v.ch.rxBusy = u.ch.rxBusy ∧ v.ch.rxIndex = u.ch.rxIndex ∧ v.ch.rxLen = u.ch.rxLen ∧
        v.ch.rxBuffer = u.ch.rxBuffer := by
  simp [bankOf]

/-- From `u` to `v` the registers of a busy direction are left alone. -/
def KeepsBusyBanks (u v : Uart) : Prop :=
  ∀ dir, busyOf u dir = true → bankOf v dir = bankOf u dir

theorem KeepsBusyBanks.of_ch {u v : Uart} (h : v.ch = u.ch) : KeepsBusyBanks u v :=
  fun dir _ => bankOf_of_ch h dir

theorem KeepsBusyBanks.trans {u v w : Uart} (h : KeepsBusyBanks u v) (h' : KeepsBusyBanks v w) :
    KeepsBusyBanks u w := fun dir hbusy => by
  have hkept := h dir hbusy
  have hstill : busyOf v dir = true := by rw [← bankOf_busy, hkept, bankOf_busy, hbusy]
  exact (h' dir hstill).trans hkept

/-- A submission takes only a direction that is not busy (42_serial_submission.md R175, R176). -/
theorem BodyStep.keepsBusyBanks {s t : State} (h : BodyStep s t) (d : Channel) :
    KeepsBusyBanks (s.uart d) (t.uart d) := by
  cases h with
  | nothing | strobe | elow | display | claim | store => exact .of_ch rfl
  | configure | sendb | recvb => exact modUart_related (fun _ => .of_ch rfl) (.of_ch rfl) d
  | regcb => exact modUart_related (fun _ => .of_ch rfl) (.of_ch (setCallback_ch _ _ _)) d
  | send c data length b hfree =>
    refine modUart_related (fun _ => .of_ch rfl) (fun dir hbusy => ?_) d
    cases dir with
    | tx => simp [busyOf, hfree] at hbusy
    | rx => rfl
  | recv c dest start length hfree =>
    refine modUart_related (fun _ => .of_ch rfl) (fun dir hbusy => ?_) d
    cases dir with
    | tx => rfl
    | rx => simp [busyOf, hfree] at hbusy

/-- While a direction is busy no operation but the interrupt of its own channel touches its registers
(10_state.md R33). -/
theorem ExecStep.keepsBusyBanks {i : Instr} {s t : State} (h : ExecStep s i t) {d : Channel}
    (hi : i ≠ .usIrq d) : KeepsBusyBanks (s.uart d) (t.uart d) := by
  cases h with
  | nop | sendbRejected | recvbRejected | recvbIssued => exact .of_ch rfl
  | sendbIssued | txdone | rxbyte => exact modUart_related (fun _ => .of_ch rfl) (.of_ch rfl) d
  | request _ hreq => exact (callbackRequest_eq_next hreq).keepsBusyBanks d
  | tick htick =>
    obtain ⟨-, huarts, -⟩ := tick_frame htick
    exact .of_ch (by simp [State.uart, huarts])
  | irq hrun =>
    refine hrun.keeps (P := fun u => KeepsBusyBanks (s.uart d) (u.uart d)) (.of_ch rfl)
      fun u v hu huv => ?_
    rcases huv.body_or_local with ⟨-, hbody⟩ | ⟨-, -, hother⟩
    · exact hu.trans (hbody.keepsBusyBanks d)
    · rwa [hother d fun hd => hi (hd ▸ rfl)]

/-- The operation submits a transfer of the direction. -/
def submits (i : Instr) : Direction → Prop
  | .tx => ∃ sel data length, i = .usSend sel data length
  | .rx => ∃ sel dest start length, i = .usRecv sel dest start length

/-- A change of one channel that leaves its registers of a direction alone leaves every channel's. -/
theorem bankOf_modUart {s : State} {c : Channel} {f : Uart → Uart} {dir : Direction}
    (hf : bankOf (f (s.uart c)) dir = bankOf (s.uart c) dir) (d : Channel) :
    bankOf ((s.modUart c f).uart d) dir = bankOf (s.uart d) dir :=
  modUart_related (R := fun u v => bankOf v dir = bankOf u dir) (fun _ => rfl) hf d

theorem claim_uart {k : Kind} {s t : State} {r : Response} (h : claim k s = .next (t, r))
    (d : Channel) : t.uart d = s.uart d := by
  rcases claim_eq_next.mp h with ⟨_, _, _, _, _, rfl, _⟩ | ⟨_, rfl, _⟩
  · rfl
  · rfl

theorem reject_uart {code : ResultCode} {s t : State} {r : Response}
    (h : reject s code = .next (t, r)) (d : Channel) : t.uart d = s.uart d := by
  obtain ⟨rfl, -⟩ := reject_eq_next.mp h
  rfl

/-- A request that submits no transfer of a direction leaves that direction's registers alone. -/
theorem request_bankOf {i : Instr} {a : CallbackAction} {s t : State} {r : Response}
    (hi : requestOf i = some a) (h : callbackRequest a s = .next (t, r)) {dir : Direction}
    (hsub : ¬ submits i dir) (d : Channel) : bankOf (t.uart d) dir = bankOf (s.uart d) dir := by
  cases i with
  | nop | usSendb | usRecvb | lcdTick | usIrq | hwTxdone | hwRxbyte => cases hi
  | stbCmd | stbChr | stbElow | lcdInit =>
    cases hi
    cases h
    rfl
  | lcdWrite text length =>
    cases hi
    simp only [callbackRequest, requestWrite] at h
    split at h
    · rw [reject_uart h]
    · rw [claim_uart h]
  | lcdGoto row col =>
    cases hi
    simp only [callbackRequest, requestGoto] at h
    split at h
    · rw [claim_uart h]
    · rw [reject_uart h]
  | lcdClear | lcdCmd =>
    cases hi
    rw [claim_uart h]
  | usInit =>
    cases hi
    rcases requestInit_eq_next h with ⟨rfl, -⟩ | ⟨c, -, -, -, -, rfl, -⟩
    · rfl
    · exact bankOf_modUart (bankOf_of_ch rfl dir) d
  | usSend sel data length =>
    cases hi
    cases dir with
    | tx => exact absurd ⟨sel, data, length, rfl⟩ hsub
    | rx =>
      rcases requestSend_eq_next h with ⟨rfl, -⟩ | ⟨c, b, -, -, -, -, -, rfl, -⟩
      · rfl
      · exact bankOf_modUart rfl d
  | usRecv sel dest start length =>
    cases hi
    cases dir with
    | tx =>
      rcases requestRecv_eq_next h with ⟨rfl, -⟩ | ⟨c, -, -, -, rfl, -⟩
      · rfl
      · exact bankOf_modUart rfl d
    | rx => exact absurd ⟨sel, dest, start, length, rfl⟩ hsub
  | usRegcb =>
    cases hi
    rcases requestRegcb_eq_next h with ⟨rfl, -⟩ | ⟨c, -, -, rfl, -⟩
    · rfl
    · exact bankOf_modUart (bankOf_of_ch (setCallback_ch _ _ _) dir) d

/-- With log-only callbacks the registers of a direction are left alone by every operation but a
submission and the interrupt of the channel (20_memory.md R75). -/
theorem ExecStep.keepsIdleBank {i : Instr} {s t : State} (h : ExecStep s i t) {d : Channel}
    {dir : Direction} (hi : i ≠ .usIrq d) (hlog : s.cfg.cbBody = []) (hsub : ¬ submits i dir) :
    bankOf (t.uart d) dir = bankOf (s.uart d) dir := by
  cases h with
  | nop | sendbRejected | recvbRejected | recvbIssued => rfl
  | sendbIssued | txdone | rxbyte => exact bankOf_modUart (bankOf_of_ch rfl dir) d
  | request hsome hreq => exact request_bankOf hsome hreq hsub d
  | tick htick =>
    obtain ⟨-, huarts, -⟩ := tick_frame htick
    exact bankOf_of_ch (by simp [State.uart, huarts]) dir
  | irq hrun =>
    obtain ⟨-, -, hother⟩ := hrun.local_of_logOnly hlog
    exact bankOf_of_ch (congrArg Uart.ch (hother d fun hd => hi (hd ▸ rfl))) dir

/-- Settles O57: the busy directions by `KeepsBusyBanks`, the idle ones by what submits. -/
theorem busyFlagHandsOverTheBank : Obligations.BusyFlagHandsOverTheBank := by
  intro i s t c h hirq
  simp only [State.uarts_get]
  have hstep := exec_eq_next h
  have hbusy := hstep.keepsBusyBanks hirq
  refine ⟨fun htx => ?_, fun hrx => ?_, fun hlog htx hsub => ?_, fun hlog hrx hsub => ?_⟩
  · exact htx ▸ bankOf_tx_eq.mp (hbusy .tx htx)
  · exact hrx ▸ bankOf_rx_eq.mp (hbusy .rx hrx)
  · have hidle : ¬ submits i .tx := fun ⟨sel, data, length, e⟩ => hsub sel data length e
    exact htx ▸ bankOf_tx_eq.mp (hstep.keepsIdleBank hirq hlog hidle)
  · have hidle : ¬ submits i .rx := fun ⟨sel, dest, start, length, e⟩ =>
      hsub sel dest start length e
    exact hrx ▸ bankOf_rx_eq.mp (hstep.keepsIdleBank hirq hlog hidle)

/-! ### Steps -/

theorem completionEnabled_eq_false {s : State}
    (hsend : ∀ c, s.fgWait = .sendB c → (s.uarts.get c).sr.tc = false)
    (hrecv : ∀ c, s.fgWait = .recvB c → (s.uarts.get c).sr.rxne = false) :
    completionEnabled s = false := by
  unfold completionEnabled
  split
  · rfl
  · exact hsend _ ‹_›
  · exact hrecv _ ‹_›

theorem fetch_of_scriptEnd {s : State} (h : s.script.length ≤ s.pc) : fetch s = .truncated := by
  rw [fetch, List.drop_eq_nil_of_le h, decode]

/-- Words that decode to anything but missing words lie inside the script. -/
theorem scriptOver_eq_false {s : State} (h : fetch s ≠ .truncated) : scriptOver s = false :=
  decide_eq_false fun hend => h (fetch_of_scriptEnd hend)

theorem step_of_scriptEnd {s : State} (hwait : completionEnabled s = false)
    (h : s.script.length ≤ s.pc) : step s = .refused .scriptEnded := by
  have hover : scriptOver s = true := decide_eq_true h
  simp [step, hwait, hover]

theorem step_of_illegal {s : State} (hwait : completionEnabled s = false)
    (h : fetch s = .illegal) : step s = .refused .illegalRequest := by
  have hover : scriptOver s = false := scriptOver_eq_false (by simp [h])
  simp [step, hwait, hover, h]

theorem step_of_truncated {s : State} (hwait : completionEnabled s = false)
    (h : fetch s = .truncated) (hpc : s.pc < s.script.length) :
    step s = .refused .truncatedScript := by
  have hover : scriptOver s = false := decide_eq_false (not_le.mpr hpc)
  simp [step, hwait, hover, h]

theorem step_of_instr {s : State} {i : Instr} (hwait : completionEnabled s = false)
    (h : fetch s = .instr i) :
    step s = if blocked i s then .refused .foregroundBlocked else exec i s := by
  have hover : scriptOver s = false := scriptOver_eq_false (by simp [h])
  simp [step, hwait, hover, h]

theorem blocked_eq_true {i : Instr} {s : State} :
    blocked i s = true ↔ i.isForeground = true ∧ s.fgWait ≠ .none := by
  simp [blocked, foregroundWaits]

/-- Settles O39. -/
theorem stepRunsTheDecodedOperation : Obligations.StepRunsTheDecodedOperation := by
  intro s i hsend hrecv hdecode hfree
  rw [step_of_instr (completionEnabled_eq_false hsend hrecv) hdecode, if_neg]
  rw [blocked_eq_true]
  exact fun ⟨hfg, hwait⟩ => hwait (hfree hfg)

/-- Settles O40. -/
theorem stepRefusesWhatTheScriptMayNotDo : Obligations.StepRefusesWhatTheScriptMayNotDo := by
  intro s hsend hrecv
  have hwait := completionEnabled_eq_false hsend hrecv
  refine ⟨fun i hdecode hfg hbusy => ?_, step_of_illegal hwait, step_of_truncated hwait,
    step_of_scriptEnd hwait⟩
  rw [step_of_instr hwait hdecode, if_pos (blocked_eq_true.mpr ⟨hfg, hbusy⟩)]

end Sys2Proof.Machine
end

section
/-!
SUPPORT. The two sides of the block: the display operations leave the serial side and memory alone, the
serial operations leave the display side alone, and a run of the interrupt handler with log-only callbacks
stores at one byte at most. Settles O59.
-/

namespace Sys2Proof.Machine

/-! ### The operations of the two sides -/

/-- The operations of units STB and LCD, and HW.NOP. -/
def displayOpcodes : List Opcode :=
  [.stbCmd, .stbChr, .stbElow, .lcdInit, .lcdWrite, .lcdGoto, .lcdClear, .lcdCmd, .lcdTick, .nop]

/-- The operations and events of unit UBT, and HW.NOP. -/
def serialOpcodes : List Opcode :=
  [.usInit, .usSend, .usRecv, .usSendb, .usRecvb, .usRegcb, .usIrq, .hwTxdone, .hwRxbyte, .nop]

theorem display_or_serial (o : Opcode) : o ∈ displayOpcodes ∨ o ∈ serialOpcodes := by
  cases o <;> decide

/-- From `s` to `t` what no display operation touches is kept (20_memory.md R60, R62). -/
def KeepsSerialSide (s t : State) : Prop :=
  t.uarts = s.uarts ∧ t.mem = s.mem ∧ t.cbLog = s.cbLog ∧ t.fgWait = s.fgWait

/-- From `s` to `t` unit STB and the sequencer are kept. -/
def KeepsDisplaySide (s t : State) : Prop := t.bus = s.bus ∧ t.lcd = s.lcd

/-! ### Requests that answer at once -/

/-- A claim moves the slot table only. -/
theorem claim_keepsSerialSide {k : Kind} {s t : State} {r : Response}
    (h : claim k s = .next (t, r)) : KeepsSerialSide s t := by
  rcases claim_eq_next.mp h with ⟨_, _, _, _, _, rfl, _⟩ | ⟨_, rfl, _⟩
  · exact ⟨rfl, rfl, rfl, rfl⟩
  · exact ⟨rfl, rfl, rfl, rfl⟩

theorem reject_keepsSerialSide {code : ResultCode} {s t : State} {r : Response}
    (h : reject s code = .next (t, r)) : KeepsSerialSide s t := by
  obtain ⟨rfl, -⟩ := reject_eq_next.mp h
  exact ⟨rfl, rfl, rfl, rfl⟩

theorem displayRequest_keepsSerialSide {i : Instr} {a : CallbackAction} {s t : State} {r : Response}
    (hi : requestOf i = some a) (h : callbackRequest a s = .next (t, r))
    (hside : i.opcode ∈ displayOpcodes) : KeepsSerialSide s t := by
  cases i with
  | nop | usSendb | usRecvb | lcdTick | usIrq | hwTxdone | hwRxbyte => cases hi
  | usInit | usSend | usRecv | usRegcb => simp [Instr.opcode, displayOpcodes] at hside
  | stbCmd | stbChr | stbElow | lcdInit =>
    cases hi
    cases h
    exact ⟨rfl, rfl, rfl, rfl⟩
  | lcdWrite text length =>
    cases hi
    simp only [callbackRequest, requestWrite] at h
    split at h
    · exact reject_keepsSerialSide h
    · exact claim_keepsSerialSide h
  | lcdGoto row col =>
    cases hi
    simp only [callbackRequest, requestGoto] at h
    split at h
    · exact claim_keepsSerialSide h
    · exact reject_keepsSerialSide h
  | lcdClear | lcdCmd =>
    cases hi
    exact claim_keepsSerialSide h

/-- A serial request is rejected or changes one channel: a submission hands over a reference and stores
nothing (20_memory.md R60). -/
theorem serialRequest_frame {i : Instr} {a : CallbackAction} {s t : State} {r : Response}
    (hi : requestOf i = some a) (h : callbackRequest a s = .next (t, r))
    (hside : i.opcode ∈ serialOpcodes) : KeepsDisplaySide s t ∧ t.mem = s.mem := by
  cases i with
  | nop | usSendb | usRecvb | lcdTick | usIrq | hwTxdone | hwRxbyte => cases hi
  | stbCmd | stbChr | stbElow | lcdInit | lcdWrite | lcdGoto | lcdClear | lcdCmd =>
    simp [Instr.opcode, serialOpcodes] at hside
  | usInit =>
    cases hi
    rcases requestInit_eq_next h with ⟨rfl, -⟩ | ⟨_, -, -, -, -, rfl, -⟩
    · exact ⟨⟨rfl, rfl⟩, rfl⟩
    · exact ⟨⟨rfl, rfl⟩, rfl⟩
  | usSend =>
    cases hi
    rcases requestSend_eq_next h with ⟨rfl, -⟩ | ⟨_, _, -, -, -, -, -, rfl, -⟩
    · exact ⟨⟨rfl, rfl⟩, rfl⟩
    · exact ⟨⟨rfl, rfl⟩, rfl⟩
  | usRecv =>
    cases hi
    rcases requestRecv_eq_next h with ⟨rfl, -⟩ | ⟨_, -, -, -, rfl, -⟩
    · exact ⟨⟨rfl, rfl⟩, rfl⟩
    · exact ⟨⟨rfl, rfl⟩, rfl⟩
  | usRegcb =>
    cases hi
    rcases requestRegcb_eq_next h with ⟨rfl, -⟩ | ⟨_, -, -, rfl, -⟩
    · exact ⟨⟨rfl, rfl⟩, rfl⟩
    · exact ⟨⟨rfl, rfl⟩, rfl⟩

/-- No request of the foreground stores to buffer memory. -/
theorem request_mem {i : Instr} {a : CallbackAction} {s t : State} {r : Response}
    (hi : requestOf i = some a) (h : callbackRequest a s = .next (t, r)) : t.mem = s.mem := by
  rcases display_or_serial i.opcode with hside | hside
  · obtain ⟨-, hmem, -⟩ := displayRequest_keepsSerialSide hi h hside
    exact hmem
  · exact (serialRequest_frame hi h hside).2

/-! ### The interrupt handler with log-only callbacks -/

/-- Where no callback has a body, an invocation adds to CB_LOG at most. -/
theorem invoke_frame_of_logOnly {c : Channel} {d : Direction} {s t : State}
    (hlog : s.cfg.cbBody = []) (h : invoke c d s = .next t) :
    t.mem = s.mem ∧ t.uarts = s.uarts := by
  rw [invoke_of_logOnly fun _ => by simp [bodyOf, hlog]] at h
  cases h
  split
  · exact ⟨rfl, rfl⟩
  · exact ⟨rfl, rfl⟩

/-- The transmit half leaves memory and what the receive half reads of the channel alone. -/
theorem txHalf_keepsReceive {c : Channel} {s t : State} (hlog : s.cfg.cbBody = [])
    (h : txHalf c s = .next t) :
    t.mem = s.mem ∧ bankOf (t.uart c) .rx = bankOf (s.uart c) .rx ∧
      (t.uart c).sr.rxne = (s.uart c).sr.rxne := by
  rcases txHalf_eq_next.mp h with ⟨-, rfl⟩ | ⟨-, -, h⟩ | ⟨-, -, h⟩
  · exact ⟨rfl, rfl, rfl⟩
  · obtain ⟨v, hv, rfl⟩ := tcComplete_eq_next.mp h
    obtain ⟨hmem, huarts⟩ := invoke_frame_of_logOnly (by simpa using hlog) hv
    have huart : v.uart c = finishTx (s.uart c) := by
      rw [State.uart, huarts]
      exact State.modUart_uart_same s c finishTx
    simp [hmem, huart, bankOf]
  · obtain ⟨-, -, b, -, rfl⟩ := tcNext_eq_next.mp h
    simp [bankOf]

/-- From `s` to `t` memory is kept or, with a byte received and a receive in progress, changed at the
address of the element the receive expects next. -/
def StoresReceivedAtMost (c : Channel) (s t : State) : Prop :=
  t.mem = s.mem ∨ ((s.uart c).sr.rxne = true ∧ (s.uart c).ch.rxBusy = true ∧
      ∃ b, t.mem = memWrite s.mem ((s.uart c).ch.rxBuffer + (s.uart c).ch.rxIndex) b)

/-- The receive half stores at the address of the byte expected next, or not at all
(43_serial_interrupt_handler.md R207). -/
theorem rxHalf_storesReceivedAtMost {c : Channel} {s t : State} (hlog : s.cfg.cbBody = [])
    (h : rxHalf c s = .next t) : StoresReceivedAtMost c s t := by
  rcases rxHalf_eq_next.mp h with ⟨-, rfl⟩ | ⟨hrxne, hbusy, h⟩
  · exact .inl rfl
  · obtain ⟨v, hv, hbranch⟩ := rxBranch_eq_next.mp h
    obtain ⟨m, hm, rfl⟩ := storeReceived_eq_next.mp hv
    obtain ⟨-, -, -, rfl⟩ := bufWrite_eq_some.mp hm
    refine .inr ⟨hrxne, hbusy, (s.uart c).rdr, ?_⟩
    rcases hbranch with ⟨-, hdone⟩ | ⟨-, rfl⟩
    · obtain ⟨hmem, -⟩ := invoke_frame_of_logOnly (by simpa using hlog) hdone
      exact hmem
    · rfl

/-- With log-only callbacks US.IRQ stores at the one byte the receive in progress is for, or not at all
(20_memory.md R62). -/
theorem execUsIrq_storesReceivedAtMost {c : Channel} {s t : State} (hlog : s.cfg.cbBody = [])
    (h : execUsIrq c s = .next t) : StoresReceivedAtMost c s t := by
  obtain ⟨-, u, v, hu, hv, rfl⟩ := execUsIrq_eq_next.mp h
  obtain ⟨hcfg, -⟩ := (txHalf_run hu).frame
  obtain ⟨hmem, hbank, hrxne⟩ := txHalf_keepsReceive hlog hu
  obtain ⟨hbusy, hindex, -, hbuffer⟩ := bankOf_rx_eq.mp hbank
  have hrx := rxHalf_storesReceivedAtMost (hcfg ▸ hlog) hv
  rwa [StoresReceivedAtMost, hmem, hrxne, hbusy, hindex, hbuffer] at hrx

/-! ### Every operation -/

/-- The display operations leave the channels, memory, CB_LOG and the wait marker alone. -/
theorem ExecStep.keepsSerialSide {i : Instr} {s t : State} (h : ExecStep s i t)
    (hside : i.opcode ∈ displayOpcodes) : KeepsSerialSide s t := by
  cases h with
  | nop => exact ⟨rfl, rfl, rfl, rfl⟩
  | request hi hreq =>
    have hkept := displayRequest_keepsSerialSide hi hreq hside
    exact hkept
  | tick htick =>
    obtain ⟨-, huarts, hmem, hcb, hfg, -⟩ := tick_frame htick
    exact ⟨huarts, hmem, hcb, hfg⟩
  | sendbRejected | sendbIssued | recvbRejected | recvbIssued | irq | txdone | rxbyte =>
    simp [Instr.opcode, displayOpcodes] at hside

/-- The serial operations and events leave the display side alone, callbacks being log-only. -/
theorem ExecStep.keepsDisplaySide {i : Instr} {s t : State} (h : ExecStep s i t)
    (hside : i.opcode ∈ serialOpcodes) (hlog : s.cfg.cbBody = []) : KeepsDisplaySide s t := by
  cases h with
  | nop | sendbRejected | sendbIssued | recvbRejected | recvbIssued | txdone | rxbyte =>
    exact ⟨rfl, rfl⟩
  | request hi hreq => exact (serialRequest_frame hi hreq hside).1
  | irq hrun =>
    obtain ⟨hbus, hlcd, -⟩ := hrun.local_of_logOnly hlog
    exact ⟨hbus, hlcd⟩
  | tick => simp [Instr.opcode, serialOpcodes] at hside

/-- Only US.IRQ writes buffer memory or CB_LOG. -/
theorem ExecStep.mem_cbLog {i : Instr} {s t : State} (h : ExecStep s i t)
    (hirq : ∀ c, i ≠ .usIrq c) : t.mem = s.mem ∧ t.cbLog = s.cbLog := by
  cases h with
  | nop | sendbRejected | sendbIssued | recvbRejected | recvbIssued | txdone | rxbyte =>
    exact ⟨rfl, rfl⟩
  | request hi hreq =>
    obtain ⟨-, hcb, -⟩ := (callbackRequest_eq_next hreq).frame
    have hmem := request_mem hi hreq
    exact ⟨hmem, hcb⟩
  | tick htick =>
    obtain ⟨-, -, hmem, hcb, -⟩ := tick_frame htick
    exact ⟨hmem, hcb⟩
  | irq => exact absurd rfl (hirq _)

/-- US.IRQ leaves the wait marker alone, whatever its callbacks do. -/
theorem execUsIrq_fgWait {c : Channel} {s t : State} (h : execUsIrq c s = .next t) :
    t.fgWait = s.fgWait := by
  obtain ⟨u, hrun, rfl⟩ := execUsIrq_run h
  obtain ⟨-, hfg, -⟩ := hrun.frame
  exact hfg

/-- Settles O59: each side's operations by the cases of a step, the stores of US.IRQ by its two
halves. -/
theorem displaySerialAndMemoryAreSeparate : Obligations.DisplaySerialAndMemoryAreSeparate := by
  intro i s t h
  have hstep := exec_eq_next h
  refine ⟨hstep.keepsSerialSide, fun hlog hside => hstep.keepsDisplaySide hside hlog,
    hstep.mem_cbLog, ?_, ?_⟩
  · rintro c rfl hlog
    refine ⟨execUsIrq_fgWait h, fun a ha => ?_⟩
    rcases execUsIrq_storesReceivedAtMost hlog h with hmem | ⟨-, -, b, hmem⟩
    · rw [hmem]
    · rw [hmem]
      exact memRead_memWrite_ne _ _ _ _ ha
  · rintro c rfl hlog hnone
    rcases execUsIrq_storesReceivedAtMost hlog h with hmem | ⟨hrxne, hbusy, -⟩
    · exact hmem
    · simp [State.uarts_get, hrxne, hbusy] at hnone

end Sys2Proof.Machine
end

section
/-!
SUPPORT. Decoding and encoding are inverse to each other, and both keep to the match and mask columns of
the opcode map (30_encoding.md R93, R98). Settles O44, O45, O46 and O43.
-/

namespace Sys2Proof

/-! ### Opcodes and the fields of word 0 -/

/-- The byte of the opcode map's column `op`, the inverse of `opcodeOf`. -/
def Opcode.code : Opcode → BitVec 8
  | .nop => 0x00
  | .stbCmd => 0x01
  | .stbChr => 0x02
  | .stbElow => 0x03
  | .lcdInit => 0x10
  | .lcdWrite => 0x11
  | .lcdGoto => 0x12
  | .lcdClear => 0x13
  | .lcdCmd => 0x14
  | .usInit => 0x20
  | .usSend => 0x21
  | .usRecv => 0x22
  | .usSendb => 0x23
  | .usRecvb => 0x24
  | .usRegcb => 0x25
  | .lcdTick => 0x80
  | .usIrq => 0x90
  | .hwTxdone => 0xA0
  | .hwRxbyte => 0xA1

@[simp] theorem opcodeOf_code (o : Opcode) : opcodeOf o.code = some o := by cases o <;> rfl

theorem code_of_opcodeOf {op : BitVec 8} {o : Opcode} (h : opcodeOf op = some o) : o.code = op := by
  have hall : ∀ op, (opcodeOf op).all (fun o => o.code = op) = true := by decide
  simpa [h] using hall op

/-- Field `a` of an operation's word 0: a row, a selector, a channel index, or zero. -/
@[simp] def Instr.fieldA : Instr → BitVec 8
  | .lcdGoto row _ => row
  | .usInit sel _ _ _ => sel
  | .usSend sel _ _ => sel
  | .usRecv sel _ _ _ => sel
  | .usSendb sel _ => sel
  | .usRecvb sel => sel
  | .usRegcb sel _ _ => sel
  | .usIrq channel => channel.index
  | .hwTxdone channel => channel.index
  | .hwRxbyte channel _ => channel.index
  | _ => 0

/-- Field `b` of an operation's word 0: a byte, a length, a direction, or zero. -/
@[simp] def Instr.fieldB : Instr → BitVec 16
  | .stbCmd byte => byteB byte
  | .stbChr byte => byteB byte
  | .lcdWrite _ length => indexField length
  | .lcdGoto _ col => byteB col
  | .lcdCmd byte => byteB byte
  | .usInit _ flags _ _ => byteB flags.byte
  | .usSend _ _ length => indexField length
  | .usRecv _ _ _ length => indexField length
  | .usSendb _ byte => byteB byte
  | .usRegcb _ dir _ => dir.bit
  | .hwRxbyte _ byte => byteB byte
  | _ => 0

/-- The words after word 0. -/
@[simp] def Instr.operands : Instr → List Word
  | .lcdWrite text _ => [refWord text]
  | .usInit _ _ clock baud => [clock, baud]
  | .usSend _ data _ => [refWord data]
  | .usRecv _ dest start _ => [refWord dest, (0 : BitVec 16) ++ indexField start]
  | .usRegcb _ _ handler => [refWord handler]
  | _ => []

theorem encode_eq_fields (i : Instr) :
    encode i = word0 i.opcode.code i.fieldA i.fieldB :: i.operands := by cases i <;> rfl

theorem encode_length (i : Instr) : (encode i).length = i.wordCount := by cases i <;> rfl

theorem decode_word0 (o : Opcode) (a : BitVec 8) (b : BitVec 16) (rest : List Word) :
    decode (word0 o.code a b :: rest) = decodeOperands o a b rest := by simp [decode]

/-! ### What the parts of the decoder accept -/

@[simp] theorem legalWord_eq_instr {legal : Bool} {k : Decoded} {i : Instr} :
    legalWord legal k = .instr i ↔ legal = true ∧ k = .instr i := by
  cases legal <;> simp [legalWord]

@[simp] theorem operandWord_eq_instr {rest : List Word} {k : Word → Decoded} {i : Instr} :
    operandWord rest k = .instr i ↔ ∃ w tail, rest = w :: tail ∧ k w = .instr i := by
  cases rest <;> simp [operandWord]

@[simp] theorem operandWords_eq_instr {rest : List Word} {k : Word → Word → Decoded} {i : Instr} :
    operandWords rest k = .instr i ↔ ∃ v w tail, rest = v :: w :: tail ∧ k v w = .instr i := by
  rcases rest with _ | ⟨v, _ | ⟨w, tail⟩⟩ <;> simp [operandWords]

@[simp] theorem eventWord_eq_instr {a : BitVec 8} {k : Channel → Instr} {i : Instr} :
    eventWord a k = .instr i ↔ ∃ c, channelOfIndex a = some c ∧ k c = i := by
  cases h : channelOfIndex a <;> simp [eventWord, h]

theorem eventWord_of_channel {a : BitVec 8} (h : (channelOfIndex a).isNone = false) :
    ∃ c, ∀ k, eventWord a k = .instr (k c) := by
  cases hc : channelOfIndex a with
  | none => simp [hc] at h
  | some c => exact ⟨c, fun k => by rw [eventWord, hc]⟩

/-- The direction that bit 0 of a field stands for has the field as its operand, the other bits being
zero (30_encoding.md R97). -/
theorem bit_of_direction {b : BitVec 16} (h : b.extractLsb' 1 15 = 0) :
    (if b.getLsbD 0 then Direction.rx else .tx).bit = b := by
  have hnat : b.toNat / 2 % 2 ^ 15 = 0 := by
    simpa [Nat.shiftRight_eq_div_pow] using congrArg BitVec.toNat h
  have hcases : b = 0 ∨ b = 1 := by bv_omega
  rcases hcases with rfl | rfl <;> rfl

/-! ### Decoding and encoding -/

/-- Settles O44, reading the fields of word 0 back. -/
theorem decodeReadsBackEveryEncoding : Obligations.DecodeReadsBackEveryEncoding := by
  intro i rest hwf
  rw [encode_eq_fields, List.cons_append, decode_word0]
  cases i with
  | nop | stbElow | lcdInit | lcdClear | lcdTick => rfl
  | stbCmd | stbChr | lcdGoto | lcdCmd | usSendb | usRecvb =>
    simp [decodeOperands, Instr.opcode]
  | lcdWrite | usSend =>
    obtain ⟨href, hindex⟩ := Bool.and_eq_true_iff.mp hwf
    simp [decodeOperands, Instr.opcode, toNat_refWord href, toNat_indexField hindex]
  | usInit => simpa [decodeOperands, Instr.opcode, Instr.wf] using hwf
  | usRecv =>
    simp only [Instr.wf, Bool.and_eq_true] at hwf
    obtain ⟨⟨href, hstart⟩, hlength⟩ := hwf
    simp [decodeOperands, Instr.opcode, toNat_refWord href, toNat_indexField hstart,
      toNat_indexField hlength]
  | usRegcb sel dir handler =>
    have href : refEncodable handler = true := hwf
    cases dir <;> simp [decodeOperands, Instr.opcode, toNat_refWord href, Direction.bit]
  | usIrq | hwTxdone | hwRxbyte => simp [decodeOperands, Instr.opcode]

/-- An operation that a row of the opcode map reads is well formed and has that row's opcode, the fields
read and, at the head of the rest, its operand words. -/
theorem decodeOperands_eq_instr {o : Opcode} {a : BitVec 8} {b : BitVec 16} {rest : List Word}
    {i : Instr} (h : decodeOperands o a b rest = .instr i) :
    i.opcode = o ∧ i.wf = true ∧ i.fieldA = a ∧ i.fieldB = b ∧ ∃ tail, rest = i.operands ++ tail := by
  cases o <;> simp only [decodeOperands, legalWord_eq_instr, operandWord_eq_instr,
    operandWords_eq_instr, eventWord_eq_instr, Bool.and_eq_true, beq_iff_eq, Decoded.instr.injEq] at h
  case nop | stbElow | lcdInit | lcdClear | lcdTick =>
    obtain ⟨⟨rfl, rfl⟩, rfl⟩ := h
    exact ⟨rfl, rfl, rfl, rfl, rest, rfl⟩
  case stbCmd | stbChr | lcdCmd =>
    obtain ⟨⟨rfl, hb⟩, rfl⟩ := h
    exact ⟨rfl, rfl, rfl, byteB_lowByte hb, rest, rfl⟩
  case lcdGoto | usSendb =>
    obtain ⟨hb, rfl⟩ := h
    exact ⟨rfl, rfl, rfl, byteB_lowByte hb, rest, rfl⟩
  case usRecvb =>
    obtain ⟨rfl, rfl⟩ := h
    exact ⟨rfl, rfl, rfl, rfl, rest, rfl⟩
  case lcdWrite =>
    obtain ⟨rfl, text, tail, rfl, rfl⟩ := h
    exact ⟨rfl, by simp [Instr.wf], rfl, by simp, tail, by simp⟩
  case usSend =>
    obtain ⟨data, tail, rfl, rfl⟩ := h
    exact ⟨rfl, by simp [Instr.wf], rfl, by simp, tail, by simp⟩
  case usInit =>
    obtain ⟨⟨hb, hwf⟩, clock, baud, tail, rfl, rfl⟩ := h
    exact ⟨rfl, hwf, rfl, by simp [byte_flagsOfByte, byteB_lowByte hb], tail, rfl⟩
  case usRecv =>
    obtain ⟨dest, w2, tail, rfl, hw2, rfl⟩ := h
    exact ⟨rfl, by simp [Instr.wf], rfl, by simp, tail,
      by rw [Instr.operands, refWord_toNat, indexField_toNat, append_lowHalf hw2]; rfl⟩
  case usRegcb =>
    obtain ⟨hb, handler, tail, rfl, rfl⟩ := h
    exact ⟨rfl, by simp [Instr.wf], rfl, bit_of_direction hb, tail, by simp⟩
  case usIrq | hwTxdone =>
    obtain ⟨rfl, c, hc, rfl⟩ := h
    exact ⟨rfl, rfl, index_of_channelOfIndex hc, rfl, rest, rfl⟩
  case hwRxbyte =>
    obtain ⟨hb, c, hc, rfl⟩ := h
    exact ⟨rfl, rfl, index_of_channelOfIndex hc, byteB_lowByte hb, rest, rfl⟩

/-- Words decode to an operation exactly when it is well formed and they begin with its encoding. -/
theorem decode_eq_instr {words : List Word} {i : Instr} :
    decode words = .instr i ↔ i.wf = true ∧ ∃ tail, words = encode i ++ tail := by
  constructor
  · intro h
    cases words with
    | nil => cases h
    | cons w rest =>
      cases ho : opcodeOf (opField w) with
      | none => simp [decode, ho] at h
      | some o =>
        simp only [decode, ho] at h
        obtain ⟨hop, hwf, ha, hb, tail, hrest⟩ := decodeOperands_eq_instr h
        refine ⟨hwf, tail, ?_⟩
        rw [encode_eq_fields, hop, ha, hb, code_of_opcodeOf ho, word0_fields, hrest, List.cons_append]
  · rintro ⟨hwf, tail, rfl⟩
    exact decodeReadsBackEveryEncoding i tail hwf

/-- Settles O45. -/
theorem decodedWordsAreTheEncoding : Obligations.DecodedWordsAreTheEncoding := by
  intro words i h
  obtain ⟨hwf, tail, rfl⟩ := decode_eq_instr.mp h
  have hlength : (encode i).length = i.wordCount := encode_length i
  exact ⟨hwf, List.take_left' hlength, hlength⟩

/-- Settles O43: each example is the encoding of its operation. -/
theorem exampleWordsDecode : Obligations.ExampleWordsDecode := by
  refine ⟨?_, ?_, ?_, ?_, ?_, ?_, ?_⟩ <;> exact decode_eq_instr.mpr ⟨by decide, [], by decide⟩

/-! ### The opcode map -/

/-- The must-be-zero bits of field `a`: all of them where the operation has no operand there. -/
@[simp] def Opcode.aMask : Opcode → BitVec 8
  | .lcdGoto | .usInit | .usSend | .usRecv | .usSendb | .usRecvb | .usRegcb
  | .usIrq | .hwTxdone | .hwRxbyte => 0
  | _ => 0xFF

/-- The must-be-zero bits of field `b`: those outside its byte, length or direction. -/
@[simp] def Opcode.bMask : Opcode → BitVec 16
  | .stbCmd | .stbChr | .lcdGoto | .lcdCmd | .usInit | .usSendb | .hwRxbyte => 0xFF00
  | .lcdWrite | .usSend | .usRecv => 0
  | .usRegcb => 0xFFFE
  | _ => 0xFFFF

/-- The opcode map's row of an opcode, made of the three fields of word 0. -/
def Opcode.row (o : Opcode) : OpcodeRow := ⟨o, word0 o.code 0 0, word0 0xFF o.aMask o.bMask⟩

theorem row_mem_opcodeMap (o : Opcode) : o.row ∈ opcodeMap := by cases o <;> decide

theorem eq_row_of_mem_opcodeMap : ∀ row ∈ opcodeMap, row = row.op.row := by decide

theorem word0_and (op a op' a' : BitVec 8) (b b' : BitVec 16) :
    word0 op a b &&& word0 op' a' b' = word0 (op &&& op') (a &&& a') (b &&& b') :=
  BitVec.and_append.trans (congrArg (· ++ (b &&& b')) BitVec.and_append)

theorem word0_inj {op a op' a' : BitVec 8} {b b' : BitVec 16} :
    word0 op a b = word0 op' a' b' ↔ op = op' ∧ a = a' ∧ b = b' := by
  constructor
  · intro h
    exact ⟨by simpa using congrArg opField h, by simpa using congrArg aField h,
      by simpa using congrArg bField h⟩
  · rintro ⟨rfl, rfl, rfl⟩
    rfl

/-- A row selects a word 0 that has its opcode and zero in the must-be-zero bits. -/
theorem row_selects_word0 {o : Opcode} {op a : BitVec 8} {b : BitVec 16} :
    word0 op a b &&& o.row.mask = o.row.pattern ↔
      op = o.code ∧ a &&& o.aMask = 0 ∧ b &&& o.bMask = 0 := by
  have hop : op &&& 0xFF = op := BitVec.and_allOnes
  rw [Opcode.row, word0_and, word0_inj, hop]

@[simp] theorem byteB_and_highMask (v : Byte) : byteB v &&& 0xFF00#16 = 0#16 := by
  revert v
  decide

/-- An operation's fields keep to its row's mask. -/
theorem fields_and_mask (i : Instr) :
    i.fieldA &&& i.opcode.aMask = 0 ∧ i.fieldB &&& i.opcode.bMask = 0 := by
  cases i with
  | usRegcb sel dir handler =>
    cases dir <;> simp [Instr.opcode, Direction.bit]
  | _ => simp [Instr.opcode]

theorem eq_zero_of_and_eq_zero {n : Nat} {x mask : BitVec n} (h : x &&& mask = 0)
    (hmask : mask = BitVec.allOnes n) : x = 0 := by
  rwa [hmask, BitVec.and_allOnes] at h

theorem extractLsb'_eq_zero_of_and {b mask : BitVec 16} {k n : Nat} (h : b &&& mask = 0)
    (hmask : mask.extractLsb' k n = BitVec.allOnes n) : b.extractLsb' k n = 0 := by
  have hk := congrArg (BitVec.extractLsb' k n) h
  rw [BitVec.extractLsb'_and, hmask, BitVec.and_allOnes] at hk
  simpa using hk

/-- The values that 30_encoding.md R98 reserves in bits no mask has: parity 3 of US.INIT and the channel
indices above 2 of the events. -/
def reservedOperand : Opcode → BitVec 8 → BitVec 16 → Bool
  | .usInit, _, b => !(flagsOfByte (lowByte b)).wf
  | .usIrq, a, _ | .hwTxdone, a, _ | .hwRxbyte, a, _ => (channelOfIndex a).isNone
  | _, _, _ => false

/-- Fields that keep to the masks of an opcode and are not reserved have a meaning. -/
theorem decodeOperands_of_masked {o : Opcode} {a : BitVec 8} {b : BitVec 16}
    (ha : a &&& o.aMask = 0) (hb : b &&& o.bMask = 0) (hres : reservedOperand o a b = false) :
    ∃ i, decodeOperands o a b [0, 0] = .instr i := by
  have haZero : o.aMask = 0xFF → a = 0 := eq_zero_of_and_eq_zero ha
  have hbZero : o.bMask = 0xFFFF → b = 0 := eq_zero_of_and_eq_zero hb
  have hbHigh : o.bMask = 0xFF00 → highByte b = 0 := fun hm =>
    extractLsb'_eq_zero_of_and (hm ▸ hb) rfl
  have hbDir : o.bMask = 0xFFFE → b.extractLsb' 1 15 = 0 := fun hm =>
    extractLsb'_eq_zero_of_and (hm ▸ hb) rfl
  cases o with
  | nop | stbElow | lcdInit | lcdClear | lcdTick =>
    exact ⟨_, by simp only [decodeOperands, haZero rfl, hbZero rfl]; rfl⟩
  | stbCmd | stbChr | lcdCmd =>
    exact ⟨_, by simp only [decodeOperands, haZero rfl, hbHigh rfl]; rfl⟩
  | lcdWrite => exact ⟨_, by simp only [decodeOperands, haZero rfl]; rfl⟩
  | lcdGoto | usSendb => exact ⟨_, by simp only [decodeOperands, hbHigh rfl]; rfl⟩
  | usInit =>
    have hwf : (flagsOfByte (lowByte b)).wf = true := by simpa [reservedOperand] using hres
    exact ⟨_, by simp only [decodeOperands, hbHigh rfl, hwf]; rfl⟩
  | usSend | usRecv => exact ⟨_, rfl⟩
  | usRecvb => exact ⟨_, by simp only [decodeOperands, hbZero rfl]; rfl⟩
  | usRegcb => exact ⟨_, by simp only [decodeOperands, hbDir rfl]; rfl⟩
  | usIrq | hwTxdone =>
    obtain ⟨c, hc⟩ := eventWord_of_channel hres
    exact ⟨_, by simp only [decodeOperands, hbZero rfl, hc]; rfl⟩
  | hwRxbyte =>
    obtain ⟨c, hc⟩ := eventWord_of_channel hres
    exact ⟨_, by simp only [decodeOperands, hbHigh rfl, hc]; rfl⟩

/-- Parity 3 shows in the two bits that 30_encoding.md R96 gives it. -/
theorem parity_bits_of_not_wf :
    ∀ v : Byte, (flagsOfByte v).wf = false → byteB v &&& 0x000C = 0x000C := by decide

theorem word0_and_parityMask {op a : BitVec 8} {v : Byte} (h : (flagsOfByte v).wf = false) :
    word0 op a (byteB v) &&& 0x0000000C = 0x0000000C := by
  have hmask : (0x0000000C : Word) = word0 0 0 0x000C := rfl
  rw [hmask, word0_and, parity_bits_of_not_wf v h]
  simp

/-- A channel index up to 2, in its place in word 0, is not reserved. -/
theorem channelOfIndex_of_le : ∀ a : BitVec 8, (word0 0 a 0).toNat ≤ 0x00020000 →
    (channelOfIndex a).isNone = false := by decide

theorem channelOfIndex_of_masked_le {op a : BitVec 8} {b : BitVec 16}
    (h : (word0 op a b &&& 0x00FF0000).toNat ≤ 0x00020000) : (channelOfIndex a).isNone = false := by
  have hmask : (0x00FF0000 : Word) = word0 0 0xFF 0 := rfl
  have ha : a &&& 0xFF = a := BitVec.and_allOnes
  rw [hmask, word0_and, ha] at h
  exact channelOfIndex_of_le a (by simpa using h)

/-- The exceptions O46 makes are the reserved operands. -/
theorem reservedOperand_eq_false {o : Opcode} {op a : BitVec 8} {b : BitVec 16}
    (hb : b &&& o.bMask = 0)
    (hparity : o = .usInit → word0 op a b &&& 0x0000000C ≠ 0x0000000C)
    (hchannel : o = .usIrq ∨ o = .hwTxdone ∨ o = .hwRxbyte →
      (word0 op a b &&& 0x00FF0000).toNat ≤ 0x00020000) : reservedOperand o a b = false := by
  cases o with
  | usInit =>
    have hbyte : byteB (lowByte b) = b := byteB_lowByte (extractLsb'_eq_zero_of_and hb rfl)
    by_contra hres
    refine hparity rfl ?_
    rw [← hbyte]
    exact word0_and_parityMask (by simpa [reservedOperand] using hres)
  | usIrq | hwTxdone | hwRxbyte => exact channelOfIndex_of_masked_le (hchannel (by simp))
  | _ => rfl

/-- Settles O46: an encoding keeps to its row's mask, and a word 0 that does has a meaning. -/
theorem decoderAgreesWithOpcodeMap : Obligations.DecoderAgreesWithOpcodeMap := by
  intro w
  constructor
  · intro i h
    obtain ⟨-, tail, hwords⟩ := decode_eq_instr.mp h
    rw [encode_eq_fields, List.cons_append] at hwords
    rw [(List.cons.inj hwords).1]
    exact ⟨i.opcode.row, row_mem_opcodeMap _, rfl, row_selects_word0.mpr ⟨rfl, fields_and_mask i⟩⟩
  · intro row hrow hselects hparity hchannel
    rw [← word0_fields w] at hselects hparity hchannel ⊢
    rw [eq_row_of_mem_opcodeMap row hrow] at hselects
    obtain ⟨hop, ha, hb⟩ := row_selects_word0.mp hselects
    rw [hop, decode_word0]
    obtain ⟨i, hi⟩ := decodeOperands_of_masked ha hb (reservedOperand_eq_false hb hparity hchannel)
    obtain ⟨hopcode, -⟩ := decodeOperands_eq_instr hi
    exact ⟨i, hi, hopcode⟩

end Sys2Proof
end

section
/-!
SUPPORT. Unit STB: the words of its operations, one call of the protocol driver as a whole next state,
and the count of calls that the phase and the latch log keep between them (40_strobe_driver.md R121 to
R125). Settles O1, O2, O3 and O5.
-/

namespace Sys2Proof

/-! ### Words with a byte operand -/

/-- Word 0 of an operation with a byte operand, as 24 fixed bits before the byte
(30_encoding.md R91, R94). -/
theorem word0_byteB (op a : BitVec 8) (v : Byte) :
    word0 op a (byteB v) = (op ++ a ++ (0 : BitVec 8)) ++ v :=
  (BitVec.append_assoc (x₁ := op ++ a) (x₂ := (0 : BitVec 8)) (x₃ := v)).symm

theorem decode_stbCmd (byte : Byte) (rest : List Word) :
    decode (((0x010000 : BitVec 24) ++ byte) :: rest) = .instr (.stbCmd byte) :=
  decode_eq_instr.mpr ⟨rfl, rest, congrArg (· :: rest) (word0_byteB 0x01 0 byte).symm⟩

theorem decode_stbChr (byte : Byte) (rest : List Word) :
    decode (((0x020000 : BitVec 24) ++ byte) :: rest) = .instr (.stbChr byte) :=
  decode_eq_instr.mpr ⟨rfl, rest, congrArg (· :: rest) (word0_byteB 0x02 0 byte).symm⟩

theorem decode_stbElow (rest : List Word) :
    decode ((0x03000000 : Word) :: rest) = .instr .stbElow :=
  decode_eq_instr.mpr ⟨rfl, rest, rfl⟩

namespace Machine

/-! ### The fall of `E` -/

theorem dropEnable_of_high {u : Bus} (h : u.eDriven = true ∧ u.e = true) :
    dropEnable u =
      { u with latchLog := u.latchLog ++ [⟨u.rs, u.rw, u.d⟩], e := false, eDriven := true } := by
  simp [dropEnable, h]

theorem dropEnable_of_not_high {u : Bus} (h : ¬ (u.eDriven = true ∧ u.e = true)) :
    dropEnable u = { u with e := false, eDriven := true } := by
  simp [dropEnable, h]

theorem exec_stbElow (s : State) :
    exec .stbElow s =
      .next (((s.setBus (dropEnable s.bus)).respond (codeOnly .ok)).advance 1) := rfl

/-- Settles O3. -/
theorem stbElowDropsEnable : Obligations.StbElowDropsEnable := by
  refine ⟨decode_stbElow, fun s => ⟨fun hhigh => ?_, fun hlow => ?_⟩⟩
  · rw [exec_stbElow, dropEnable_of_high hhigh]
    rfl
  · rw [exec_stbElow, dropEnable_of_not_high hlow]
    rfl

/-! ### One call of the protocol driver -/

/-- The operation that makes one call of the protocol driver with `RS` at the level `rs`
(40_strobe_driver.md R122, R123). -/
def strobeCall (byte : Byte) (rs : Bool) : Instr := if rs then .stbChr byte else .stbCmd byte

theorem exec_strobeCall (byte : Byte) (rs : Bool) (s : State) :
    exec (strobeCall byte rs) s =
      .next (((s.setBus (strobe byte rs s.bus)).respond (codeOnly .ok)).advance 1) := by
  cases rs <;> rfl

theorem exec_strobeCall_of_not_asserted (byte : Byte) (rs : Bool) {s : State}
    (h : s.bus.phase = false) :
    exec (strobeCall byte rs) s = .next
      { s with
        bus :=
          { s.bus with
            d := byte, rs := rs, rw := false, e := true, eDriven := true, phase := true }
        responses := s.responses ++ [⟨.ok, 0⟩]
        pc := s.pc + 1 } := by
  rw [exec_strobeCall, strobe_of_not_asserted h]
  rfl

/-- The operand is ignored: what is latched is what the lines hold. -/
theorem exec_strobeCall_of_asserted (byte : Byte) (rs : Bool) {s : State}
    (h : s.bus.phase = true) :
    exec (strobeCall byte rs) s = .next
      { s with
        bus :=
          { s.bus with
            latchLog :=
              if s.bus.eDriven = true ∧ s.bus.e = true then
                s.bus.latchLog ++ [⟨s.bus.rs, s.bus.rw, s.bus.d⟩]
              else s.bus.latchLog
            e := false, eDriven := true, phase := false }
        responses := s.responses ++ [⟨.ok, 0⟩]
        pc := s.pc + 1 } := by
  rw [exec_strobeCall, strobe_of_asserted h]
  split
  · next hhigh =>
    rw [dropEnable_of_high hhigh]
    rfl
  · next hlow =>
    rw [dropEnable_of_not_high hlow]
    rfl

/-- Settles O1. -/
theorem stbCmdDrivesOneCall : Obligations.StbCmdDrivesOneCall := fun byte =>
  ⟨decode_stbCmd byte, fun _ =>
    ⟨exec_strobeCall_of_not_asserted byte false, exec_strobeCall_of_asserted byte false⟩⟩

/-- Settles O2. -/
theorem stbChrDrivesOneCall : Obligations.StbChrDrivesOneCall := fun byte =>
  ⟨decode_stbChr byte, fun _ =>
    ⟨exec_strobeCall_of_not_asserted byte true, exec_strobeCall_of_asserted byte true⟩⟩

/-! ### Sequences of calls -/

@[simp] theorem execAll_nil (s : State) : execAll [] s = .next s := rfl

@[simp] theorem execAll_cons (i : Instr) (rest : List Instr) (s : State) :
    execAll (i :: rest) s = andThen (exec i s) (execAll rest) := rfl

/-- In phase 1 the block holds `E` high, so the next call latches. -/
def HoldsEnable (u : Bus) : Prop := u.phase = true → u.eDriven = true ∧ u.e = true

/-- The calls that the latch log and the phase account for: two for each entry, and one more in
phase 1. -/
def callsCounted (u : Bus) : Nat := 2 * u.latchLog.length + u.phase.toNat

theorem holdsEnable_strobe (byte : Byte) (rs : Bool) (u : Bus) :
    HoldsEnable (strobe byte rs u) := by
  cases hphase : u.phase with
  | false => simp [HoldsEnable, strobe_of_not_asserted hphase]
  | true => simp [HoldsEnable, strobe_of_asserted hphase]

theorem callsCounted_strobe (byte : Byte) (rs : Bool) {u : Bus} (h : HoldsEnable u) :
    callsCounted (strobe byte rs u) = callsCounted u + 1 := by
  cases hphase : u.phase with
  | false => simp [callsCounted, strobe_of_not_asserted hphase, hphase]
  | true =>
    rw [strobe_of_asserted hphase, dropEnable_of_high (h hphase)]
    simp [callsCounted, hphase, Nat.mul_add]

/-- A sequence of calls runs, and each call counts for one. -/
theorem execAll_strobeCalls (calls : List (Byte × Bool)) {s : State} (hs : HoldsEnable s.bus) :
    ∃ t, execAll (calls.map fun x => strobeCall x.1 x.2) s = .next t ∧ HoldsEnable t.bus ∧
      callsCounted t.bus = callsCounted s.bus + calls.length ∧ t.pc = s.pc + calls.length := by
  induction calls generalizing s with
  | nil => exact ⟨s, rfl, hs, rfl, rfl⟩
  | cons x rest ih =>
    obtain ⟨byte, rs⟩ := x
    have hcount := callsCounted_strobe byte rs hs
    obtain ⟨t, hrun, ht, hcalls, hpc⟩ :=
      ih (s := ((s.setBus (strobe byte rs s.bus)).respond (codeOnly .ok)).advance 1)
        (holdsEnable_strobe byte rs s.bus)
    refine ⟨t, ?_, ht, ?_, ?_⟩
    · rw [List.map_cons, execAll_cons, exec_strobeCall, andThen_next, hrun]
    · simp only [State.advance_bus, State.respond_bus, State.setBus_bus] at hcalls
      rw [hcalls, hcount, List.length_cons]
      omega
    · simp only [State.advance_pc, State.respond_pc, State.setBus_pc] at hpc
      rw [hpc, List.length_cons]
      omega

/-- Settles O5: from phase 0 the phase is the parity of the calls counted, and the growth of the latch
log is their half. -/
theorem twoStrobeCallsPerByte : Obligations.TwoStrobeCallsPerByte := by
  intro calls s hphase
  obtain ⟨t, hrun, hholds, hcalls, hpc⟩ :=
    execAll_strobeCalls calls (s := s) fun h => by simp [hphase] at h
  simp only [callsCounted, hphase, Bool.toNat_false, Nat.add_zero] at hcalls
  have hbit : t.bus.phase.toNat ≤ 1 := Bool.toNat_le _
  refine ⟨t, hrun, ?_, fun h => (hholds h).2, by omega, hpc⟩
  cases hparity : t.bus.phase with
  | false =>
    rw [hparity, Bool.toNat_false] at hcalls
    exact (decide_eq_false (by omega)).symm
  | true =>
    rw [hparity, Bool.toNat_true] at hcalls
    exact (decide_eq_true (by omega)).symm

end Machine

end Sys2Proof
end

section
/-!
SUPPORT. The display sequencer's requests: the words of its operations, a claim and a rejection as whole
next states, and the checks made before the table is looked at (41_display_sequencer.md R140 to R147).
Settles O6 to O10.
-/

namespace Sys2Proof

/-! ### Words -/

theorem decode_lcdInit (rest : List Word) :
    decode ((0x10000000 : Word) :: rest) = .instr .lcdInit :=
  decode_eq_instr.mpr ⟨rfl, rest, rfl⟩

theorem decode_lcdWrite (text : Word) (length : BitVec 16) (rest : List Word) :
    decode (((0x1100 : BitVec 16) ++ length) :: text :: rest) =
      .instr (.lcdWrite text.toNat length.toNat) := by
  refine decode_eq_instr.mpr ⟨by simp [Instr.wf], rest, ?_⟩
  simp only [encode, indexField_toNat, refWord_toNat]
  rfl

theorem decode_lcdGoto (row col : Byte) (rest : List Word) :
    decode ((((0x12 : BitVec 8) ++ row) ++ ((0 : BitVec 8) ++ col)) :: rest) =
      .instr (.lcdGoto row col) :=
  decode_eq_instr.mpr ⟨rfl, rest, rfl⟩

theorem decode_lcdClear (rest : List Word) :
    decode ((0x13000000 : Word) :: rest) = .instr .lcdClear :=
  decode_eq_instr.mpr ⟨rfl, rest, rfl⟩

theorem decode_lcdCmd (byte : Byte) (rest : List Word) :
    decode (((0x140000 : BitVec 24) ++ byte) :: rest) = .instr (.lcdCmd byte) :=
  decode_eq_instr.mpr ⟨rfl, rest, congrArg (· :: rest) (word0_byteB 0x14 0 byte).symm⟩

namespace Machine

/-! ### Claims and rejections as whole next states -/

/-- A rejected request answers its code and changes nothing else. -/
theorem deliver_reject (n : Nat) (s : State) (code : ResultCode) :
    deliver n (reject s code) = .next
      { s with responses := s.responses ++ [⟨code, 0⟩], pc := s.pc + n } := rfl

theorem deliver_claim_of_lowest_free (n : Nat) (k : Kind) {s : State} {i : Nat} {x : Slot}
    (hx : s.lcd.slots[i]? = some x) (hfree : x.occupied = false)
    (hbelow : ∀ j y, j < i → s.lcd.slots[j]? = some y → y.occupied = true) :
    deliver n (claim k s) = .next
      { s with
        lcd := { s.lcd with slots := s.lcd.slots.set i ⟨true, k, .start⟩ }
        responses := s.responses ++ [⟨.ok, 0⟩]
        pc := s.pc + n } := by
  rw [claim_eq_next.mpr (.inl ⟨i, x, hx, hfree, hbelow, rfl, rfl⟩)]
  rfl

theorem deliver_claim_of_full (n : Nat) (k : Kind) {s : State}
    (hfull : ∀ x ∈ s.lcd.slots, x.occupied = true) :
    deliver n (claim k s) = .next
      { s with responses := s.responses ++ [⟨.bufferFull, 0⟩], pc := s.pc + n } := by
  rw [claim_eq_next.mpr (.inr ⟨hfull, rfl, rfl⟩)]
  rfl

/-! ### Each request -/

theorem exec_lcdInit (s : State) :
    exec .lcdInit s = .next
      { s with
        bus := { s.bus with pinsCfg := true }
        lcd := { s.lcd with life := if s.lcd.life = .off then .initializing else s.lcd.life }
        responses := s.responses ++ [⟨.ok, 0⟩]
        pc := s.pc + 1 } := rfl

theorem exec_lcdWrite_of_null {text : Nat} {s : State} (length : Nat)
    (h : fitRef s.cfg text = s.cfg.nullRef) :
    exec (.lcdWrite text length) s = deliver 2 (reject s .nullArgument) := by
  simp [exec, execLcdWrite, requestWrite, h]

theorem exec_lcdWrite_of_text {text : Nat} {s : State} (length : Nat)
    (h : fitRef s.cfg text ≠ s.cfg.nullRef) :
    exec (.lcdWrite text length) s =
      deliver 2 (claim (.write (fitRef s.cfg text) (fitIndex s.cfg length)) s) := by
  simp [exec, execLcdWrite, requestWrite, h]

theorem exec_lcdGoto_of_invalid {row col : Byte} (s : State)
    (h : 1 < row.toNat ∨ 15 < col.toNat) :
    exec (.lcdGoto row col) s = deliver 1 (reject s .invalidPosition) := by
  have hinvalid : validPosition row col ≠ true := by
    rw [Ne, validPosition_eq_true]
    omega
  simp [exec, execLcdGoto, requestGoto, hinvalid]

/-- The row and column that are stored are the operands' low bits, and a valid position loses none. -/
theorem exec_lcdGoto_of_valid {row col : Byte} (s : State) (hrow : row.toNat ≤ 1)
    (hcol : col.toNat ≤ 15) :
    exec (.lcdGoto row col) s =
      deliver 1
        (claim (.setPosition (BitVec.ofNat 1 row.toNat) (BitVec.ofNat 4 col.toNat)) s) := by
  simp [exec, execLcdGoto, requestGoto, validPosition_eq_true.mpr ⟨hrow, hcol⟩]

theorem exec_lcdClear (s : State) : exec .lcdClear s = deliver 1 (claim .clear s) := rfl

theorem exec_lcdCmd (byte : Byte) (s : State) :
    exec (.lcdCmd byte) s = deliver 1 (claim (.rawCommand byte) s) := rfl

/-! ### The statements -/

/-- Settles O6. -/
theorem lcdInitStartsOnlyFromOff : Obligations.LcdInitStartsOnlyFromOff := by
  refine ⟨decode_lcdInit, fun s => ⟨fun hoff => ?_, fun hon => ?_⟩⟩
  · rw [exec_lcdInit, if_pos hoff]
  · rw [exec_lcdInit, if_neg hon]

/-- Settles O7: the text is looked at first, then the table. -/
theorem lcdWriteClaimsLowestFreeSlot : Obligations.LcdWriteClaimsLowestFreeSlot := by
  refine ⟨decode_lcdWrite, ?_⟩
  rintro s text _ length _ rfl rfl
  refine ⟨fun hnull => ?_, fun htext i x hx hfree hbelow => ?_, fun htext hfull => ?_⟩
  · rw [exec_lcdWrite_of_null length hnull, deliver_reject]
  · rw [exec_lcdWrite_of_text length htext, deliver_claim_of_lowest_free 2 _ hx hfree hbelow]
  · rw [exec_lcdWrite_of_text length htext, deliver_claim_of_full 2 _ hfull]

/-- Settles O8: the position is looked at first, then the table. -/
theorem lcdGotoChecksThenClaims : Obligations.LcdGotoChecksThenClaims := by
  refine fun row col => ⟨decode_lcdGoto row col, fun s => ⟨fun hinvalid => ?_, ?_, ?_⟩⟩
  · rw [exec_lcdGoto_of_invalid s hinvalid, deliver_reject]
  · intro hrow hcol i x hx hfree hbelow
    rw [exec_lcdGoto_of_valid s hrow hcol, deliver_claim_of_lowest_free 1 _ hx hfree hbelow]
  · intro hrow hcol hfull
    rw [exec_lcdGoto_of_valid s hrow hcol, deliver_claim_of_full 1 _ hfull]

/-- Settles O9. -/
theorem lcdClearClaimsLowestFreeSlot : Obligations.LcdClearClaimsLowestFreeSlot := by
  refine ⟨decode_lcdClear, fun s => ⟨fun i x hx hfree hbelow => ?_, fun hfull => ?_⟩⟩
  · rw [exec_lcdClear, deliver_claim_of_lowest_free 1 _ hx hfree hbelow]
  · rw [exec_lcdClear, deliver_claim_of_full 1 _ hfull]

/-- Settles O10. -/
theorem lcdCmdClaimsLowestFreeSlot : Obligations.LcdCmdClaimsLowestFreeSlot := by
  refine fun byte => ⟨decode_lcdCmd byte, fun s => ⟨fun i x hx hfree hbelow => ?_, fun hfull => ?_⟩⟩
  · rw [exec_lcdCmd, deliver_claim_of_lowest_free 1 _ hx hfree hbelow]
  · rw [exec_lcdCmd, deliver_claim_of_full 1 _ hfull]

end Machine

end Sys2Proof
end

section
/-!
SUPPORT. One task tick of the display sequencer, branch by branch: what is dispatched on, the init
sub-states, the tick of a Write, of the command kinds and of a reclaim
(41_display_sequencer.md R148 to R157). Settles O11 to O15.
-/

namespace Sys2Proof

theorem decode_lcdTick (rest : List Word) :
    decode ((0x80000000 : Word) :: rest) = .instr .lcdTick :=
  decode_eq_instr.mpr ⟨rfl, rest, rfl⟩

namespace Machine

/-! ### The state ticks leave -/

/-- The state that `n` ticks from `s` leave when they bring unit STB to `b` and the sequencer to `l`: a
tick writes nothing else (`tick_frame`). -/
def State.afterTicks (s : State) (n : Nat) (b : Bus) (l : Lcd) : State :=
  ((s.setBus b).setLcd l).advance n

section AfterTicks

variable (s : State) (m n : Nat) (b b' : Bus) (l l' : Lcd)

@[simp] theorem State.afterTicks_cfg : (s.afterTicks n b l).cfg = s.cfg := rfl
@[simp] theorem State.afterTicks_bus : (s.afterTicks n b l).bus = b := rfl
@[simp] theorem State.afterTicks_lcd : (s.afterTicks n b l).lcd = l := rfl
@[simp] theorem State.afterTicks_uarts : (s.afterTicks n b l).uarts = s.uarts := rfl
@[simp] theorem State.afterTicks_mem : (s.afterTicks n b l).mem = s.mem := rfl
@[simp] theorem State.afterTicks_responses : (s.afterTicks n b l).responses = s.responses := rfl
@[simp] theorem State.afterTicks_pc : (s.afterTicks n b l).pc = s.pc + n := rfl

@[simp] theorem State.setBus_self : s.setBus s.bus = s := rfl

@[simp] theorem State.afterTicks_zero : s.afterTicks 0 s.bus s.lcd = s := rfl

@[simp] theorem State.afterTicks_afterTicks :
    (s.afterTicks m b l).afterTicks n b' l' = s.afterTicks (m + n) b' l' := by
  simp [State.afterTicks, State.setBus, State.setLcd, State.advance, Nat.add_assoc]

end AfterTicks

theorem exec_lcdTick (s : State) :
    exec .lcdTick s = andThen (tick s) fun t => .next (t.advance 1) := rfl

theorem exec_lcdTick_of_tick {s : State} {b : Bus} {l : Lcd}
    (h : tick s = .next ((s.setBus b).setLcd l)) :
    exec .lcdTick s = .next (s.afterTicks 1 b l) := by
  rw [exec_lcdTick, h]
  rfl

theorem exec_lcdTick_of_fault {s : State} {f : Fault} (h : tick s = .fault f) :
    exec .lcdTick s = .fault f := by
  rw [exec_lcdTick, h, andThen_fault]

/-! ### What a tick dispatches on -/

theorem tick_of_off {s : State} (h : s.lcd.life = .off) : tick s = .next s := by simp [tick, h]

theorem tick_of_initializing {s : State} (h : s.lcd.life = .initializing) :
    tick s = .next (initStep s) := by simp [tick, h]

theorem tick_of_operational {s : State} (h : s.lcd.life = .operational) : tick s = serveStep s := by
  simp [tick, h]

/-- The engine is Operational and its current slot is `x`. -/
structure Serves (s : State) (x : Slot) : Prop where
  life : s.lcd.life = .operational
  slot : s.lcd.slots[s.lcd.cur]? = some x

theorem Serves.curSlot_eq {s : State} {x : Slot} (h : Serves s x) : curSlot s.lcd = x :=
  curSlot_of_getElem? h.slot

theorem Serves.cur_lt {s : State} {x : Slot} (h : Serves s x) : s.lcd.cur < s.lcd.slots.length := by
  obtain ⟨hlt, -⟩ := List.getElem?_eq_some_iff.mp h.slot
  exact hlt

theorem Serves.tick_of_none {s : State} {x : Slot} (h : Serves s x) (hk : x.kind = .none) :
    tick s = .next s := by
  simp [tick_of_operational h.life, serveStep, h.curSlot_eq, hk]

theorem Serves.tick_of_write {s : State} {x : Slot} {text length : Nat} (h : Serves s x)
    (hk : x.kind = .write text length) : tick s = writeStep text length s := by
  simp [tick_of_operational h.life, serveStep, h.curSlot_eq, hk]

theorem Serves.tick_of_done {s : State} {x : Slot} (h : Serves s x) (hk : x.kind = .done) :
    tick s = .next (s.setLcd (reclaimStep s.lcd)) := by
  simp [tick_of_operational h.life, serveStep, h.curSlot_eq, hk]

/-- Settles O11. -/
theorem tickIdlesWhenOffOrEmpty : Obligations.TickIdlesWhenOffOrEmpty := by
  refine ⟨decode_lcdTick, fun s => ⟨fun hoff => ?_, fun hlife x hx hkind => ?_⟩⟩
  · exact exec_lcdTick_of_tick (tick_of_off hoff)
  · exact exec_lcdTick_of_tick (Serves.tick_of_none ⟨hlife, hx⟩ hkind)

/-! ### The init sub-states -/

/-- The sequencer is in a sub-state that issues `cmd` and goes on to `next`
(41_display_sequencer.md R149). -/
def IssuesInit (cfg : Cfg) (l : Lcd) (cmd : Byte) (next : InitSub) : Prop :=
  (l.isub = .functionSet ∧ cfg.initDelayTicks ≤ l.delay ∧ cmd = cfg.cmdFunctionSet ∧
      next = .displayControl) ∨
    (l.isub = .displayControl ∧ cmd = cfg.cmdDisplayOn ∧ next = .displayClear) ∨
    (l.isub = .displayClear ∧ cmd = cfg.cmdClear ∧ next = .done)

theorem exec_lcdTick_powerOn {s : State} (hlife : s.lcd.life = .initializing)
    (hsub : s.lcd.isub = .powerOn) :
    exec .lcdTick s = .next
      (s.afterTicks 1 (dropEnable s.bus) { s.lcd with isub := .functionSet }) :=
  exec_lcdTick_of_tick (by simp [tick_of_initializing hlife, initStep, hsub])

theorem exec_lcdTick_wait {s : State} (hlife : s.lcd.life = .initializing)
    (hsub : s.lcd.isub = .functionSet) (hdelay : s.lcd.delay < s.cfg.initDelayTicks) :
    exec .lcdTick s = .next (s.afterTicks 1 s.bus { s.lcd with delay := s.lcd.delay + 1 }) :=
  exec_lcdTick_of_tick (by simp [tick_of_initializing hlife, initStep, hsub, hdelay])

theorem exec_lcdTick_done {s : State} (hlife : s.lcd.life = .initializing)
    (hsub : s.lcd.isub = .done) :
    exec .lcdTick s = .next (s.afterTicks 1 s.bus { s.lcd with life := .operational }) :=
  exec_lcdTick_of_tick (by simp [tick_of_initializing hlife, initStep, hsub])

theorem initStep_of_issuesInit {s : State} {cmd : Byte} {next : InitSub}
    (h : IssuesInit s.cfg s.lcd cmd next) : initStep s = issueInit cmd s.lcd.isub next s := by
  obtain ⟨hsub, hdelay, rfl, rfl⟩ | ⟨hsub, rfl, rfl⟩ | ⟨hsub, rfl, rfl⟩ := h
  · simp [initStep, hsub, Nat.not_lt.mpr hdelay]
  · simp [initStep, hsub]
  · simp [initStep, hsub]

theorem exec_lcdTick_presentInit {s : State} {cmd : Byte} {next : InitSub}
    (hlife : s.lcd.life = .initializing) (h : IssuesInit s.cfg s.lcd cmd next)
    (hphase : s.bus.phase = false) :
    exec .lcdTick s = .next (s.afterTicks 1 (presentByte cmd false s.bus) s.lcd) := by
  apply exec_lcdTick_of_tick
  rw [tick_of_initializing hlife, initStep_of_issuesInit h]
  simp [issueInit, hphase, strobe_of_not_asserted hphase]

theorem exec_lcdTick_latchInit {s : State} {cmd : Byte} {next : InitSub}
    (hlife : s.lcd.life = .initializing) (h : IssuesInit s.cfg s.lcd cmd next)
    (hphase : s.bus.phase = true) :
    exec .lcdTick s = .next
      (s.afterTicks 1 { dropEnable s.bus with phase := false } { s.lcd with isub := next }) := by
  apply exec_lcdTick_of_tick
  rw [tick_of_initializing hlife, initStep_of_issuesInit h]
  simp [issueInit, hphase, strobe_of_asserted hphase]

/-- Settles O12. -/
theorem tickRunsInitSubStates : Obligations.TickRunsInitSubStates := fun _ hlife =>
  ⟨exec_lcdTick_powerOn hlife, exec_lcdTick_wait hlife,
    fun _ _ h => ⟨exec_lcdTick_presentInit hlife h, exec_lcdTick_latchInit hlife h⟩,
    exec_lcdTick_done hlife⟩

/-! ### A Write -/

section Write

variable {s : State} {x : Slot} {text length : Nat}

theorem bufRead_eq_none {cfg : Cfg} {m : Memory} {r k len : Nat}
    (h : len ≤ k ∨ r = cfg.nullRef ∨ cfg.memEnd ≤ r + k ∨ memRead m (r + k) = none) :
    bufRead cfg m r k len = none := by
  refine Option.eq_none_iff_forall_ne_some.mpr fun b hb => ?_
  obtain ⟨hk, hr, hend, hb⟩ := bufRead_eq_some.mp hb
  obtain h | h | h | h := h
  · omega
  · exact hr h
  · omega
  · simp [h] at hb

theorem exec_lcdTick_writeStart (h : Serves s x) (hk : x.kind = .write text length)
    (hp : x.progress = .start) :
    exec .lcdTick s = .next (s.afterTicks 1 s.bus (setWidx (setCur s.lcd (inProgress x)) 0)) := by
  apply exec_lcdTick_of_tick
  rw [h.tick_of_write hk]
  have hcur := h.curSlot_eq
  exact writeStep_eq_next.mpr (.inl ⟨by rw [hcur, hp], by rw [beginCur, hcur]; rfl⟩)

theorem exec_lcdTick_writeEnd (h : Serves s x) (hk : x.kind = .write text length)
    (hp : x.progress ≠ .start) (hidx : s.lcd.widx = length) :
    exec .lcdTick s = .next (s.afterTicks 1 s.bus (setCur s.lcd (finished x))) := by
  apply exec_lcdTick_of_tick
  rw [h.tick_of_write hk]
  have hcur := h.curSlot_eq
  exact writeStep_eq_next.mpr (.inr (.inl ⟨by rwa [hcur], hidx, by rw [complete, hcur]; rfl⟩))

/-- Away from the end of the text a tick is one call of the bus cycle of the character it reads. -/
theorem tick_writeChar {b : Byte} (h : Serves s x) (hk : x.kind = .write text length)
    (hp : x.progress ≠ .start) (hb : bufRead s.cfg s.mem text s.lcd.widx length = some b) :
    tick s = .next (writeChar b s) := by
  obtain ⟨hidx, -⟩ := bufRead_eq_some.mp hb
  rw [h.tick_of_write hk]
  exact writeStep_eq_next.mpr (.inr (.inr ⟨by rwa [h.curSlot_eq], by omega, b, hb, rfl⟩))

theorem exec_lcdTick_presentChar {b : Byte} (h : Serves s x) (hk : x.kind = .write text length)
    (hp : x.progress ≠ .start) (hb : bufRead s.cfg s.mem text s.lcd.widx length = some b)
    (hphase : s.bus.phase = false) :
    exec .lcdTick s = .next (s.afterTicks 1 (presentByte b true s.bus) s.lcd) := by
  apply exec_lcdTick_of_tick
  rw [tick_writeChar h hk hp hb]
  simp [writeChar, setWidx, hphase, strobe_of_not_asserted hphase]

theorem exec_lcdTick_latchChar {b : Byte} (h : Serves s x) (hk : x.kind = .write text length)
    (hp : x.progress ≠ .start) (hb : bufRead s.cfg s.mem text s.lcd.widx length = some b)
    (hphase : s.bus.phase = true) :
    exec .lcdTick s = .next
      (s.afterTicks 1 { dropEnable s.bus with phase := false }
        (setWidx s.lcd (incIndex s.cfg s.lcd.widx))) := by
  apply exec_lcdTick_of_tick
  rw [tick_writeChar h hk hp hb]
  simp [writeChar, hphase, strobe_of_asserted hphase]

theorem exec_lcdTick_writeFault (h : Serves s x) (hk : x.kind = .write text length)
    (hp : x.progress ≠ .start) (hidx : s.lcd.widx ≠ length)
    (hb : bufRead s.cfg s.mem text s.lcd.widx length = none) :
    exec .lcdTick s = .fault .bufferBounds := by
  apply exec_lcdTick_of_fault
  rw [h.tick_of_write hk]
  simp [writeStep, h.curSlot_eq, hp, hidx, hb]

end Write

/-- Settles O13. -/
theorem tickServesWrite : Obligations.TickServesWrite := by
  intro s x text length hlife hx hkind
  have hs : Serves s x := ⟨hlife, hx⟩
  refine ⟨exec_lcdTick_writeStart hs hkind, exec_lcdTick_writeEnd hs hkind, ?_, ?_⟩
  · intro hp hidx b htext hend hread
    have hb : bufRead s.cfg s.mem text s.lcd.widx length = some b :=
      bufRead_eq_some.mpr ⟨hidx, htext, hend, hread⟩
    exact ⟨exec_lcdTick_presentChar hs hkind hp hb, exec_lcdTick_latchChar hs hkind hp hb⟩
  · intro hp hidx hunreadable
    exact exec_lcdTick_writeFault hs hkind hp hidx (bufRead_eq_none hunreadable)

/-! ### Clear, SetPosition and RawCommand -/

/-- The slot `x` is of a command kind: its command byte is `cmd`, and when it completes the cursor
stands at `row` and `col` (41_display_sequencer.md R153 to R155). -/
def IssuesCommand (cfg : Cfg) (l : Lcd) (x : Slot) (cmd : Byte) (row : BitVec 1) (col : BitVec 4) :
    Prop :=
  (x.kind = .clear ∧ cmd = cfg.cmdClear ∧ row = l.cursorRow ∧ col = l.cursorCol) ∨
    (x.kind = .rawCommand cmd ∧ row = l.cursorRow ∧ col = l.cursorCol) ∨
    (x.kind = .setPosition row col ∧ cmd = setposCmd cfg row col)

section Command

variable {s : State} {x : Slot} {cmd : Byte} {row : BitVec 1} {col : BitVec 4}

/-- Clear and RawCommand leave the cursor where it stands (`commandStep_id`). -/
theorem Serves.tick_of_command (h : Serves s x) (hc : IssuesCommand s.cfg s.lcd x cmd row col) :
    tick s = .next (commandStep cmd (moveCursor row col) s) := by
  rw [tick_of_operational h.life, serveStep, h.curSlot_eq]
  obtain ⟨hk, rfl, rfl, rfl⟩ | ⟨hk, rfl, rfl⟩ | ⟨hk, rfl⟩ := hc
  · simp only [hk, clearStep, commandStep_id]
  · simp only [hk, rawCommandStep, commandStep_id]
  · simp only [hk, setPositionStep]

theorem exec_lcdTick_presentCommand (h : Serves s x)
    (hc : IssuesCommand s.cfg s.lcd x cmd row col) (hphase : s.bus.phase = false) :
    exec .lcdTick s = .next
      (s.afterTicks 1 (presentByte cmd false s.bus) (setCur s.lcd (inProgress x))) := by
  apply exec_lcdTick_of_tick
  rw [h.tick_of_command hc]
  simp [commandStep, beginCur, h.curSlot_eq, hphase, strobe_of_not_asserted hphase]

theorem exec_lcdTick_latchCommand (h : Serves s x)
    (hc : IssuesCommand s.cfg s.lcd x cmd row col) (hphase : s.bus.phase = true) :
    exec .lcdTick s = .next
      (s.afterTicks 1 { dropEnable s.bus with phase := false }
        (setCur (moveCursor row col s.lcd) (finished x))) := by
  apply exec_lcdTick_of_tick
  have hmove : moveCursor row col (setCur s.lcd (inProgress x)) =
      setCur (moveCursor row col s.lcd) (inProgress x) := rfl
  have hfinish : complete (setCur (moveCursor row col s.lcd) (inProgress x)) =
      setCur (moveCursor row col s.lcd) (finished x) := complete_setCur (inProgress x) h.cur_lt
  rw [h.tick_of_command hc]
  simp [commandStep, beginCur, h.curSlot_eq, hphase, strobe_of_asserted hphase, hmove, hfinish]

end Command

theorem setposCmd_default : ∀ (row : BitVec 1) (col : BitVec 4), setposCmd Cfg.default row col =
    BitVec.ofNat 8 (0x80 ||| (row.toNat * 0x40 + col.toNat)) := by
  decide

/-- Settles O14. -/
theorem tickServesCommandKinds : Obligations.TickServesCommandKinds :=
  ⟨setposCmd_default, fun _ _ _ _ _ hlife hx hc =>
    ⟨exec_lcdTick_presentCommand ⟨hlife, hx⟩ hc, exec_lcdTick_latchCommand ⟨hlife, hx⟩ hc⟩⟩

/-! ### Reclaiming -/

theorem selectNext_of_lowest {l : Lcd} {i : Nat} {y : Slot} (hy : l.slots[i]? = some y)
    (hocc : y.occupied = true)
    (hbelow : ∀ j z, j < i → l.slots[j]? = some z → z.occupied = false) :
    selectNext l = { l with cur := i, slots := l.slots.set i (restarted y) } := by
  have hfirst : firstOccupied l.slots = some i :=
    firstOccupied_eq_some.mpr ⟨⟨y, hy, hocc⟩, hbelow⟩
  simp [selectNext, hfirst, List.getD, hy]

theorem selectNext_of_empty {l : Lcd} (h : ∀ x ∈ l.slots, x.occupied = false) :
    selectNext l = { l with cur := 0 } := by
  simp [selectNext, firstOccupied_eq_none.mpr h]

theorem exec_lcdTick_reclaim {s : State} {x : Slot} (h : Serves s x) (hk : x.kind = .done) :
    exec .lcdTick s = .next (s.afterTicks 1 s.bus (selectNext (setCur s.lcd (released x)))) :=
  exec_lcdTick_of_tick (by rw [h.tick_of_done hk, reclaimStep, h.curSlot_eq]; rfl)

/-- Once the current slot is freed, the occupied slots are the others. -/
theorem setCur_released_unoccupied {l : Lcd} {x z : Slot} {j : Nat}
    (hz : (setCur l (released x)).slots[j]? = some z)
    (hothers : j ≠ l.cur → l.slots[j]? = some z → z.occupied = false) : z.occupied = false := by
  rw [setCur_slots] at hz
  by_cases hj : l.cur = j
  · subst hj
    rw [List.getElem?_set_self'] at hz
    obtain ⟨-, -, rfl⟩ := Option.map_eq_some_iff.mp hz
    rfl
  · rw [List.getElem?_set_ne hj] at hz
    exact hothers (Ne.symm hj) hz

/-- Settles O15. -/
theorem tickReclaimsThenSelectsLowest : Obligations.TickReclaimsThenSelectsLowest := by
  intro s x hlife hx hkind
  have hs : Serves s x := ⟨hlife, hx⟩
  refine ⟨fun i y hi hy hocc hbelow => ?_, fun hnone => ?_⟩
  · have hy' : (setCur s.lcd (released x)).slots[i]? = some y := by
      rwa [setCur_slots, List.getElem?_set_ne (Ne.symm hi)]
    rw [exec_lcdTick_reclaim hs hkind, selectNext_of_lowest hy' hocc fun j z hj hz =>
      setCur_released_unoccupied hz (hbelow j z hj)]
    rfl
  · rw [exec_lcdTick_reclaim hs hkind, selectNext_of_empty fun z hz => ?_]
    · rfl
    · obtain ⟨j, hj⟩ := List.mem_iff_getElem?.mp hz
      exact setCur_released_unoccupied hj (hnone j z)

end Machine

end Sys2Proof
end

section
/-!
SUPPORT. Runs of task ticks: the initialisation, a Write and a command from their first tick to their
last, with the bytes each latches (41_display_sequencer.md R159). Settles O16 to O18.
-/

namespace Sys2Proof.Machine

/-! ### The same operation several times -/

section ExecTimes

variable {i : Instr} {s t u : State} {m n : Nat}

theorem execTimes_zero (i : Instr) (s : State) : execTimes 0 i s = .next s := rfl

theorem execTimes_succ (n : Nat) (i : Instr) (s : State) :
    execTimes (n + 1) i s = andThen (exec i s) (execTimes n i) := rfl

theorem execTimes_one (h : exec i s = .next t) : execTimes 1 i s = .next t := by
  rw [execTimes_succ, h, andThen_next, execTimes_zero]

theorem execTimes_trans (h : execTimes m i s = .next t) (h' : execTimes n i t = .next u) :
    execTimes (m + n) i s = .next u := by
  induction m generalizing s with
  | zero =>
    cases h
    rwa [Nat.zero_add]
  | succ m ih =>
    rw [execTimes_succ] at h
    obtain ⟨v, hv, hrest⟩ := andThen_eq_next.mp h
    rw [Nat.add_right_comm, execTimes_succ, hv, andThen_next, ih hrest]

/-- Runs of ticks compose. -/
theorem execTimes_lcdTick_trans {b b' : Bus} {l l' : Lcd}
    (h : execTimes m .lcdTick s = .next (s.afterTicks m b l))
    (h' : execTimes n .lcdTick (s.afterTicks m b l) =
      .next ((s.afterTicks m b l).afterTicks n b' l')) :
    execTimes (m + n) .lcdTick s = .next (s.afterTicks (m + n) b' l') := by
  rw [execTimes_trans h h', State.afterTicks_afterTicks]

end ExecTimes

/-! ### Whole bus cycles -/

/-- Unit STB after the two calls of the bus cycle of `b` (40_strobe_driver.md R121). -/
def busCycle (b : Byte) (rs : Bool) (u : Bus) : Bus :=
  { dropEnable (presentByte b rs u) with phase := false }

@[simp] theorem busCycle_phase (b : Byte) (rs : Bool) (u : Bus) : (busCycle b rs u).phase = false :=
  rfl

@[simp] theorem busCycle_e (b : Byte) (rs : Bool) (u : Bus) : (busCycle b rs u).e = false := rfl

@[simp] theorem busCycle_latchLog (b : Byte) (rs : Bool) (u : Bus) :
    (busCycle b rs u).latchLog = u.latchLog ++ [⟨rs, false, b⟩] := rfl

/-- Unit STB after the bus cycles of several bytes, one after the other. -/
def busCycles (rs : Bool) (bytes : List Byte) (u : Bus) : Bus :=
  bytes.foldl (fun v b => busCycle b rs v) u

@[simp] theorem busCycles_nil (rs : Bool) (u : Bus) : busCycles rs [] u = u := rfl

@[simp] theorem busCycles_cons (rs : Bool) (b : Byte) (bytes : List Byte) (u : Bus) :
    busCycles rs (b :: bytes) u = busCycles rs bytes (busCycle b rs u) := rfl

theorem busCycles_phase (rs : Bool) (bytes : List Byte) {u : Bus} (h : u.phase = false) :
    (busCycles rs bytes u).phase = false := by
  induction bytes generalizing u with
  | nil => exact h
  | cons b bytes ih => exact ih (busCycle_phase b rs u)

theorem busCycles_latchLog (rs : Bool) (bytes : List Byte) (u : Bus) :
    (busCycles rs bytes u).latchLog = u.latchLog ++ bytes.map fun b => ⟨rs, false, b⟩ := by
  induction bytes generalizing u with
  | nil => simp
  | cons b bytes ih => simp [ih]

/-! ### The initialisation -/

section Initialisation

variable {s : State}

/-- `n` ticks of the power-on wait. -/
theorem execTimes_wait (n : Nat) (hlife : s.lcd.life = .initializing)
    (hsub : s.lcd.isub = .functionSet) (hdelay : s.lcd.delay + n ≤ s.cfg.initDelayTicks) :
    execTimes n .lcdTick s = .next
      (s.afterTicks n s.bus { s.lcd with delay := s.lcd.delay + n }) := by
  induction n with
  | zero => rfl
  | succ n ih =>
    exact execTimes_lcdTick_trans (ih (by omega))
      (execTimes_one (exec_lcdTick_wait hlife hsub hdelay))

/-- Two ticks issue an init command and take the engine to the next sub-state. -/
theorem execTimes_initCommand {cmd : Byte} {next : InitSub} (hlife : s.lcd.life = .initializing)
    (h : IssuesInit s.cfg s.lcd cmd next) (hphase : s.bus.phase = false) :
    execTimes 2 .lcdTick s = .next
      (s.afterTicks 2 (busCycle cmd false s.bus) { s.lcd with isub := next }) :=
  execTimes_lcdTick_trans (execTimes_one (exec_lcdTick_presentInit hlife h hphase))
    (execTimes_one (exec_lcdTick_latchInit hlife h rfl))

theorem execTimes_from_displayClear (hlife : s.lcd.life = .initializing)
    (hsub : s.lcd.isub = .displayClear) (hphase : s.bus.phase = false) :
    execTimes 3 .lcdTick s = .next
      (s.afterTicks 3 (busCycles false [s.cfg.cmdClear] s.bus)
        { s.lcd with life := .operational, isub := .done }) :=
  execTimes_lcdTick_trans (execTimes_initCommand hlife (.inr (.inr ⟨hsub, rfl, rfl⟩)) hphase)
    (execTimes_one (exec_lcdTick_done hlife rfl))

theorem execTimes_from_displayControl (hlife : s.lcd.life = .initializing)
    (hsub : s.lcd.isub = .displayControl) (hphase : s.bus.phase = false) :
    execTimes 5 .lcdTick s = .next
      (s.afterTicks 5 (busCycles false [s.cfg.cmdDisplayOn, s.cfg.cmdClear] s.bus)
        { s.lcd with life := .operational, isub := .done }) :=
  execTimes_lcdTick_trans (execTimes_initCommand hlife (.inr (.inl ⟨hsub, rfl, rfl⟩)) hphase)
    (execTimes_from_displayClear hlife rfl rfl)

theorem execTimes_from_functionSet (hlife : s.lcd.life = .initializing)
    (hsub : s.lcd.isub = .functionSet) (hdelay : s.cfg.initDelayTicks ≤ s.lcd.delay)
    (hphase : s.bus.phase = false) :
    execTimes 7 .lcdTick s = .next
      (s.afterTicks 7
        (busCycles false [s.cfg.cmdFunctionSet, s.cfg.cmdDisplayOn, s.cfg.cmdClear] s.bus)
        { s.lcd with life := .operational, isub := .done }) :=
  execTimes_lcdTick_trans (execTimes_initCommand hlife (.inl ⟨hsub, hdelay, rfl, rfl⟩) hphase)
    (execTimes_from_displayControl hlife rfl rfl)

/-- One tick for PowerOn, the wait, and seven from its end. -/
theorem execTimes_initialisation (hlife : s.lcd.life = .initializing)
    (hsub : s.lcd.isub = .powerOn) (hdelay : s.lcd.delay = 0) (hphase : s.bus.phase = false) :
    execTimes (s.cfg.initDelayTicks + 8) .lcdTick s = .next
      (s.afterTicks (s.cfg.initDelayTicks + 8)
        (busCycles false [s.cfg.cmdFunctionSet, s.cfg.cmdDisplayOn, s.cfg.cmdClear]
          (dropEnable s.bus))
        { s.lcd with life := .operational, isub := .done, delay := s.cfg.initDelayTicks }) := by
  have hwait : s.lcd.delay + s.cfg.initDelayTicks = s.cfg.initDelayTicks := by omega
  have hrest : execTimes (s.cfg.initDelayTicks + 7) .lcdTick
      (s.afterTicks 1 (dropEnable s.bus) { s.lcd with isub := .functionSet }) = .next _ :=
    execTimes_lcdTick_trans (execTimes_wait s.cfg.initDelayTicks hlife rfl hwait.le)
      (execTimes_from_functionSet hlife rfl hwait.ge hphase)
  have hcount : s.cfg.initDelayTicks + 8 = 1 + (s.cfg.initDelayTicks + 7) := by omega
  rw [hcount, execTimes_lcdTick_trans (execTimes_one (exec_lcdTick_powerOn hlife hsub)) hrest]
  simp [hwait]

end Initialisation

/-- Settles O16: nothing is latched before the three commands, because the block does not hold `E`
high. -/
theorem initialisationTakesDelayPlusEightTicks :
    Obligations.InitialisationTakesDelayPlusEightTicks := by
  intro s hlife hsub hdelay hphase hlow
  have hquiet : (dropEnable s.bus).latchLog = s.bus.latchLog := by
    rw [dropEnable_of_not_high]
    rintro ⟨hdriven, he⟩
    simp [hlow hdriven] at he
  refine ⟨_, execTimes_initialisation hlife hsub hdelay hphase, rfl, ?_,
    rfl, rfl, rfl, rfl, rfl, rfl⟩
  rw [State.afterTicks_bus, busCycles_latchLog, hquiet]
  rfl

/-! ### Runs that free the current slot -/

/-- `n` ticks take `s` to `t`, and slot `i` is occupied before each of them. -/
def RunsOccupied (i n : Nat) (s t : State) : Prop :=
  execTimes n .lcdTick s = .next t ∧
    ∀ m, m < n → ∃ u, execTimes m .lcdTick s = .next u ∧
      ∃ y, u.lcd.slots[i]? = some y ∧ y.occupied = true

theorem RunsOccupied.trans {i m n : Nat} {s t u : State} (h : RunsOccupied i m s t)
    (h' : RunsOccupied i n t u) : RunsOccupied i (m + n) s u := by
  obtain ⟨hrun, hbefore⟩ := h
  obtain ⟨hrun', hbefore'⟩ := h'
  refine ⟨execTimes_trans hrun hrun', fun k hk => ?_⟩
  by_cases hkm : k < m
  · exact hbefore k hkm
  · obtain ⟨v, hv, hocc⟩ := hbefore' (k - m) (by omega)
    refine ⟨v, ?_, hocc⟩
    rw [← Nat.add_sub_of_le (not_lt.mp hkm), execTimes_trans hrun hv]

/-- `n` ticks bring unit STB to `b` and free the current slot, which is occupied until the last. -/
def FreesAfter (s : State) (n : Nat) (b : Bus) : Prop :=
  ∃ l, RunsOccupied s.lcd.cur n s (s.afterTicks n b l) ∧
    ∃ y, l.slots[s.lcd.cur]? = some y ∧ y.occupied = false ∧ y.kind = .none

/-- Ticks that leave the current slot current and occupied may come before. -/
theorem FreesAfter.of_run {s : State} {m n : Nat} {b b' : Bus} {l : Lcd}
    (h : RunsOccupied s.lcd.cur m s (s.afterTicks m b l)) (hcur : l.cur = s.lcd.cur)
    (h' : FreesAfter (s.afterTicks m b l) n b') : FreesAfter s (m + n) b' := by
  obtain ⟨l', hrun, hfree⟩ := h'
  rw [State.afterTicks_lcd, hcur] at hrun hfree
  rw [State.afterTicks_afterTicks] at hrun
  exact ⟨l', h.trans hrun, hfree⟩

/-- What the statements about whole requests say of such a run. -/
theorem FreesAfter.exists_run {s : State} {n : Nat} {b : Bus} (h : FreesAfter s n b) :
    ∃ t, execTimes n .lcdTick s = .next t ∧ t.bus = b ∧
      (∃ y, t.lcd.slots[s.lcd.cur]? = some y ∧ y.occupied = false ∧ y.kind = .none) ∧
      (∀ m, m < n → ∃ u, execTimes m .lcdTick s = .next u ∧
        ∃ y, u.lcd.slots[s.lcd.cur]? = some y ∧ y.occupied = true) ∧
      t.uarts = s.uarts ∧ t.mem = s.mem ∧ t.pc = s.pc + n := by
  obtain ⟨l, ⟨hrun, hbefore⟩, hfree⟩ := h
  exact ⟨s.afterTicks n b l, hrun, rfl, hfree, hbefore, rfl, rfl, rfl⟩

section Serves

variable {s : State} {x : Slot}

theorem Serves.runsOccupied_one {t : State} (h : Serves s x) (hocc : x.occupied = true)
    (ht : exec .lcdTick s = .next t) : RunsOccupied s.lcd.cur 1 s t := by
  refine ⟨execTimes_one ht, fun m hm => ⟨s, ?_, x, h.slot, hocc⟩⟩
  rw [Nat.lt_one_iff.mp hm, execTimes_zero]

/-- A slot that a tick writes over the current one is served next. -/
theorem Serves.after_setCur (h : Serves s x) (n : Nat) (b : Bus) (y : Slot) :
    Serves (s.afterTicks n b (setCur s.lcd y)) y :=
  ⟨h.life, by simp [h.cur_lt]⟩

/-- The reclaim tick frees the slot it finds Done, whichever slot it selects. -/
theorem Serves.freesAfter_of_done (h : Serves s x) (hocc : x.occupied = true)
    (hk : x.kind = .done) : FreesAfter s 1 s.bus := by
  refine ⟨_, h.runsOccupied_one hocc (exec_lcdTick_reclaim h hk), ?_⟩
  obtain ⟨-, hkeep⟩ := selectNext_slots (setCur s.lcd (released x))
  obtain ⟨y, hy, hyocc, hykind⟩ := hkeep s.lcd.cur (released x) (by simp [h.cur_lt])
  exact ⟨y, hy, hyocc, hykind⟩

/-! ### Clear, SetPosition and RawCommand -/

theorem Serves.freesAfter_of_command {cmd : Byte} {row : BitVec 1} {col : BitVec 4}
    (h : Serves s x) (hocc : x.occupied = true) (hc : IssuesCommand s.cfg s.lcd x cmd row col)
    (hphase : s.bus.phase = false) : FreesAfter s 3 (busCycle cmd false s.bus) := by
  have hserved := h.after_setCur 1 (presentByte cmd false s.bus) (inProgress x)
  have hpresent := h.runsOccupied_one hocc (exec_lcdTick_presentCommand h hc hphase)
  have hlatch := hserved.runsOccupied_one hocc (exec_lcdTick_latchCommand hserved hc rfl)
  refine FreesAfter.of_run (n := 2) hpresent rfl (FreesAfter.of_run (n := 1) hlatch rfl ?_)
  exact Serves.freesAfter_of_done (x := finished (inProgress x)) ⟨h.life, by simp [h.cur_lt]⟩
    hocc rfl

end Serves

/-- Settles O18. -/
theorem commandKindsTakeThreeTicks : Obligations.CommandKindsTakeThreeTicks := by
  intro s x cmd hlife hx hocc hphase hkind
  have hs : Serves s x := ⟨hlife, hx⟩
  have hc : ∃ row col, IssuesCommand s.cfg s.lcd x cmd row col := by
    obtain ⟨hk, hcmd⟩ | hk | ⟨row, col, hk, hcmd⟩ := hkind
    · exact ⟨_, _, .inl ⟨hk, hcmd, rfl, rfl⟩⟩
    · exact ⟨_, _, .inr (.inl ⟨hk, rfl, rfl⟩)⟩
    · exact ⟨row, col, .inr (.inr ⟨hk, hcmd⟩)⟩
  obtain ⟨row, col, hc⟩ := hc
  obtain ⟨t, hrun, hbus, hrest⟩ := (hs.freesAfter_of_command hocc hc hphase).exists_run
  exact ⟨t, hrun, by rw [hbus, busCycle_latchLog], by rw [hbus, busCycle_phase], hrest⟩

/-! ### A Write -/

section Write

variable {s : State} {text length : Nat}

/-- At the end of the text the Write completes, and the next tick frees its slot. -/
theorem freesAfter_of_writeEnd (h : Serves s ⟨true, .write text length, .inProgress⟩)
    (hidx : s.lcd.widx = length) : FreesAfter s 2 s.bus :=
  FreesAfter.of_run (n := 1)
    (h.runsOccupied_one rfl (exec_lcdTick_writeEnd h rfl (by simp) hidx)) rfl
    ((h.after_setCur 1 s.bus _).freesAfter_of_done rfl rfl)

/-- The two ticks of one character. -/
theorem runsOccupied_writeChar {b : Byte} (h : Serves s ⟨true, .write text length, .inProgress⟩)
    (hlen : length < s.cfg.indexEnd) (hphase : s.bus.phase = false)
    (hb : bufRead s.cfg s.mem text s.lcd.widx length = some b) :
    RunsOccupied s.lcd.cur 2 s
      (s.afterTicks 2 (busCycle b true s.bus) (setWidx s.lcd (s.lcd.widx + 1))) := by
  obtain ⟨hidx, -⟩ := bufRead_eq_some.mp hb
  have hpresented : Serves (s.afterTicks 1 (presentByte b true s.bus) s.lcd) _ := ⟨h.life, h.slot⟩
  have hlatch := exec_lcdTick_latchChar hpresented rfl (by simp) hb rfl
  rw [State.afterTicks_afterTicks, State.afterTicks_lcd, State.afterTicks_cfg,
    incIndex_of_lt hidx hlen] at hlatch
  exact (h.runsOccupied_one rfl (exec_lcdTick_presentChar h rfl (by simp) hb hphase)).trans
    (hpresented.runsOccupied_one rfl hlatch)

/-- Two ticks for each character still to come, one for the end test and one to free the slot. -/
theorem freesAfter_of_chars (chars : List Byte)
    (h : Serves s ⟨true, .write text length, .inProgress⟩) (hlen : length < s.cfg.indexEnd)
    (hphase : s.bus.phase = false) (hend : s.lcd.widx + chars.length = length)
    (hread : ∀ k b, chars[k]? = some b →
      bufRead s.cfg s.mem text (s.lcd.widx + k) length = some b) :
    FreesAfter s (2 * chars.length + 2) (busCycles true chars s.bus) := by
  induction chars generalizing s with
  | nil => exact freesAfter_of_writeEnd h hend
  | cons b chars ih =>
    have hcount : 2 * (b :: chars).length + 2 = 2 + (2 * chars.length + 2) := by
      rw [List.length_cons]
      omega
    rw [hcount, busCycles_cons]
    refine FreesAfter.of_run (runsOccupied_writeChar h hlen hphase (hread 0 b rfl)) rfl
      (ih ⟨h.life, h.slot⟩ hlen rfl ?_ fun k c hc => ?_)
    · rw [List.length_cons] at hend
      simp only [State.afterTicks_lcd, setWidx_widx]
      omega
    · have hnext := hread (k + 1) c hc
      rwa [← Nat.add_assoc, Nat.add_right_comm] at hnext

/-- The Start tick, then the characters. -/
theorem freesAfter_of_write (chars : List Byte) (h : Serves s ⟨true, .write text length, .start⟩)
    (hlen : length < s.cfg.indexEnd) (hphase : s.bus.phase = false) (hend : chars.length = length)
    (hread : ∀ k b, chars[k]? = some b → bufRead s.cfg s.mem text k length = some b) :
    FreesAfter s (1 + (2 * chars.length + 2)) (busCycles true chars s.bus) :=
  FreesAfter.of_run (h.runsOccupied_one rfl (exec_lcdTick_writeStart h rfl rfl)) rfl
    (freesAfter_of_chars chars ⟨h.life, (h.after_setCur 1 s.bus _).slot⟩ hlen hphase
      ((Nat.zero_add _).trans hend) fun k b hb => by simpa using hread k b hb)

end Write

/-- Settles O17. -/
theorem writeTakesTwoTicksPerCharacterPlusThree :
    Obligations.WriteTakesTwoTicksPerCharacterPlusThree := by
  intro s text length chars hlife hx hphase htext hchars hlen hend hread
  have hbuf : ∀ k b, chars[k]? = some b → bufRead s.cfg s.mem text k length = some b := by
    intro k b hb
    obtain ⟨hk, -⟩ := List.getElem?_eq_some_iff.mp hb
    exact bufRead_eq_some.mpr
      ⟨by omega, htext, by rw [Cfg.memEnd]; omega, hread k b hb⟩
  have hcount : 2 * length + 3 = 1 + (2 * chars.length + 2) := by omega
  rw [hcount]
  obtain ⟨t, hrun, hbus, hrest⟩ :=
    (freesAfter_of_write chars ⟨hlife, hx⟩ hlen hphase hchars hbuf).exists_run
  exact ⟨t, hrun, by rw [hbus, busCycles_latchLog], by rw [hbus, busCycles_phase true chars hphase],
    hrest⟩

end Sys2Proof.Machine
end

section
/-!
SUPPORT. The foreground operations of unit UBT: the words of each, the divisor computation, and every
outcome of each operation's checks, in their order, as a whole next state or a named stop
(42_serial_submission.md R170 to R184). Settles O19 to O25 and O60.
-/

namespace Sys2Proof

/-! ### Words -/

theorem decode_usInit (sel : Byte) {flags : InitFlags} (hparity : flags.parity ≠ 3)
    (clock baud : Word) (rest : List Word) :
    decode ((((0x20 : BitVec 8) ++ sel) ++ ((0 : BitVec 8) ++ flags.byte)) :: clock :: baud ::
      rest) = .instr (.usInit sel flags clock baud) :=
  decode_eq_instr.mpr ⟨bne_iff_ne.mpr hparity, rest, rfl⟩

theorem decode_usSend (sel : Byte) (data : Word) (length : BitVec 16) (rest : List Word) :
    decode ((((0x21 : BitVec 8) ++ sel) ++ length) :: data :: rest) =
      .instr (.usSend sel data.toNat length.toNat) := by
  refine decode_eq_instr.mpr ⟨by simp [Instr.wf], rest, ?_⟩
  simp only [encode, indexField_toNat, refWord_toNat]
  rfl

theorem decode_usRecv (sel : Byte) (dest : Word) (start length : BitVec 16) (rest : List Word) :
    decode ((((0x22 : BitVec 8) ++ sel) ++ length) :: dest :: ((0 : BitVec 16) ++ start) :: rest) =
      .instr (.usRecv sel dest.toNat start.toNat length.toNat) := by
  refine decode_eq_instr.mpr ⟨by simp [Instr.wf], rest, ?_⟩
  simp only [encode, indexField_toNat, refWord_toNat]
  rfl

theorem decode_usRegcb (sel : Byte) (dir : Direction) (handler : Word) (rest : List Word) :
    decode (((((0x25 : BitVec 8) ++ sel) ++ dir.bit) : Word) :: handler :: rest) =
      .instr (.usRegcb sel dir handler.toNat) := by
  refine decode_eq_instr.mpr ⟨by simp [Instr.wf], rest, ?_⟩
  simp only [encode, refWord_toNat]
  rfl

theorem decode_usSendb (sel byte : Byte) (rest : List Word) :
    decode ((((0x23 : BitVec 8) ++ sel) ++ ((0 : BitVec 8) ++ byte)) :: rest) =
      .instr (.usSendb sel byte) :=
  decode_eq_instr.mpr ⟨rfl, rest, rfl⟩

theorem decode_usRecvb (sel : Byte) (rest : List Word) :
    decode ((((0x24 : BitVec 8) ++ sel) ++ (0 : BitVec 16)) :: rest) = .instr (.usRecvb sel) :=
  decode_eq_instr.mpr ⟨rfl, rest, rfl⟩

namespace Machine

/-! ### Channel resolution -/

/-- Settles O60. -/
theorem defaultSelectorsNameTheThreeChannels :
    Obligations.DefaultSelectorsNameTheThreeChannels := by
  refine fun sel c => ⟨resolve_default, ?_⟩
  rintro rfl
  cases c <;> rfl

/-! ### The divisor -/

theorem oversampling_eq (over8 : Bool) : oversampling over8 = if over8 then 8 else 16 := by
  cases over8 <;> rfl

/-- Truncating division leaves a fraction below the oversampling factor, at most 16
(42_serial_submission.md R174 (a)). -/
theorem fraction_lt (raw : Nat) (over8 : Bool) :
    raw % 1000 * oversampling over8 / 1000 < oversampling over8 := by
  rw [oversampling_eq]
  split <;> omega

theorem oversampling_le (over8 : Bool) : oversampling over8 ≤ 16 := by cases over8 <;> decide

/-- The divisor without the carry arm. -/
theorem baudDiv_eq (clock baud : Nat) (over8 : Bool) :
    baudDiv clock baud over8 =
      (clock * 1000 / (baud * oversampling over8) / 1000,
        clock * 1000 / (baud * oversampling over8) % 1000 * oversampling over8 / 1000) := by
  have hlt := fraction_lt (clock * 1000 / (baud * oversampling over8)) over8
  have hle := oversampling_le over8
  exact if_neg (by omega)

/-- Settles O20. -/
theorem baudFractionNeverCarries : Obligations.BaudFractionNeverCarries := by
  intro clock baud over8
  have hlt := fraction_lt (clock * 1000 / (baud * oversampling over8)) over8
  refine ⟨by rw [baudDiv_eq, oversampling_eq], ?_⟩
  rw [baudDiv_eq]
  cases over8 <;> exact Nat.le_of_lt_succ hlt

/-- A fraction of four bits does not reach into the mantissa (30_encoding.md R105). -/
theorem packBrr_eq (mant : Nat) {frac : Nat} (h : frac < 16) :
    packBrr mant frac = BitVec.ofNat 16 (mant * 16 + frac) := by
  rw [packBrr, ← Nat.shiftLeft_add_eq_or_of_lt (i := 4) h, Nat.shiftLeft_eq]

/-! ### US.INIT -/

section Init

variable {sel : Byte} {flags : InitFlags} {clock baud : Word} {s : State} {c : Channel}

theorem exec_usInit (sel : Byte) (flags : InitFlags) (clock baud : Word) (s : State) :
    exec (.usInit sel flags clock baud) s = deliver 3 (requestInit sel flags clock baud s) := rfl

theorem requestInit_of_reserved (hparity : flags.parity = 3) :
    requestInit sel flags clock baud s = .refused .illegalRequest := if_pos hparity

theorem requestInit_of_unresolved (hparity : flags.parity ≠ 3) (hc : resolve s.cfg sel = none) :
    requestInit sel flags clock baud s = reject s .invalidChannel := by
  rw [requestInit, if_neg hparity, onChannel_of_none hc]

theorem requestInit_of_baudZero (hparity : flags.parity ≠ 3) (hc : resolve s.cfg sel = some c)
    (hbaud : baud = 0) : requestInit sel flags clock baud s = .refused .baudZero := by
  rw [requestInit, if_neg hparity, onChannel_of_some hc, if_pos hbaud]

theorem requestInit_of_baudRange (hparity : flags.parity ≠ 3) (hc : resolve s.cfg sel = some c)
    (hbaud : baud ≠ 0) {mant frac : Nat}
    (hdiv : baudDiv clock.toNat baud.toNat flags.over8 = (mant, frac)) (hmant : 4096 ≤ mant) :
    requestInit sel flags clock baud s = .refused .baudRange := by
  rw [requestInit, if_neg hparity, onChannel_of_some hc, if_neg hbaud, hdiv]
  exact if_pos hmant

theorem requestInit_of_accepted (hparity : flags.parity ≠ 3) (hc : resolve s.cfg sel = some c)
    (hbaud : baud ≠ 0) {mant frac : Nat}
    (hdiv : baudDiv clock.toNat baud.toNat flags.over8 = (mant, frac)) (hmant : mant < 4096) :
    requestInit sel flags clock baud s =
      .next (s.modUart c (configure flags (packBrr mant frac)), codeOnly .ok) := by
  rw [requestInit, if_neg hparity, onChannel_of_some hc, if_neg hbaud, hdiv]
  exact if_neg (not_le.mpr hmant)

end Init

/-- Settles O19. -/
theorem usInitProgramsTheChannel : Obligations.UsInitProgramsTheChannel := by
  refine fun sel flags clock baud => ⟨fun hreserved s => ?_, fun hparity =>
    ⟨decode_usInit sel hparity clock baud, fun s => ⟨fun hnone => ?_, fun c hc =>
      ⟨fun hbaud => ?_, ?_⟩⟩⟩⟩
  · rw [exec_usInit, requestInit_of_reserved hreserved, deliver_refused]
  · rw [exec_usInit, requestInit_of_unresolved hparity hnone, deliver_reject]
  · rw [exec_usInit, requestInit_of_baudZero hparity hc hbaud, deliver_refused]
  · intro k raw mant frac hk hraw hmant hfrac
    rw [← oversampling_eq] at hk
    have hdiv : baudDiv clock.toNat baud.toNat flags.over8 = (mant, frac) := by
      rw [baudDiv_eq, hfrac, hmant, hraw, hk]
    refine ⟨fun hbaud hrange => ?_, fun hbaud hfits => ?_⟩
    · rw [exec_usInit, requestInit_of_baudRange hparity hc hbaud hdiv hrange, deliver_refused]
    · have hsmall : frac < 16 := by
        rw [hfrac, hk]
        exact (fraction_lt raw flags.over8).trans_le (oversampling_le flags.over8)
      rw [exec_usInit, requestInit_of_accepted hparity hc hbaud hdiv hfits, packBrr_eq mant hsmall]
      rfl

/-! ### US.SEND -/

/-- Element 0 lies at the reference itself, inside every window that is not empty
(20_memory.md R65, R66). -/
theorem bufRead_first {cfg : Cfg} {m : Memory} {r : Nat} (hnull : r ≠ cfg.nullRef)
    (hlt : r < cfg.memEnd) (len : Nat) :
    bufRead cfg m r 0 len = if len = 0 then none else memRead m r := by
  cases len with
  | zero => rfl
  | succ n => simp [bufRead, elemAddr, hnull, hlt]

section Send

variable {sel : Byte} {data length : Nat} {s : State} {c : Channel}

theorem exec_usSend (sel : Byte) (data length : Nat) (s : State) :
    exec (.usSend sel data length) s = deliver 2 (requestSend sel data length s) := rfl

theorem requestSend_of_unresolved (hc : resolve s.cfg sel = none) :
    requestSend sel data length s = reject s .invalidChannel := onChannel_of_none hc

theorem requestSend_of_null (hc : resolve s.cfg sel = some c)
    (hnull : fitRef s.cfg data = s.cfg.nullRef) :
    requestSend sel data length s = reject s .nullArgument := by
  rw [requestSend, onChannel_of_some hc, if_pos hnull]

theorem requestSend_of_busy (hc : resolve s.cfg sel = some c)
    (hnull : fitRef s.cfg data ≠ s.cfg.nullRef) (hbusy : (s.uart c).ch.txBusy = true) :
    requestSend sel data length s = reject s .busy := by
  rw [requestSend, onChannel_of_some hc, if_neg hnull, if_pos hbusy]

/-- Past the checks that answer a code, element 0 is read and then handed to the data register. -/
theorem requestSend_of_free (hc : resolve s.cfg sel = some c)
    (hnull : fitRef s.cfg data ≠ s.cfg.nullRef) (hfree : (s.uart c).ch.txBusy = false) :
    requestSend sel data length s =
      andThen (orBounds (if fitIndex s.cfg length = 0 then none
        else memRead s.mem (fitRef s.cfg data))) fun b =>
          andThen (drWrite c b s) fun t =>
            .next (t.modUart c (startTx (fitRef s.cfg data) (fitIndex s.cfg length)),
              codeOnly .ok) := by
  rw [requestSend, onChannel_of_some hc, if_neg hnull, if_neg (Bool.eq_false_iff.mp hfree),
    bufRead_first hnull (fitRef_lt s.cfg data)]

theorem requestSend_of_unreadable (hc : resolve s.cfg sel = some c)
    (hnull : fitRef s.cfg data ≠ s.cfg.nullRef) (hfree : (s.uart c).ch.txBusy = false)
    (hread : fitIndex s.cfg length = 0 ∨ memRead s.mem (fitRef s.cfg data) = none) :
    requestSend sel data length s = .fault .bufferBounds := by
  rw [requestSend_of_free hc hnull hfree]
  rcases hread with hempty | hnone
  · rw [if_pos hempty, orBounds_none, andThen_fault]
  · rw [hnone, ite_self, orBounds_none, andThen_fault]

theorem requestSend_of_readable (hc : resolve s.cfg sel = some c)
    (hnull : fitRef s.cfg data ≠ s.cfg.nullRef) (hfree : (s.uart c).ch.txBusy = false)
    (hlen : fitIndex s.cfg length ≠ 0) {b : Byte}
    (hread : memRead s.mem (fitRef s.cfg data) = some b) :
    requestSend sel data length s =
      andThen (drWrite c b s) fun t =>
        .next (t.modUart c (startTx (fitRef s.cfg data) (fitIndex s.cfg length)),
          codeOnly .ok) := by
  rw [requestSend_of_free hc hnull hfree, if_neg hlen, hread, orBounds_some, andThen_next]

end Send

/-- Settles O21. -/
theorem usSendStartsTransfer : Obligations.UsSendStartsTransfer := by
  refine fun sel => ⟨decode_usSend sel, ?_⟩
  rintro s data _ length _ rfl rfl
  refine ⟨fun hnone => ?_, fun c hc => ⟨fun hnull => ?_, fun hnull hbusy => ?_,
    fun hnull hfree hread => ?_, fun b hread => ⟨fun hnull hfree hlen hinflight => ?_,
      fun hnull hfree hlen hinflight => ?_⟩⟩⟩
  · rw [exec_usSend, requestSend_of_unresolved hnone, deliver_reject]
  · rw [exec_usSend, requestSend_of_null hc hnull, deliver_reject]
  · rw [exec_usSend, requestSend_of_busy hc hnull hbusy, deliver_reject]
  · rw [exec_usSend, requestSend_of_unreadable hc hnull hfree hread, deliver_fault]
  · rw [exec_usSend, requestSend_of_readable hc hnull hfree hlen hread,
      drWrite_eq_refused.mpr ⟨hinflight, rfl⟩, andThen_refused, deliver_refused]
  · rw [exec_usSend, requestSend_of_readable hc hnull hfree hlen hread,
      drWrite_eq_next.mpr ⟨hinflight, rfl⟩, andThen_next, State.modUart_modUart]
    rfl

/-! ### US.RECV -/

section Recv

variable {sel : Byte} {dest start length : Nat} {s : State} {c : Channel}

theorem exec_usRecv (sel : Byte) (dest start length : Nat) (s : State) :
    exec (.usRecv sel dest start length) s =
      deliver 3 (requestRecv sel dest start length s) := rfl

theorem requestRecv_of_unresolved (hc : resolve s.cfg sel = none) :
    requestRecv sel dest start length s = reject s .invalidChannel := onChannel_of_none hc

theorem requestRecv_of_null (hc : resolve s.cfg sel = some c)
    (hnull : fitRef s.cfg dest = s.cfg.nullRef) :
    requestRecv sel dest start length s = reject s .nullArgument := by
  rw [requestRecv, onChannel_of_some hc, if_pos hnull]

theorem requestRecv_of_busy (hc : resolve s.cfg sel = some c)
    (hnull : fitRef s.cfg dest ≠ s.cfg.nullRef) (hbusy : (s.uart c).ch.rxBusy = true) :
    requestRecv sel dest start length s = reject s .busy := by
  rw [requestRecv, onChannel_of_some hc, if_neg hnull, if_pos hbusy]

theorem requestRecv_of_free (hc : resolve s.cfg sel = some c)
    (hnull : fitRef s.cfg dest ≠ s.cfg.nullRef) (hfree : (s.uart c).ch.rxBusy = false) :
    requestRecv sel dest start length s =
      .next (s.modUart c
        (startRx (fitRef s.cfg dest) (fitIndex s.cfg start) (fitIndex s.cfg length)),
        codeOnly .ok) := by
  rw [requestRecv, onChannel_of_some hc, if_neg hnull, if_neg (Bool.eq_false_iff.mp hfree)]

end Recv

/-- Settles O22. -/
theorem usRecvStartsTransfer : Obligations.UsRecvStartsTransfer := by
  refine fun sel => ⟨decode_usRecv sel, ?_⟩
  rintro s dest _ start _ length _ rfl rfl rfl
  refine ⟨fun hnone => ?_, fun c hc => ⟨fun hnull => ?_, fun hnull hbusy => ?_,
    fun hnull hfree => ?_⟩⟩
  · rw [exec_usRecv, requestRecv_of_unresolved hnone, deliver_reject]
  · rw [exec_usRecv, requestRecv_of_null hc hnull, deliver_reject]
  · rw [exec_usRecv, requestRecv_of_busy hc hnull hbusy, deliver_reject]
  · rw [exec_usRecv, requestRecv_of_free hc hnull hfree]
    rfl

/-! ### US.REGCB -/

section Regcb

variable {sel : Byte} {dir : Direction} {handler : Nat} {s : State} {c : Channel}

theorem exec_usRegcb (sel : Byte) (dir : Direction) (handler : Nat) (s : State) :
    exec (.usRegcb sel dir handler) s = deliver 2 (requestRegcb sel dir handler s) := rfl

theorem requestRegcb_of_unresolved (hc : resolve s.cfg sel = none) :
    requestRegcb sel dir handler s = reject s .invalidChannel := onChannel_of_none hc

theorem requestRegcb_of_null (hc : resolve s.cfg sel = some c)
    (hnull : fitRef s.cfg handler = s.cfg.nullRef) :
    requestRegcb sel dir handler s = reject s .nullArgument := by
  rw [requestRegcb, onChannel_of_some hc, if_pos hnull]

theorem requestRegcb_of_handler (hc : resolve s.cfg sel = some c)
    (hnull : fitRef s.cfg handler ≠ s.cfg.nullRef) :
    requestRegcb sel dir handler s =
      .next (s.modUart c (fun u => setCallback u dir (fitRef s.cfg handler)), codeOnly .ok) := by
  rw [requestRegcb, onChannel_of_some hc, if_neg hnull]

end Regcb

/-- Settles O23. -/
theorem usRegcbOverwritesEntry : Obligations.UsRegcbOverwritesEntry := by
  refine fun sel => ⟨fun handler rest =>
    ⟨decode_usRegcb sel .tx handler rest, decode_usRegcb sel .rx handler rest⟩, ?_⟩
  rintro s handler _ rfl
  refine ⟨fun hnone dir => ?_, fun c hc => ⟨fun hnull dir => ?_, fun hnull => ⟨?_, ?_⟩⟩⟩
  · rw [exec_usRegcb, requestRegcb_of_unresolved hnone, deliver_reject]
  · rw [exec_usRegcb, requestRegcb_of_null hc hnull, deliver_reject]
  · rw [exec_usRegcb, requestRegcb_of_handler hc hnull]
    rfl
  · rw [exec_usRegcb, requestRegcb_of_handler hc hnull]
    rfl

/-! ### The blocking operations -/

theorem mixed_eq_true {u : Uart} :
    mixed u = true ↔
      u.ch.txBusy = true ∨ u.ch.rxBusy = true ∨ u.cr.tcie = true ∨ u.cr.rxneie = true := by
  simp only [mixed, Bool.or_eq_true, or_assoc]

theorem mixed_eq_false {u : Uart} :
    mixed u = false ↔
      u.ch.txBusy = false ∧ u.ch.rxBusy = false ∧ u.cr.tcie = false ∧ u.cr.rxneie = false := by
  simp only [mixed, Bool.or_eq_false_iff, and_assoc]

section Blocking

variable {sel : Byte} {s : State} {c : Channel} {start : Channel → Result State}

theorem issueBlocking_of_unresolved (hc : resolve s.cfg sel = none) :
    issueBlocking sel s start = deliver 1 (reject s .invalidChannel) := by
  simp only [issueBlocking, hc]

theorem issueBlocking_of_mixed (hc : resolve s.cfg sel = some c) (hm : mixed (s.uart c) = true) :
    issueBlocking sel s start = .refused .mixedBlockingAsync := by
  simp only [issueBlocking, hc, if_pos hm]

theorem issueBlocking_of_unmixed (hc : resolve s.cfg sel = some c)
    (hm : mixed (s.uart c) = false) :
    issueBlocking sel s start = andThen (start c) fun t => .next (t.advance 1) := by
  simp only [issueBlocking, hc, hm, Bool.false_eq_true, if_false]

/-- A completion goes before any script word (42_serial_submission.md R182, R183). -/
theorem step_of_completion (h : completionEnabled s = true) :
    step s = .next (completeBlocking s) := if_pos h

theorem step_of_sendB (hwait : s.fgWait = .sendB c) (htc : (s.uart c).sr.tc = true) :
    step s = .next (endWait (finishSendb c s)) := by
  rw [step_of_completion (by rw [completionEnabled, hwait]; exact htc), completeBlocking, hwait]

theorem step_of_recvB (hwait : s.fgWait = .recvB c) (hrxne : (s.uart c).sr.rxne = true) :
    step s = .next (endWait (finishRecvb c s)) := by
  rw [step_of_completion (by rw [completionEnabled, hwait]; exact hrxne), completeBlocking, hwait]

theorem exec_usSendb (sel byte : Byte) (s : State) :
    exec (.usSendb sel byte) s =
      issueBlocking sel s fun c =>
        andThen (drWrite c byte s) fun t => .next (t.setFgWait (.sendB c)) := rfl

theorem exec_usRecvb (sel : Byte) (s : State) :
    exec (.usRecvb sel) s = issueBlocking sel s fun c => .next (s.setFgWait (.recvB c)) := rfl

end Blocking

/-- Settles O24. -/
theorem usSendbIssuesThenCompletes : Obligations.UsSendbIssuesThenCompletes := by
  refine fun sel byte => ⟨decode_usSendb sel byte, fun s => ⟨fun hnone => ?_, fun c hc =>
    ⟨fun hmixed => ?_, fun htx hrx htcie hrxneie => ?_⟩, fun c hwait htc => ?_⟩⟩
  · rw [exec_usSendb, issueBlocking_of_unresolved hnone, deliver_reject]
  · rw [exec_usSendb, issueBlocking_of_mixed hc (mixed_eq_true.mpr hmixed)]
  · have hm : mixed (s.uart c) = false := mixed_eq_false.mpr ⟨htx, hrx, htcie, hrxneie⟩
    rw [exec_usSendb, issueBlocking_of_unmixed hc hm]
    refine ⟨fun hinflight => ?_, fun hinflight => ?_⟩
    · rw [drWrite_eq_refused.mpr ⟨hinflight, rfl⟩, andThen_refused, andThen_refused]
    · rw [drWrite_eq_next.mpr ⟨hinflight, rfl⟩]
      rfl
  · rw [step_of_sendB hwait htc]
    rfl

/-- Settles O25: the completion clears `RXNE` whether or not the read of the data register already
does. -/
theorem usRecvbIssuesThenCompletes : Obligations.UsRecvbIssuesThenCompletes := by
  refine fun sel => ⟨decode_usRecvb sel, fun s => ⟨fun hnone => ?_, fun c hc =>
    ⟨fun hmixed => ?_, fun htx hrx htcie hrxneie => ?_⟩, fun c hwait hrxne => ?_⟩⟩
  · rw [exec_usRecvb, issueBlocking_of_unresolved hnone, deliver_reject]
  · rw [exec_usRecvb, issueBlocking_of_mixed hc (mixed_eq_true.mpr hmixed)]
  · have hm : mixed (s.uart c) = false := mixed_eq_false.mpr ⟨htx, hrx, htcie, hrxneie⟩
    rw [exec_usRecvb, issueBlocking_of_unmixed hc hm]
    rfl
  · rw [step_of_recvB hwait hrxne, finishRecvb, drRead_fst, drRead_snd, State.modUart_modUart]
    rfl

end Machine

end Sys2Proof
end

section
/-!
SUPPORT. What the foreground operations share: a request that fails has changed nothing, and an
operation changes at most the channel it is for (42_serial_submission.md R171, R178;
60_exceptions.md R220). Settles O42 and O52.
-/

namespace Sys2Proof.Machine

/-! ### Failed requests -/

theorem Rejects.unchanged {s t : State} {r : Response} (h : Rejects s t r) : t = s := h.1

theorem claim_unchanged_of_failure {k : Kind} {s t : State} {r : Response}
    (h : claim k s = .next (t, r)) (hr : r.code ≠ .ok) : t = s := by
  rcases claim_eq_next.mp h with ⟨_, _, _, _, _, _, rfl⟩ | ⟨_, rfl, _⟩
  · exact absurd rfl hr
  · rfl

theorem reject_unchanged {code : ResultCode} {s t : State} {r : Response}
    (h : reject s code = .next (t, r)) : t = s := (reject_eq_next.mp h).1

/-- A request that answers a failure code has changed nothing, made by the foreground or by a callback
body. -/
theorem callbackRequest_unchanged_of_failure {a : CallbackAction} {s t : State} {r : Response}
    (h : callbackRequest a s = .next (t, r)) (hr : r.code ≠ .ok) : t = s := by
  cases a with
  | stbCmd | stbChr | stbElow | lcdInit | store =>
    cases h
    exact absurd rfl hr
  | write text length =>
    simp only [callbackRequest, requestWrite] at h
    split at h
    · exact reject_unchanged h
    · exact claim_unchanged_of_failure h hr
  | goto row col =>
    simp only [callbackRequest, requestGoto] at h
    split at h
    · exact claim_unchanged_of_failure h hr
    · exact reject_unchanged h
  | clear | command => exact claim_unchanged_of_failure h hr
  | init =>
    rcases requestInit_eq_next h with hrej | ⟨_, _, _, _, _, _, rfl⟩
    · exact hrej.unchanged
    · exact absurd rfl hr
  | send =>
    rcases requestSend_eq_next h with hrej | ⟨_, _, _, _, _, _, _, _, rfl⟩
    · exact hrej.unchanged
    · exact absurd rfl hr
  | recv =>
    rcases requestRecv_eq_next h with hrej | ⟨_, _, _, _, _, rfl⟩
    · exact hrej.unchanged
    · exact absurd rfl hr
  | regcb =>
    rcases requestRegcb_eq_next h with hrej | ⟨_, _, _, _, rfl⟩
    · exact hrej.unchanged
    · exact absurd rfl hr
  | sendb | recvb =>
    simp only [callbackRequest] at h
    rcases callbackBlocking_eq_next h with hrej | ⟨_, _, _, _, _, _, hfinish⟩
    · exact hrej.unchanged
    · cases hfinish
      exact absurd rfl hr

/-- An operation whose response is a failure code has done nothing but answer it. -/
theorem ExecStep.unchanged_of_failure {i : Instr} {s t : State} {code : ResultCode}
    (h : ExecStep s i t) (hresp : t.responses = s.responses ++ [codeOnly code])
    (hcode : code ≠ .ok) : t = (s.respond (codeOnly code)).advance i.wordCount := by
  cases h with
  | nop | sendbIssued | recvbIssued | txdone | rxbyte => simp at hresp
  | sendbRejected | recvbRejected =>
    have hanswer : codeOnly .invalidChannel = codeOnly code := by simpa using hresp
    rw [hanswer]
    rfl
  | request _ hreq =>
    obtain ⟨-, hkept, -⟩ := request_frame hreq
    have hanswer := by simpa [hkept] using hresp
    rw [hanswer] at hreq ⊢
    rw [callbackRequest_unchanged_of_failure hreq hcode]
  | tick htick =>
    obtain ⟨-, -, -, -, -, hkept, -⟩ := tick_frame htick
    simp [hkept] at hresp
  | irq hrun =>
    obtain ⟨-, -, hkept, -⟩ := hrun.frame
    simp [hkept] at hresp

/-- Settles O42. -/
theorem failedRequestsChangeNothing : Obligations.FailedRequestsChangeNothing :=
  fun _ _ _ _ h hresp hcode => (exec_eq_next h).unchanged_of_failure hresp hcode

/-! ### The channel an operation is for -/

/-- The channel an operation may change: the one its selector names, or the one its event is on. The
issue of US.RECVB changes none. -/
def changesChannel (cfg : Cfg) : Instr → Option Channel
  | .usInit sel _ _ _ | .usSend sel _ _ | .usRecv sel _ _ _ | .usSendb sel _
  | .usRegcb sel _ _ => resolve cfg sel
  | .usIrq c | .hwTxdone c | .hwRxbyte c _ => some c
  | .nop | .stbCmd _ | .stbChr _ | .stbElow | .lcdInit | .lcdWrite _ _ | .lcdGoto _ _ | .lcdClear
  | .lcdCmd _ | .usRecvb _ | .lcdTick => none

/-- A change of one channel leaves every channel but that one alone. -/
theorem modUart_uart_of_ne {s : State} {c d : Channel} {o : Option Channel} (f : Uart → Uart)
    (hc : o = some c) (hd : o ≠ some d) : (s.modUart c f).uart d = s.uart d :=
  State.modUart_uart_ne s c d f fun e => hd (e ▸ hc)

/-- A serial request that answers at once leaves every channel but its selector's alone. -/
theorem serialRequest_uart {i : Instr} {a : CallbackAction} {s t : State} {r : Response}
    {d : Channel} (hi : requestOf i = some a) (h : callbackRequest a s = .next (t, r))
    (hside : i.opcode ∈ serialOpcodes) (hd : changesChannel s.cfg i ≠ some d) :
    t.uart d = s.uart d := by
  cases i with
  | nop | usSendb | usRecvb | lcdTick | usIrq | hwTxdone | hwRxbyte => cases hi
  | stbCmd | stbChr | stbElow | lcdInit | lcdWrite | lcdGoto | lcdClear | lcdCmd =>
    simp [Instr.opcode, serialOpcodes] at hside
  | usInit =>
    cases hi
    rcases requestInit_eq_next h with ⟨rfl, -⟩ | ⟨c, hc, -, -, -, rfl, -⟩
    · rfl
    · exact modUart_uart_of_ne _ hc hd
  | usSend =>
    cases hi
    rcases requestSend_eq_next h with ⟨rfl, -⟩ | ⟨c, b, hc, -, -, -, -, rfl, -⟩
    · rfl
    · exact modUart_uart_of_ne _ hc hd
  | usRecv =>
    cases hi
    rcases requestRecv_eq_next h with ⟨rfl, -⟩ | ⟨c, hc, -, -, rfl, -⟩
    · rfl
    · exact modUart_uart_of_ne _ hc hd
  | usRegcb =>
    cases hi
    rcases requestRegcb_eq_next h with ⟨rfl, -⟩ | ⟨c, hc, -, rfl, -⟩
    · rfl
    · exact modUart_uart_of_ne _ hc hd

/-- The issue of US.SENDB leaves every channel but its selector's alone. -/
theorem exec_usSendb_uart {sel byte : Byte} {s t : State} {d : Channel}
    (h : exec (.usSendb sel byte) s = .next t) (hd : resolve s.cfg sel ≠ some d) :
    t.uart d = s.uart d := by
  rw [exec_usSendb] at h
  rcases issueBlocking_eq_next h with ⟨-, rfl⟩ | ⟨c, u, hc, -, hu, rfl⟩
  · rfl
  · obtain ⟨v, hv, hu⟩ := andThen_eq_next.mp hu
    obtain ⟨-, rfl⟩ := drWrite_eq_next.mp hv
    cases hu
    exact modUart_uart_of_ne _ hc hd

/-- With log-only callbacks an operation leaves every channel but its own alone
(42_serial_submission.md R178, 43_serial_interrupt_handler.md R200). -/
theorem exec_uart_of_ne {i : Instr} {s t : State} {d : Channel} (h : exec i s = .next t)
    (hlog : s.cfg.cbBody = []) (hd : changesChannel s.cfg i ≠ some d) : t.uart d = s.uart d := by
  rcases display_or_serial i.opcode with hside | hside
  · obtain ⟨huarts, -⟩ := (exec_eq_next h).keepsSerialSide hside
    exact congrArg (·.get d) huarts
  · cases exec_eq_next h with
    | nop | sendbRejected | recvbRejected | recvbIssued => rfl
    | sendbIssued => exact exec_usSendb_uart h hd
    | request hi hreq =>
      have hkept := serialRequest_uart hi hreq hside hd
      exact hkept
    | tick => simp [Instr.opcode, serialOpcodes] at hside
    | irq hrun =>
      obtain ⟨-, -, hother⟩ := hrun.local_of_logOnly hlog
      exact hother d fun e => hd (e ▸ rfl)
    | txdone | rxbyte => exact modUart_uart_of_ne _ rfl hd

/-- Settles O52: what changed the channel `d` is one of the operations that are for it. -/
theorem channelsAreIndependent : Obligations.ChannelsAreIndependent := by
  intro i s t h hlog d hchanged
  have hfor : changesChannel s.cfg i = some d := by
    by_contra hne
    exact hchanged (exec_uart_of_ne h hlog hne)
  cases i with
  | nop | stbCmd | stbChr | stbElow | lcdInit | lcdWrite | lcdGoto | lcdClear | lcdCmd | usRecvb
  | lcdTick => cases hfor
  | usIrq =>
    cases hfor
    exact .inl rfl
  | hwTxdone =>
    cases hfor
    exact .inr (.inl rfl)
  | hwRxbyte _ b =>
    cases hfor
    exact .inr (.inr (.inl ⟨b, rfl⟩))
  | usInit sel flags clock baud =>
    exact .inr (.inr (.inr ⟨sel, hfor, .inl ⟨flags, clock, baud, rfl⟩⟩))
  | usSend sel data length =>
    exact .inr (.inr (.inr ⟨sel, hfor, .inr (.inl ⟨data, length, rfl⟩)⟩))
  | usRecv sel dest start length =>
    exact .inr (.inr (.inr ⟨sel, hfor, .inr (.inr (.inl ⟨dest, start, length, rfl⟩))⟩))
  | usSendb sel byte =>
    exact .inr (.inr (.inr ⟨sel, hfor, .inr (.inr (.inr (.inl ⟨byte, rfl⟩)))⟩))
  | usRegcb sel dir handler =>
    exact .inr (.inr (.inr ⟨sel, hfor, .inr (.inr (.inr (.inr ⟨dir, handler, rfl⟩)))⟩))

end Sys2Proof.Machine
end

section
/-!
SUPPORT. Unit UBT's events and its interrupt handler: the words, each half of the handler as a whole next
state or a named stop, and one US.IRQ as the two halves in order (43_serial_interrupt_handler.md R201 to
R215). Settles O4, O26 to O36 and O51.
-/

namespace Sys2Proof

/-! ### Words -/

theorem decode_nop (rest : List Word) : decode ((0 : Word) :: rest) = .instr .nop :=
  decode_eq_instr.mpr ⟨rfl, rest, rfl⟩

theorem decode_usIrq (c : Channel) (rest : List Word) :
    decode (word0 0x90 c.index 0 :: rest) = .instr (.usIrq c) :=
  decode_eq_instr.mpr ⟨rfl, rest, rfl⟩

theorem decode_hwTxdone (c : Channel) (rest : List Word) :
    decode (word0 0xA0 c.index 0 :: rest) = .instr (.hwTxdone c) :=
  decode_eq_instr.mpr ⟨rfl, rest, rfl⟩

theorem decode_hwRxbyte (c : Channel) (byte : Byte) (rest : List Word) :
    decode ((((0xA1 : BitVec 8) ++ c.index ++ (0 : BitVec 8)) ++ byte) :: rest) =
      .instr (.hwRxbyte c byte) :=
  decode_eq_instr.mpr ⟨rfl, rest, congrArg (· :: rest) (word0_byteB 0xA1 c.index byte).symm⟩

namespace Machine

/-! ### HW.NOP and the hardware events -/

theorem exec_nop (s : State) : exec .nop s = .next (s.advance 1) := rfl

/-- Settles O4. -/
theorem nopOnlyAdvances : Obligations.NopOnlyAdvances := ⟨decode_nop, exec_nop⟩

section Events

variable {c : Channel} {s : State}

theorem exec_hwTxdone_of_inflight (h : (s.uart c).txInflight = true) :
    exec (.hwTxdone c) s = .next ((s.modUart c byteSent).advance 1) := if_pos h

theorem exec_hwTxdone_of_idle (h : (s.uart c).txInflight = false) :
    exec (.hwTxdone c) s = .refused .noByteInFlight := if_neg (Bool.eq_false_iff.mp h)

theorem exec_hwRxbyte_of_clear (byte : Byte) (h : (s.uart c).sr.rxne = false) :
    exec (.hwRxbyte c byte) s = .next ((s.modUart c (byteReceived byte)).advance 1) :=
  if_neg (Bool.eq_false_iff.mp h)

theorem exec_hwRxbyte_of_unread (byte : Byte) (h : (s.uart c).sr.rxne = true) :
    exec (.hwRxbyte c byte) s = .refused .rxOverrun := if_pos h

end Events

/-- Settles O26. -/
theorem txdoneReportsByteSent : Obligations.TxdoneReportsByteSent :=
  ⟨fun rest => ⟨decode_hwTxdone .c0 rest, decode_hwTxdone .c1 rest, decode_hwTxdone .c2 rest⟩,
    fun _ _ => ⟨exec_hwTxdone_of_inflight, exec_hwTxdone_of_idle⟩⟩

/-- Settles O27. -/
theorem rxbyteLoadsByte : Obligations.RxbyteLoadsByte := fun byte =>
  ⟨fun rest => ⟨decode_hwRxbyte .c0 byte rest, decode_hwRxbyte .c1 byte rest,
      decode_hwRxbyte .c2 byte rest⟩,
    fun _ _ => ⟨exec_hwRxbyte_of_clear byte, exec_hwRxbyte_of_unread byte⟩⟩

/-! ### The state the handler leaves -/

/-- The state with channel `c` as `u`, memory as `m`, and `log` added to CB_LOG: all that US.IRQ with
log-only callbacks writes besides `pc` (43_serial_interrupt_handler.md R201 to R211). -/
def State.served (s : State) (c : Channel) (u : Uart) (m : Memory) (log : List CbEntry) : State :=
  { s with uarts := s.uarts.set c u, mem := m, cbLog := s.cbLog ++ log }

section Served

variable (s : State) (c : Channel) (u v : Uart) (m m' : Memory) (l l' : List CbEntry)

@[simp] theorem State.served_cfg : (s.served c u m l).cfg = s.cfg := rfl
@[simp] theorem State.served_mem : (s.served c u m l).mem = m := rfl
@[simp] theorem State.served_pc : (s.served c u m l).pc = s.pc := rfl

@[simp] theorem State.served_uart : (s.served c u m l).uart c = u := PerChannel.get_set_same _ _ _

theorem State.modUart_eq_served (f : Uart → Uart) :
    s.modUart c f = s.served c (f (s.uart c)) s.mem [] := by
  rw [State.served, List.append_nil]
  rfl

@[simp] theorem State.served_served :
    (s.served c u m l).served c v m' l' = s.served c v m' (l ++ l') := by
  simp [State.served]

@[simp] theorem State.modUart_served (f : Uart → Uart) :
    (s.modUart c f).served c u m l = s.served c u m l := by
  simp [State.served]

@[simp] theorem State.setMem_served : (s.setMem m).served c u m' l = s.served c u m' l := rfl

@[simp] theorem State.advance_served (n : Nat) :
    (s.advance n).served c u m l = (s.served c u m l).advance n := rfl

@[simp] theorem State.served_modUart (f : Uart → Uart) :
    (s.served c u m l).modUart c f = s.served c (f u) m l := by
  simp [State.modUart, State.served]

end Served

theorem State.logCallback_modUart (s : State) (x : CbEntry) (c : Channel) (f : Uart → Uart) :
    (s.logCallback x).modUart c f = (s.modUart c f).logCallback x := rfl

@[simp] theorem State.advance_advance (s : State) (m n : Nat) :
    (s.advance m).advance n = s.advance (m + n) :=
  congrArg (fun pc => { s with pc := pc }) (Nat.add_assoc s.pc m n)

/-! ### Callbacks with log-only bodies -/

/-- The callback `h` is absent, or its body does nothing (43_serial_interrupt_handler.md R206). -/
def LogOnly (cfg : Cfg) (h : Nat) : Prop := h ≠ cfg.nullRef → bodyOf cfg h = .listed []

/-- What the callback `h` of a released direction adds to CB_LOG: nothing where it is absent, else its
entry, the busy flag and the length being cleared before the call (R204, R208). -/
def callbackEntries (cfg : Cfg) (c : Channel) (d : Direction) (h : Nat) : List CbEntry :=
  if h = cfg.nullRef then [] else [⟨c, d, h, false, 0⟩]

theorem append_callbackEntries (log : List CbEntry) (cfg : Cfg) (c : Channel) (d : Direction)
    (h : Nat) :
    log ++ callbackEntries cfg c d h =
      if h = cfg.nullRef then log else log ++ [⟨c, d, h, false, 0⟩] := by
  rw [callbackEntries, apply_ite (log ++ ·), List.append_nil]

theorem ite_callbackEntries (last : Bool) (cfg : Cfg) (c : Channel) (d : Direction) (h : Nat) :
    (if last then callbackEntries cfg c d h else []) =
      if last = true ∧ h ≠ cfg.nullRef then [⟨c, d, h, false, 0⟩] else [] := by
  cases last with
  | false => simp
  | true => by_cases hnull : h = cfg.nullRef <;> simp [callbackEntries, hnull]

theorem invoke_of_released {c : Channel} {d : Direction} {s : State}
    (hbusy : busyOf (s.uart c) d = false) (hlen : lenOf (s.uart c) d = 0)
    (hlog : LogOnly s.cfg (callbackOf (s.uart c) d)) :
    invoke c d s = .next (s.served c (s.uart c) s.mem
      (callbackEntries s.cfg c d (callbackOf (s.uart c) d))) := by
  rw [invoke_of_logOnly hlog, invocation, hbusy, hlen, State.served, append_callbackEntries,
    State.uart, PerChannel.set_get_same]
  split
  · rfl
  · rfl

/-- A callback whose body submits a transmit on a channel that is free and has no byte in flight: the
request is accepted as from the foreground, its code going to the body (R206). -/
theorem invoke_of_body_send {c : Channel} {d : Direction} {s : State} {e : Channel} {sel : Byte}
    {data length : Nat} {b : Byte} (hcb : callbackOf (s.uart c) d ≠ s.cfg.nullRef)
    (hbody : bodyOf s.cfg (callbackOf (s.uart c) d) = .listed [.send sel data length])
    (hsel : resolve s.cfg sel = some e) (hnull : fitRef s.cfg data ≠ s.cfg.nullRef)
    (hfree : (s.uart e).ch.txBusy = false) (hinflight : (s.uart e).txInflight = false)
    (hlen : fitIndex s.cfg length ≠ 0) (hread : memRead s.mem (fitRef s.cfg data) = some b) :
    invoke c d s = .next ((s.logCallback (invocation c d (s.uart c))).modUart e fun u =>
      startTx (fitRef s.cfg data) (fitIndex s.cfg length) (sentByte b u)) := by
  have hsend := requestSend_of_readable (s := s.logCallback (invocation c d (s.uart c))) hsel hnull
    hfree hlen hread
  rw [(drWrite_eq_next (s := s.logCallback _)).mpr ⟨hinflight, rfl⟩, andThen_next,
    State.modUart_modUart] at hsend
  rw [invoke, if_neg hcb, callBody, State.logCallback_cfg, hbody, actionsOf, runBody,
    callbackRequest, hsend, andThen_next, runBody]
  rfl

/-! ### The transmit half -/

/-- A channel whose transmit is completed: the bank released, `TC` cleared, the enable cleared with
DISARM_ON_COMPLETE (43_serial_interrupt_handler.md R204, R211). -/
def txReleased (cfg : Cfg) (u : Uart) : Uart :=
  { u with
    ch := { u.ch with txBusy := false, txLen := 0 }
    sr := { u.sr with tc := false }
    cr := { u.cr with tcie := if cfg.disarmOnComplete then false else u.cr.tcie } }

theorem disarmTx_eq_ite (d : Bool) (u : Uart) :
    disarmTx d u = { u with cr := { u.cr with tcie := if d then false else u.cr.tcie } } := by
  cases d <;> simp [disarmTx]

theorem disarmTx_clearTc_finishTx (cfg : Cfg) (u : Uart) :
    disarmTx cfg.disarmOnComplete (clearTc (finishTx u)) = txReleased cfg u :=
  disarmTx_eq_ite _ _

/-- A transmit that the callback submits in the middle of a completion: the flag and, with
DISARM_ON_COMPLETE, the enable are cleared after it (R204, R206). -/
theorem disarmTx_clearTc_startTx {cfg : Cfg} {data length : Nat} {b : Byte} {u : Uart}
    (harmed : u.cr.tcie = true) :
    disarmTx cfg.disarmOnComplete (clearTc (startTx data length (sentByte b (finishTx u)))) =
      { u with
        ch := { u.ch with txBusy := true, txIndex := 1, txLen := length, txBuffer := data }
        sr := { u.sr with tc := false }
        cr := { u.cr with tcie := if cfg.disarmOnComplete then false else true }
        txInflight := true
        txLog := u.txLog ++ [b] } := by
  rw [disarmTx_eq_ite]
  simp [startTx, harmed, armTx, clearTc, finishTx, sentByte]

section TransmitHalf

variable {c : Channel} {s : State}

theorem txHalf_of_clear (htc : (s.uart c).sr.tc = false) : txHalf c s = .next s :=
  txHalf_eq_next.mpr (.inl ⟨htc, rfl⟩)

theorem txHalf_of_finished (htc : (s.uart c).sr.tc = true)
    (hidx : (s.uart c).ch.txIndex = (s.uart c).ch.txLen) : txHalf c s = tcComplete c s := by
  rw [txHalf, if_pos htc, tcBranch, if_pos hidx]

theorem txHalf_of_unfinished (htc : (s.uart c).sr.tc = true)
    (hidx : (s.uart c).ch.txIndex ≠ (s.uart c).ch.txLen) : txHalf c s = tcNext c s := by
  rw [txHalf, if_pos htc, tcBranch, if_neg hidx]

/-- No busy guard: the branch completes whether or not a transmit was in progress. -/
theorem tcComplete_of_logOnly (hlog : LogOnly s.cfg (s.uart c).cbTx) :
    tcComplete c s = .next (s.served c (txReleased s.cfg (s.uart c)) s.mem
      (callbackEntries s.cfg c .tx (s.uart c).cbTx)) := by
  have hcall := invoke_of_released (c := c) (d := .tx) (s := s.modUart c finishTx)
    (by simp [busyOf]) (by simp [lenOf]) (by simpa [callbackOf] using hlog)
  refine tcComplete_eq_next.mpr ⟨_, hcall, ?_⟩
  simp [callbackOf, disarmTx_clearTc_finishTx]

theorem tcNext_of_idle (hbusy : (s.uart c).ch.txBusy = false) :
    tcNext c s = .fault .bufferBounds := if_neg (Bool.eq_false_iff.mp hbusy)

theorem tcNext_of_busy (hbusy : (s.uart c).ch.txBusy = true) :
    tcNext c s =
      andThen (orBounds (bufRead s.cfg s.mem (s.uart c).ch.txBuffer (s.uart c).ch.txIndex
        (s.uart c).ch.txLen)) fun b =>
          andThen (drWrite c b s) fun t => .next (t.modUart c fun u => clearTc (nextTx s.cfg u)) :=
  if_pos hbusy

/-- Outside the window the branch stops, whether or not a transmit is busy (R205). -/
theorem tcNext_of_unreadable
    (hread : bufRead s.cfg s.mem (s.uart c).ch.txBuffer (s.uart c).ch.txIndex
      (s.uart c).ch.txLen = none) : tcNext c s = .fault .bufferBounds := by
  cases hbusy : (s.uart c).ch.txBusy with
  | false => exact tcNext_of_idle hbusy
  | true => rw [tcNext_of_busy hbusy, hread, orBounds_none, andThen_fault]

/-- A channel `u` in the middle of a transmit, with `b` the next byte of the caller's buffer
(43_serial_interrupt_handler.md R205). -/
structure Transmits (cfg : Cfg) (m : Memory) (u : Uart) (b : Byte) : Prop where
  busy : u.ch.txBusy = true
  inWindow : u.ch.txIndex < u.ch.txLen
  present : u.ch.txBuffer ≠ cfg.nullRef
  inMemory : u.ch.txBuffer + u.ch.txIndex < cfg.memEnd
  readable : memRead m (u.ch.txBuffer + u.ch.txIndex) = some b

theorem Transmits.bufRead_eq {cfg : Cfg} {m : Memory} {u : Uart} {b : Byte}
    (h : Transmits cfg m u b) :
    bufRead cfg m u.ch.txBuffer u.ch.txIndex u.ch.txLen = some b :=
  bufRead_eq_some.mpr ⟨h.inWindow, h.present, h.inMemory, h.readable⟩

theorem Transmits.txHalf_of_inflight {b : Byte} (h : Transmits s.cfg s.mem (s.uart c) b)
    (htc : (s.uart c).sr.tc = true) (hinflight : (s.uart c).txInflight = true) :
    txHalf c s = .refused .txOverwrite := by
  rw [txHalf_of_unfinished htc h.inWindow.ne, tcNext_of_busy h.busy, h.bufRead_eq, orBounds_some,
    andThen_next, drWrite_eq_refused.mpr ⟨hinflight, rfl⟩, andThen_refused]

theorem Transmits.txHalf_of_idle {b : Byte} (h : Transmits s.cfg s.mem (s.uart c) b)
    (htc : (s.uart c).sr.tc = true) (hinflight : (s.uart c).txInflight = false) :
    txHalf c s = .next (s.modUart c fun u => clearTc (nextTx s.cfg (sentByte b u))) := by
  rw [txHalf_of_unfinished htc h.inWindow.ne]
  exact tcNext_eq_next.mpr ⟨h.busy, hinflight, b, h.bufRead_eq, rfl⟩

end TransmitHalf

/-! ### The receive half -/

/-- A channel with a byte received and a receive in progress that has room for it
(43_serial_interrupt_handler.md R207). -/
structure Receives (cfg : Cfg) (u : Uart) : Prop where
  pending : u.sr.rxne = true
  busy : u.ch.rxBusy = true
  inWindow : u.ch.rxIndex < u.ch.rxLen
  present : u.ch.rxBuffer ≠ cfg.nullRef
  inMemory : u.ch.rxBuffer + u.ch.rxIndex < cfg.memEnd

/-- The channel after its pending byte is stored and the index advanced to `next`, `last` saying that
the byte completes the receive (43_serial_interrupt_handler.md R207, R208, R211). -/
def received (cfg : Cfg) (next : Nat) (last : Bool) (u : Uart) : Uart :=
  { u with
    ch :=
      { u.ch with
        rxBusy := !last
        rxIndex := next
        rxLen := if last then 0 else u.ch.rxLen }
    sr := { u.sr with rxne := !last && !cfg.drReadClearsRxne }
    cr :=
      { u.cr with rxneie := if last && cfg.disarmOnComplete then false else u.cr.rxneie } }

@[simp] theorem received_cbRx (cfg : Cfg) (next : Nat) (last : Bool) (u : Uart) :
    (received cfg next last u).cbRx = u.cbRx := rfl

/-- A byte that is not the last only moves the index. -/
theorem received_false {cfg : Cfg} {next : Nat} {u : Uart} (hbusy : u.ch.rxBusy = true) :
    received cfg next false u =
      { u with
        ch := { u.ch with rxIndex := next }
        sr := { u.sr with rxne := !cfg.drReadClearsRxne } } := by
  simp [received, hbusy]

/-- The last byte releases an armed channel. -/
theorem received_true {cfg : Cfg} {next : Nat} {u : Uart} (harmed : u.cr.rxneie = true) :
    received cfg next true u =
      { u with
        ch := { u.ch with rxIndex := next, rxBusy := false, rxLen := 0 }
        sr := { u.sr with rxne := false }
        cr := { u.cr with rxneie := if cfg.disarmOnComplete then false else true } } := by
  simp [received, harmed]

theorem Receives.nextRx_afterDrRead {cfg : Cfg} {u : Uart} (h : Receives cfg u) :
    nextRx cfg (afterDrRead cfg.drReadClearsRxne u) =
      received cfg (incIndex cfg u.ch.rxIndex) false u := by
  simp [nextRx, afterDrRead, received, h.pending, h.busy]

theorem disarmRx_finishRx_clearRxne (cfg : Cfg) (u : Uart) :
    disarmRx cfg.disarmOnComplete
        (finishRx (clearRxne (nextRx cfg (afterDrRead cfg.drReadClearsRxne u)))) =
      received cfg (incIndex cfg u.ch.rxIndex) true u := by
  cases hd : cfg.disarmOnComplete <;>
    simp [disarmRx, finishRx, clearRxne, nextRx, afterDrRead, received, hd]

theorem bufWrite_eq_none {cfg : Cfg} {m : Memory} {r k len : Nat} {v : Byte}
    (h : len ≤ k ∨ r = cfg.nullRef ∨ cfg.memEnd ≤ r + k) : bufWrite cfg m r k len v = none := by
  refine Option.eq_none_iff_forall_ne_some.mpr fun m' hm => ?_
  obtain ⟨hk, hr, hend, -⟩ := bufWrite_eq_some.mp hm
  obtain h | h | h := h
  · omega
  · exact hr h
  · omega

section ReceiveHalf

variable {c : Channel} {s : State}

theorem rxHalf_of_idle (h : (s.uart c).sr.rxne = false ∨ (s.uart c).ch.rxBusy = false) :
    rxHalf c s = .next s :=
  rxHalf_eq_next.mpr (.inl ⟨fun ⟨hrxne, hbusy⟩ => by simp [hrxne, hbusy] at h, rfl⟩)

theorem rxHalf_of_outside (hrxne : (s.uart c).sr.rxne = true) (hbusy : (s.uart c).ch.rxBusy = true)
    (h : (s.uart c).ch.rxLen ≤ (s.uart c).ch.rxIndex ∨
      (s.uart c).ch.rxBuffer = s.cfg.nullRef ∨
      s.cfg.memEnd ≤ (s.uart c).ch.rxBuffer + (s.uart c).ch.rxIndex) :
    rxHalf c s = .fault .bufferBounds := by
  rw [rxHalf, hrxne, hbusy, Bool.and_self, if_pos rfl, rxBranch, storeReceived, bufWrite_eq_none h,
    orBounds_none, andThen_fault, andThen_fault]

/-- The receive half stores the pending byte; the completion test is on the advanced index. -/
theorem Receives.rxHalf_eq (h : Receives s.cfg (s.uart c)) {next : Nat} {last : Bool}
    (hnext : incIndex s.cfg (s.uart c).ch.rxIndex = next)
    (hlast : last = decide (next = (s.uart c).ch.rxLen))
    (hlog : last = true → LogOnly s.cfg (s.uart c).cbRx) :
    rxHalf c s = .next (s.served c (received s.cfg next last (s.uart c))
      (memWrite s.mem ((s.uart c).ch.rxBuffer + (s.uart c).ch.rxIndex) (s.uart c).rdr)
      (if last then callbackEntries s.cfg c .rx (s.uart c).cbRx else [])) := by
  subst hnext
  have hstore := storeReceived_eq_next.mpr
    ⟨_, bufWrite_eq_some.mpr ⟨h.inWindow, h.present, h.inMemory, rfl⟩, rfl⟩
  refine rxHalf_eq_next.mpr (.inr ⟨h.pending, h.busy, rxBranch_eq_next.mpr ⟨_, hstore, ?_⟩⟩)
  rw [State.modUart_eq_served]
  cases last with
  | false =>
    have hidx := of_decide_eq_false hlast.symm
    refine .inr ⟨by simpa using hidx, ?_⟩
    simp [h.nextRx_afterDrRead]
  | true =>
    have hidx := of_decide_eq_true hlast.symm
    refine .inl ⟨by simpa using hidx, ?_⟩
    rw [rxComplete, invoke_of_released (by simp [busyOf]) (by simp [lenOf])
      (by simpa [callbackOf] using hlog rfl)]
    simp [callbackOf, disarmRx_finishRx_clearRxne]

end ReceiveHalf

/-! ### One US.IRQ -/

theorem irqPending_eq_true {routed : Bool} {u : Uart} :
    irqPending routed u = true ↔
      routed = true ∧ ((u.cr.tcie = true ∧ u.sr.tc = true) ∨
        (u.cr.rxneie = true ∧ u.sr.rxne = true)) := by
  simp only [irqPending, Bool.and_eq_true, Bool.or_eq_true]

theorem irqPending_eq_false {routed : Bool} {u : Uart} :
    irqPending routed u = false ↔
      routed = false ∨ ((u.sr.tc = false ∨ u.cr.tcie = false) ∧
        (u.sr.rxne = false ∨ u.cr.rxneie = false)) := by
  simp only [irqPending, Bool.and_eq_false_iff, Bool.or_eq_false_iff, or_comm (b := u.sr.tc = false),
    or_comm (b := u.sr.rxne = false)]

section Irq

variable {c : Channel} {s u v : State}

theorem exec_usIrq_of_not_pending (h : irqPending (s.cfg.nvicEn.get c) (s.uart c) = false) :
    exec (.usIrq c) s = .refused .irqNotPending := by
  simp [exec, execUsIrq, takeInterrupt, h]

theorem exec_usIrq_of_pending (hp : irqPending (s.cfg.nvicEn.get c) (s.uart c) = true) :
    exec (.usIrq c) s =
      andThen (andThen (txHalf c s) (rxHalf c)) fun t => .next (t.advance 1) := by
  simp only [exec, execUsIrq, takeInterrupt, hp, if_true, handler]

/-- The two halves in order; the second is tested on the state the first leaves (R201, R202). -/
theorem exec_usIrq_of_halves (hp : irqPending (s.cfg.nvicEn.get c) (s.uart c) = true)
    (htx : txHalf c s = .next u) (hrx : rxHalf c u = .next v) :
    exec (.usIrq c) s = .next (v.advance 1) :=
  execUsIrq_eq_next.mpr ⟨hp, u, v, htx, hrx, rfl⟩

/-- Both directions served in one run: the receive half finds the receive bank of the channel `u` that
the transmit half leaves (R201, R202). -/
theorem exec_usIrq_of_receives {w : Uart} {log : List CbEntry} {next : Nat} {last : Bool}
    (hp : irqPending (s.cfg.nvicEn.get c) (s.uart c) = true)
    (htx : txHalf c s = .next (s.served c w s.mem log)) (h : Receives s.cfg w)
    (hnext : incIndex s.cfg w.ch.rxIndex = next) (hlast : last = decide (next = w.ch.rxLen))
    (hlog : last = true → LogOnly s.cfg w.cbRx) :
    exec (.usIrq c) s = .next ((s.served c (received s.cfg next last w)
      (memWrite s.mem (w.ch.rxBuffer + w.ch.rxIndex) w.rdr)
      (log ++ if last then callbackEntries s.cfg c .rx w.cbRx else [])).advance 1) := by
  have hrx := Receives.rxHalf_eq (c := c) (s := s.served c w s.mem log) (next := next)
    (last := last)
  rw [State.served_uart, State.served_cfg, State.served_mem, State.served_served] at hrx
  exact exec_usIrq_of_halves hp htx (hrx h hnext hlast hlog)

/-- The receive direction alone. -/
theorem exec_usIrq_of_receives_only {next : Nat} {last : Bool}
    (hp : irqPending (s.cfg.nvicEn.get c) (s.uart c) = true) (htc : (s.uart c).sr.tc = false)
    (h : Receives s.cfg (s.uart c)) (hnext : incIndex s.cfg (s.uart c).ch.rxIndex = next)
    (hlast : last = decide (next = (s.uart c).ch.rxLen))
    (hlog : last = true → LogOnly s.cfg (s.uart c).cbRx) :
    exec (.usIrq c) s = .next ((s.served c (received s.cfg next last (s.uart c))
      (memWrite s.mem ((s.uart c).ch.rxBuffer + (s.uart c).ch.rxIndex) (s.uart c).rdr)
      (if last then callbackEntries s.cfg c .rx (s.uart c).cbRx else [])).advance 1) :=
  exec_usIrq_of_halves hp (txHalf_of_clear htc) (h.rxHalf_eq hnext hlast hlog)

end Irq

/-- Settles O28. -/
theorem irqRefusedUnlessPending : Obligations.IrqRefusedUnlessPending :=
  ⟨fun rest => ⟨decode_usIrq .c0 rest, decode_usIrq .c1 rest, decode_usIrq .c2 rest⟩,
    fun _ _ h => exec_usIrq_of_not_pending (irqPending_eq_false.mpr h)⟩

/-- A transmit-complete bit makes the interrupt pending through its own enable or beside an enabled
receive. -/
theorem irqPending_of_tc {routed : Bool} {u : Uart} (hrouted : routed = true) (htc : u.sr.tc = true)
    (hsource : u.cr.tcie = true ∨ (u.sr.rxne = true ∧ u.cr.rxneie = true)) :
    irqPending routed u = true :=
  irqPending_eq_true.mpr ⟨hrouted, hsource.imp (⟨·, htc⟩) And.symm⟩

/-- Settles O29: the transmit half decides, the receive half having nothing to do. -/
theorem irqSendsNextByte : Obligations.IrqSendsNextByte := by
  intro c s hrouted htc hsource hidle hidx
  have hp := irqPending_of_tc hrouted htc hsource
  have hstop (hread : tcNext c s = .fault .bufferBounds) :
      exec (.usIrq c) s = .fault .bufferBounds := by
    rw [exec_usIrq_of_pending hp, txHalf_of_unfinished htc hidx, hread, andThen_fault,
      andThen_fault]
  refine ⟨?_, fun _ hread => ?_, fun hbusy hlt hnull hend b hread => ?_⟩
  · rintro (hfree | hpast)
    · exact hstop (tcNext_of_idle hfree)
    · exact hstop (tcNext_of_unreadable (bufRead_eq_none (.inl hpast.le)))
  · exact hstop (tcNext_of_unreadable (bufRead_eq_none (.inr hread)))
  · have htx : Transmits s.cfg s.mem (s.uart c) b := ⟨hbusy, hlt, hnull, hend, hread⟩
    refine ⟨fun hinflight => ?_, fun hinflight => ?_⟩
    · rw [exec_usIrq_of_pending hp, htx.txHalf_of_inflight htc hinflight, andThen_refused,
        andThen_refused]
    · exact exec_usIrq_of_halves hp (htx.txHalf_of_idle htc hinflight)
        (rxHalf_of_idle (by simpa [State.uarts_get] using hidle))

/-- Settles O30. -/
theorem irqCompletesTransmit : Obligations.IrqCompletesTransmit := by
  intro c s hrouted htc hsource hidle hidx hlog
  have htx := (txHalf_of_finished htc hidx).trans (tcComplete_of_logOnly hlog)
  rw [exec_usIrq_of_halves (irqPending_of_tc hrouted htc hsource) htx
    (rxHalf_of_idle (by simpa [txReleased, State.uarts_get] using hidle)), State.served,
    append_callbackEntries]
  rfl

/-- Settles O31: an index below a length never reaches it by wrapping. -/
theorem irqStoresReceivedByte : Obligations.IrqStoresReceivedByte := by
  intro c s hrouted htc hrxne hrxneie hbusy
  have hp : irqPending (s.cfg.nvicEn.get c) (s.uart c) = true :=
    irqPending_eq_true.mpr ⟨hrouted, .inr ⟨hrxneie, hrxne⟩⟩
  refine ⟨fun houtside => ?_, fun hlt hnull hend => ?_⟩
  · rw [exec_usIrq_of_pending hp, txHalf_of_clear htc, andThen_next,
      rxHalf_of_outside hrxne hbusy houtside, andThen_fault]
  · have hrx : Receives s.cfg (s.uart c) := ⟨hrxne, hbusy, Nat.lt_of_succ_lt hlt, hnull, hend⟩
    have hinc : incIndex s.cfg (s.uart c).ch.rxIndex < (s.uart c).ch.rxLen :=
      (Nat.mod_le _ _).trans_lt hlt
    refine ⟨_, fun a => memRead_memWrite s.mem _ a _, ?_⟩
    rw [exec_usIrq_of_receives_only hp htc hrx rfl (decide_eq_false hinc.ne).symm (by simp),
      State.served, if_neg Bool.false_ne_true, List.append_nil,
      received_false hrx.busy]
    rfl

/-- Settles O32. -/
theorem irqCompletesReceive : Obligations.IrqCompletesReceive := by
  intro c s hrouted htc hrxne hrxneie hbusy hidx hlen hnull hend hlog
  have hp : irqPending (s.cfg.nvicEn.get c) (s.uart c) = true :=
    irqPending_eq_true.mpr ⟨hrouted, .inr ⟨hrxneie, hrxne⟩⟩
  have hlt : (s.uart c).ch.rxIndex < (s.uart c).ch.rxLen := Nat.lt_of_succ_le hidx.le
  have hrx : Receives s.cfg (s.uart c) := ⟨hrxne, hbusy, hlt, hnull, hend⟩
  have hinc := (incIndex_of_lt hlt hlen).trans hidx
  refine ⟨_, fun a => memRead_memWrite s.mem _ a _, ?_⟩
  rw [exec_usIrq_of_receives_only hp htc hrx rfl (decide_eq_true hinc).symm fun _ => hlog,
    State.served, if_pos rfl, append_callbackEntries, received_true (u := s.uart c) hrxneie]
  rfl

/-- Settles O33: the transmit half leaves the receive bank, so the receive half meets it as it was. -/
theorem irqRunsBothBranchesTransmitFirst : Obligations.IrqRunsBothBranchesTransmitFirst := by
  intro c s last hrouted htc hrxne hsource hidx hbusy hle hlen hnull hend hlast hlogTx hlogRx
  have hp := irqPending_of_tc hrouted htc (hsource.imp_right fun h => ⟨hrxne, h⟩)
  have htx := (txHalf_of_finished htc hidx).trans (tcComplete_of_logOnly hlogTx)
  have hrx : Receives s.cfg (txReleased s.cfg (s.uart c)) := ⟨hrxne, hbusy, hle, hnull, hend⟩
  refine ⟨_, fun a => memRead_memWrite s.mem _ a _, ?_⟩
  rw [exec_usIrq_of_receives hp htx hrx (incIndex_of_lt hle hlen) hlast hlogRx, ite_callbackEntries,
    List.append_assoc]
  rfl

/-- Settles O34. -/
theorem irqServesBothDirectionsMidTransfer : Obligations.IrqServesBothDirectionsMidTransfer := by
  intro c s b last hrouted hsr hsource htxBusy hinflight hlt htxLen htxNull htxEnd hread hbusy hle
    hlen hnull hend hlast hlog
  have htc : (s.uart c).sr.tc = true := congrArg StatusReg.tc hsr
  have hrxne : (s.uart c).sr.rxne = true := congrArg StatusReg.rxne hsr
  have hp := irqPending_of_tc hrouted htc (hsource.imp_right fun h => ⟨hrxne, h⟩)
  have htx := Transmits.txHalf_of_idle ⟨htxBusy, hlt, htxNull, htxEnd, hread⟩ htc hinflight
  rw [State.modUart_eq_served] at htx
  have hrx : Receives s.cfg (clearTc (nextTx s.cfg (sentByte b (s.uart c)))) :=
    ⟨hrxne, hbusy, hle, hnull, hend⟩
  refine ⟨_, fun a => memRead_memWrite s.mem _ a _, ?_⟩
  rw [exec_usIrq_of_receives hp htx hrx (incIndex_of_lt hle hlen) hlast hlog, ite_callbackEntries,
    ← incIndex_of_lt hlt htxLen]
  rfl

/-- Settles O35. -/
theorem irqWithNoReceiveChangesNothing : Obligations.IrqWithNoReceiveChangesNothing := by
  intro n c s hrouted htc hrxne hrxneie hidle
  have hp : irqPending (s.cfg.nvicEn.get c) (s.uart c) = true :=
    irqPending_eq_true.mpr ⟨hrouted, .inr ⟨hrxneie, hrxne⟩⟩
  have hirq := exec_usIrq_of_halves hp (txHalf_of_clear htc) (rxHalf_of_idle (.inr hidle))
  induction n generalizing s with
  | zero => rfl
  | succ n ih =>
    have hrest := ih (s.advance 1) hrouted htc hrxne hrxneie hidle hp
      (exec_usIrq_of_halves hp (txHalf_of_clear htc) (rxHalf_of_idle (.inr hidle)))
    rw [execTimes_succ, hirq, andThen_next, hrest, State.advance_pc, Nat.add_assoc, Nat.add_comm 1]
    rfl

/-- Settles O36: the body's request meets the released bank, and the flag is cleared after it. -/
theorem transmitCallbackMaySubmitNext : Obligations.TransmitCallbackMaySubmitNext := by
  rintro c s sel data _ length _ b rfl rfl hrouted htc htcie hrxne hidx hinflight hcb hbody hsel hnull
    hlen hread
  have hcall := invoke_of_body_send (c := c) (d := .tx) (s := s.modUart c finishTx) (b := b)
    (by simpa [callbackOf, State.uarts_get] using hcb)
    (by simpa [callbackOf, State.uarts_get] using hbody) hsel hnull (by simp)
    (by simpa [State.uarts_get] using hinflight) hlen hread
  have htx := (txHalf_of_finished htc hidx).trans (tcComplete_eq_next.mpr ⟨_, hcall, rfl⟩)
  rw [exec_usIrq_of_halves (irqPending_of_tc hrouted htc (.inl htcie)) htx
    (rxHalf_of_idle (.inl (by simpa [State.uarts_get] using hrxne)))]
  simp only [State.logCallback_modUart, State.modUart_modUart, State.modUart_uart_same]
  rw [State.modUart, State.modUart_cfg, disarmTx_clearTc_startTx htcie]
  rfl

/-- Settles O51: on a disciplined channel `TC` is set only while a transmit is busy with nothing in
flight. -/
theorem disciplinedTransmitInterruptCompletes :
    Obligations.DisciplinedTransmitInterruptCompletes := by
  rintro c s ⟨hbusyTc, hidleTc⟩ ⟨hgood, -⟩ hrouted htc htcie hrxne hlog hread
  have hbusy : (s.uart c).ch.txBusy = true := by
    refine Bool.eq_true_of_not_eq_false fun hfree => ?_
    obtain ⟨hclear, -⟩ := hidleTc hfree
    exact absurd (htc.symm.trans hclear) (by decide)
  have hinflight : (s.uart c).txInflight = false := by
    have h := (hbusyTc hbusy).symm.trans htc
    simpa [State.uarts_get] using h
  obtain ⟨hnull, -, hle⟩ := hgood hbusy
  have hp := irqPending_of_tc hrouted htc (.inl htcie)
  by_cases hidx : (s.uart c).ch.txIndex = (s.uart c).ch.txLen
  · have htx := (txHalf_of_finished htc hidx).trans (tcComplete_of_logOnly hlog)
    refine ⟨_, exec_usIrq_of_halves hp htx (rxHalf_of_idle (.inl ?_)), ?_⟩
    · simpa [txReleased, State.uarts_get] using hrxne
    · simpa [txDisciplined, State.uarts_get, txReleased] using hinflight
  · obtain ⟨hend, b, hb⟩ := hread hidx
    have htx : Transmits s.cfg s.mem (s.uart c) b :=
      ⟨hbusy, lt_of_le_of_ne hle hidx, hnull, hend, hb⟩
    refine ⟨_, exec_usIrq_of_halves hp (htx.txHalf_of_idle htc hinflight)
      (rxHalf_of_idle (.inl ?_)), ?_⟩
    · simpa [State.uarts_get] using hrxne
    · simp [txDisciplined, hbusy]

end Machine

end Sys2Proof
end

section
/-!
SUPPORT. Runs of hardware events, each with its handler: a busy transmit and a busy receive from where
they stand to their end (43_serial_interrupt_handler.md R209). Settles O37 and O38.
-/

namespace Sys2Proof.Machine

theorem execAll_append (l l' : List Instr) (s : State) :
    execAll (l ++ l') s = andThen (execAll l s) (execAll l') := by
  induction l generalizing s with
  | nil => rfl
  | cons i rest ih =>
    rw [List.cons_append, execAll_cons, execAll_cons]
    cases exec i s with
    | next t => exact ih t
    | fault _ | refused _ => rfl

theorem execAll_pair {i j : Instr} {s t u : State} (hi : exec i s = .next t)
    (hj : exec j t = .next u) : execAll [i, j] s = .next u := by
  rw [execAll_cons, hi, andThen_next, execAll_cons, hj, andThen_next, execAll_nil]

/-! ### A busy transmit -/

/-- A channel `u` busy with a transmit that has a byte in flight and still owes the bytes `rest` of the
caller's buffer, its transmit interrupt armed and no byte received (43_serial_interrupt_handler.md
R209). -/
structure Sending (cfg : Cfg) (m : Memory) (u : Uart) (rest : List Byte) : Prop where
  busy : u.ch.txBusy = true
  present : u.ch.txBuffer ≠ cfg.nullRef
  fits : u.ch.txLen < cfg.indexEnd
  owed : u.ch.txIndex + rest.length = u.ch.txLen
  inMemory : u.ch.txBuffer + u.ch.txLen ≤ cfg.memEnd
  readable : ∀ k b, rest[k]? = some b → memRead m (u.ch.txBuffer + u.ch.txIndex + k) = some b
  inflight : u.txInflight = true
  notSent : u.sr.tc = false
  armed : u.cr.tcie = true
  noByte : u.sr.rxne = false
  logOnly : LogOnly cfg u.cbTx

/-- The channel `u` with `TC` clear after the bytes `rest` are sent and its transmit is completed
(43_serial_interrupt_handler.md R204, R205, R211). -/
def sentAll (cfg : Cfg) (rest : List Byte) (u : Uart) : Uart :=
  { u with
    ch := { u.ch with txBusy := false, txIndex := u.ch.txIndex + rest.length, txLen := 0 }
    cr := { u.cr with tcie := if cfg.disarmOnComplete then false else true }
    txInflight := false
    txLog := u.txLog ++ rest }

/-- The channel after one byte is reported sent and `b` is handed over in its place. -/
def sentNext (b : Byte) (u : Uart) : Uart :=
  { u with ch := { u.ch with txIndex := u.ch.txIndex + 1 }, txLog := u.txLog ++ [b] }

@[simp] theorem sentNext_cbTx (b : Byte) (u : Uart) : (sentNext b u).cbTx = u.cbTx := rfl

theorem sentAll_sentNext (cfg : Cfg) (b : Byte) (rest : List Byte) (u : Uart) :
    sentAll cfg rest (sentNext b u) = sentAll cfg (b :: rest) u := by
  simp [sentAll, sentNext, Nat.add_assoc, Nat.add_comm 1]

theorem txReleased_byteSent {cfg : Cfg} {u : Uart} (hnotSent : u.sr.tc = false)
    (harmed : u.cr.tcie = true) : txReleased cfg (byteSent u) = sentAll cfg [] u := by
  simp [txReleased, byteSent, sentAll, harmed, ← hnotSent]

theorem clearTc_nextTx_byteSent {cfg : Cfg} {b : Byte} {u : Uart} (hinflight : u.txInflight = true)
    (hnotSent : u.sr.tc = false) (hinc : incIndex cfg u.ch.txIndex = u.ch.txIndex + 1) :
    clearTc (nextTx cfg (sentByte b (byteSent u))) = sentNext b u := by
  simp [clearTc, nextTx, sentByte, byteSent, sentNext, hinc, ← hnotSent, ← hinflight]

section Transmit

variable {c : Channel} {s : State} {b : Byte} {rest : List Byte}

/-- A channel that sent one byte of those it owes, owes the others. -/
theorem Sending.next {cfg : Cfg} {m : Memory} {u : Uart} (h : Sending cfg m u (b :: rest)) :
    Sending cfg m (sentNext b u) rest where
  busy := h.busy
  present := h.present
  fits := h.fits
  owed := (Nat.succ_add_eq_add_succ _ _).trans h.owed
  inMemory := h.inMemory
  readable k b' hk := by
    have hread := h.readable (k + 1) b' hk
    rwa [Nat.add_comm k, ← Nat.add_assoc] at hread
  inflight := h.inflight
  notSent := h.notSent
  armed := h.armed
  noByte := h.noByte
  logOnly := h.logOnly

/-- Once the byte in flight is reported sent, the next one owed can be sent (R205, R212). -/
theorem Sending.transmits {cfg : Cfg} {m : Memory} {u : Uart} (h : Sending cfg m u (b :: rest)) :
    Transmits cfg m (byteSent u) b := by
  have howed := h.owed
  have hmem := h.inMemory
  rw [List.length_cons] at howed
  refine ⟨h.busy, ?_, h.present, ?_, h.readable 0 b rfl⟩ <;> simp only [byteSent_ch] <;> omega

theorem Sending.incIndex_eq {cfg : Cfg} {m : Memory} {u : Uart} (h : Sending cfg m u (b :: rest)) :
    incIndex cfg u.ch.txIndex = u.ch.txIndex + 1 := incIndex_of_lt h.transmits.inWindow h.fits

/-- One transmit-complete event with its handler does what the handler's transmit half does, no byte
being received (R201, R212). -/
theorem Sending.execAll_event {v : State} (h : Sending s.cfg s.mem (s.uart c) rest)
    (hrouted : s.cfg.nvicEn.get c = true)
    (htx : txHalf c ((s.modUart c byteSent).advance 1) = .next v)
    (hnoByte : (v.uart c).sr.rxne = false) :
    execAll [.hwTxdone c, .usIrq c] s = .next (v.advance 1) := by
  have hp : irqPending (((s.modUart c byteSent).advance 1).cfg.nvicEn.get c)
      (((s.modUart c byteSent).advance 1).uart c) = true :=
    irqPending_of_tc hrouted (by simp) (.inl (by simpa using h.armed))
  exact execAll_pair (exec_hwTxdone_of_inflight h.inflight)
    (exec_usIrq_of_halves hp htx (rxHalf_of_idle (.inl hnoByte)))

/-- After the last byte is reported sent the handler completes the transmit. -/
theorem Sending.execAll_last (h : Sending s.cfg s.mem (s.uart c) [])
    (hrouted : s.cfg.nvicEn.get c = true) :
    execAll [.hwTxdone c, .usIrq c] s = .next
      ((s.served c (sentAll s.cfg [] (s.uart c)) s.mem
        (callbackEntries s.cfg c .tx (s.uart c).cbTx)).advance 2) := by
  have htx := (txHalf_of_finished (c := c) (s := (s.modUart c byteSent).advance 1) (by simp)
    (by simpa using h.owed)).trans (tcComplete_of_logOnly (by simpa using h.logOnly))
  rw [h.execAll_event hrouted htx (by simpa [txReleased] using h.noByte)]
  simp [txReleased_byteSent h.notSent h.armed]

/-- After an earlier byte is reported sent the handler sends the next one. -/
theorem Sending.execAll_next (h : Sending s.cfg s.mem (s.uart c) (b :: rest))
    (hrouted : s.cfg.nvicEn.get c = true) :
    execAll [.hwTxdone c, .usIrq c] s = .next ((s.modUart c (sentNext b)).advance 2) := by
  have htx := Transmits.txHalf_of_idle (c := c) (s := (s.modUart c byteSent).advance 1) (b := b)
    (by simpa using h.transmits) (by simp) (by simp)
  rw [h.execAll_event hrouted htx (by simpa using h.noByte)]
  simp [State.modUart_eq_served, clearTc_nextTx_byteSent h.inflight h.notSent h.incIndex_eq]

/-- The bytes owed are sent in order, and then the transmit is completed. -/
theorem Sending.execAll_eq (h : Sending s.cfg s.mem (s.uart c) rest)
    (hrouted : s.cfg.nvicEn.get c = true) :
    execAll ((List.replicate (rest.length + 1) [Instr.hwTxdone c, Instr.usIrq c]).flatten) s = .next
      ((s.served c (sentAll s.cfg rest (s.uart c)) s.mem
        (callbackEntries s.cfg c .tx (s.uart c).cbTx)).advance (2 * (rest.length + 1))) := by
  induction rest generalizing s with
  | nil => exact h.execAll_last hrouted
  | cons b rest ih =>
    have hrest := ih (s := (s.modUart c (sentNext b)).advance 2) (by simpa using h.next) hrouted
    rw [List.length_cons, List.replicate_succ, List.flatten_cons, execAll_append,
      h.execAll_next hrouted, andThen_next, hrest]
    simp [sentAll_sentNext, Nat.mul_succ, Nat.add_comm 2]

end Transmit

/-- Settles O37. -/
theorem transmitFinishesAfterItsEvents : Obligations.TransmitFinishesAfterItsEvents := by
  rintro c s _ _ rest hbusy rfl hnull rfl hfits howed hmem hread hinflight htc htcie hrxne hrouted hlog
  have h : Sending s.cfg s.mem (s.uart c) rest :=
    ⟨hbusy, hnull, hfits, howed, hmem, hread, hinflight, htc, htcie, hrxne, hlog⟩
  rw [h.execAll_eq hrouted, State.served, append_callbackEntries, sentAll, h.owed]
  rfl

/-! ### A busy receive -/

/-- Memory with `bytes` stored one after the other from the address `a` on. -/
def storeBytes (m : Memory) (a : Nat) : List Byte → Memory
  | [] => m
  | b :: rest => storeBytes (memWrite m a b) (a + 1) rest

theorem memRead_storeBytes_of_outside (bytes : List Byte) (m : Memory) (a x : Nat)
    (h : x < a ∨ a + bytes.length ≤ x) : memRead (storeBytes m a bytes) x = memRead m x := by
  induction bytes generalizing m a with
  | nil => rfl
  | cons b rest ih =>
    rw [List.length_cons] at h
    rw [storeBytes, ih _ _ (by omega), memRead_memWrite_ne _ _ _ _ (by omega)]

theorem memRead_storeBytes_of_getElem? (bytes : List Byte) (m : Memory) (a k : Nat) {b : Byte}
    (h : bytes[k]? = some b) : memRead (storeBytes m a bytes) (a + k) = some b := by
  induction bytes generalizing m a k with
  | nil => simp at h
  | cons b' rest ih =>
    cases k with
    | zero =>
      cases h
      rw [Nat.add_zero, storeBytes,
        memRead_storeBytes_of_outside _ _ _ _ (.inl (Nat.lt_succ_self a)), memRead_memWrite_same]
    | succ k =>
      rw [storeBytes, Nat.add_comm k, ← Nat.add_assoc]
      exact ih _ _ _ h

/-- A channel `u` busy with a receive that wants `n` more bytes, both status bits clear and its receive
interrupt armed (43_serial_interrupt_handler.md R209). -/
structure Receiving (cfg : Cfg) (u : Uart) (n : Nat) : Prop where
  busy : u.ch.rxBusy = true
  present : u.ch.rxBuffer ≠ cfg.nullRef
  fits : u.ch.rxLen < cfg.indexEnd
  wanted : u.ch.rxIndex + n = u.ch.rxLen
  inMemory : u.ch.rxBuffer + u.ch.rxLen ≤ cfg.memEnd
  flagsClear : u.sr = ⟨false, false⟩
  armed : u.cr.rxneie = true
  logOnly : LogOnly cfg u.cbRx

/-- The channel after `b` is received and its handler has stored it. -/
def storedByte (cfg : Cfg) (last : Bool) (b : Byte) (u : Uart) : Uart :=
  received cfg (u.ch.rxIndex + 1) last (byteReceived b u)

section StoredByte

variable (cfg : Cfg) (last : Bool) (b : Byte) (u : Uart)

@[simp] theorem storedByte_rxBuffer : (storedByte cfg last b u).ch.rxBuffer = u.ch.rxBuffer := rfl
@[simp] theorem storedByte_rxIndex : (storedByte cfg last b u).ch.rxIndex = u.ch.rxIndex + 1 := rfl
@[simp] theorem storedByte_cbRx : (storedByte cfg last b u).cbRx = u.cbRx := rfl

end StoredByte

section Receive

variable {c : Channel} {s : State} {n : Nat}

theorem storedByte_sr {cfg : Cfg} {last : Bool} {b : Byte} {u : Uart}
    (hreadClears : cfg.drReadClearsRxne = true) (hflags : u.sr = ⟨false, false⟩) :
    (storedByte cfg last b u).sr = ⟨false, false⟩ := by
  simp [storedByte, received, hreadClears, hflags]

/-- A channel that stored one byte of those it wants, wants one less. -/
theorem Receiving.next {cfg : Cfg} {u : Uart} (h : Receiving cfg u (n + 1))
    (hreadClears : cfg.drReadClearsRxne = true) (b : Byte) :
    Receiving cfg (storedByte cfg false b u) n where
  busy := rfl
  present := h.present
  fits := h.fits
  wanted := (Nat.succ_add_eq_add_succ _ _).trans h.wanted
  inMemory := h.inMemory
  flagsClear := storedByte_sr hreadClears h.flagsClear
  armed := h.armed
  logOnly := h.logOnly

theorem Receiving.receives {cfg : Cfg} {u : Uart} (h : Receiving cfg u (n + 1)) (b : Byte) :
    Receives cfg (byteReceived b u) := by
  have hwanted := h.wanted
  have hmem := h.inMemory
  refine ⟨rfl, h.busy, ?_, h.present, ?_⟩ <;> simp only [byteReceived_ch] <;> omega

/-- A byte received is stored by its handler; the last one wanted completes the receive. -/
theorem Receiving.execAll_event (h : Receiving s.cfg (s.uart c) (n + 1))
    (hrouted : s.cfg.nvicEn.get c = true) (b : Byte) :
    execAll [.hwRxbyte c b, .usIrq c] s = .next
      ((s.served c (storedByte s.cfg (decide (n = 0)) b (s.uart c))
        (memWrite s.mem ((s.uart c).ch.rxBuffer + (s.uart c).ch.rxIndex) b)
        (if n = 0 then callbackEntries s.cfg c .rx (s.uart c).cbRx else [])).advance 2) := by
  have hwanted := h.wanted
  have hrx := h.receives b
  have hp : irqPending (((s.modUart c (byteReceived b)).advance 1).cfg.nvicEn.get c)
      (((s.modUart c (byteReceived b)).advance 1).uart c) = true :=
    irqPending_eq_true.mpr ⟨hrouted, .inr ⟨by simpa using h.armed, by simp⟩⟩
  have hirq := exec_usIrq_of_receives_only (next := (s.uart c).ch.rxIndex + 1)
    (last := decide (n = 0)) hp (by simp [h.flagsClear]) (by simpa using hrx)
    (by simpa using incIndex_of_lt hrx.inWindow h.fits)
    (by simp; omega) (fun _ => by simpa using h.logOnly)
  rw [execAll_pair (exec_hwRxbyte_of_clear b (by rw [h.flagsClear])) hirq]
  simp [storedByte]

/-- The bytes are stored in order, and the last one releases the channel. -/
theorem Receiving.execAll_eq {bytes : List Byte} (hne : bytes ≠ [])
    (h : Receiving s.cfg (s.uart c) bytes.length) (hrouted : s.cfg.nvicEn.get c = true)
    (hreadClears : s.cfg.drReadClearsRxne = true) :
    ∃ u : Uart, u.ch.rxBusy = false ∧ u.ch.rxLen = 0 ∧ u.sr = ⟨false, false⟩ ∧
      execAll ((bytes.map fun b => [Instr.hwRxbyte c b, Instr.usIrq c]).flatten) s = .next
        ((s.served c u
          (storeBytes s.mem ((s.uart c).ch.rxBuffer + (s.uart c).ch.rxIndex) bytes)
          (callbackEntries s.cfg c .rx (s.uart c).cbRx)).advance (2 * bytes.length)) := by
  induction bytes generalizing s with
  | nil => exact absurd rfl hne
  | cons b rest ih =>
    have hevent := h.execAll_event hrouted b
    rw [List.map_cons, List.flatten_cons, execAll_append, hevent, andThen_next]
    cases rest with
    | nil =>
      exact ⟨_, rfl, rfl, storedByte_sr hreadClears h.flagsClear, rfl⟩
    | cons b' rest =>
      simp only [List.length_cons, Nat.add_eq_zero_iff, Nat.one_ne_zero, and_false, decide_false,
        if_false]
      obtain ⟨u, hfree, hlen, hflags, hrun⟩ := ih (List.cons_ne_nil _ _)
        (s := (s.served c (storedByte s.cfg false b (s.uart c))
          (memWrite s.mem ((s.uart c).ch.rxBuffer + (s.uart c).ch.rxIndex) b) []).advance 2)
        (by simpa using h.next hreadClears b) hrouted hreadClears
      refine ⟨u, hfree, hlen, hflags, hrun.trans ?_⟩
      simp [storeBytes, Nat.mul_add, Nat.add_comm 2, Nat.add_assoc]

end Receive

/-- Settles O38. -/
theorem receiveFinishesAfterItsBytes : Obligations.ReceiveFinishesAfterItsBytes := by
  rintro c s _ bytes hbusy rfl hnull hne hfits hwanted hmem hsr harmed hrouted hclears hlog
  have h : Receiving s.cfg (s.uart c) bytes.length :=
    ⟨hbusy, hnull, hfits, hwanted, hmem, hsr, harmed, hlog⟩
  obtain ⟨u, hfree, hlen, hflags, hrun⟩ := h.execAll_eq hne hrouted hclears
  refine ⟨_, hrun, fun k b hk => memRead_storeBytes_of_getElem? bytes _ _ k hk, fun a ha => ?_, ?_, ?_,
    ?_, append_callbackEntries _ _ _ _ _, rfl, rfl, fun d hd => PerChannel.get_set_ne _ _ _ _ hd⟩
  · rw [← hwanted, ← Nat.add_assoc] at ha
    exact memRead_storeBytes_of_outside bytes _ _ a ha
  · simpa [State.uarts_get] using hfree
  · simpa [State.uarts_get] using hlen
  · simpa [State.uarts_get] using hflags

end Sys2Proof.Machine
end

section
/-!
SUPPORT. The transmit discipline of a channel used only asynchronously: it is kept by every operation
but US.SENDB, and it is broken only between the release of the bank and the clear of `TC`, while the
transmit callback runs (70_reset_and_hazards.md R286, R287; 43_serial_interrupt_handler.md R204).
Settles O50.
-/

namespace Sys2Proof.Machine

/-! ### What the discipline reads of a channel -/

/-- The busy flag of a transmit, its transmit-complete bit and its in-flight marker. -/
def txSide (u : Uart) : Bool × Bool × Bool := (u.ch.txBusy, u.sr.tc, u.txInflight)

/-- A disciplined channel is idle, or has a byte in flight, or has had it reported sent. -/
theorem txDisciplined_iff {u : Uart} :
    txDisciplined u ↔ txSide u = (false, false, false) ∨ txSide u = (true, false, true) ∨
      txSide u = (true, true, false) := by
  unfold txDisciplined txSide
  cases u.ch.txBusy with
  | false => simp
  | true => cases u.txInflight <;> simp

theorem txDisciplined_of_txSide {u v : Uart} (hu : txDisciplined u) (h : txSide v = txSide u) :
    txDisciplined v := by
  rwa [txDisciplined_iff, h, ← txDisciplined_iff]

/-- On a disciplined channel `TC` tells of a busy transmit with nothing in flight. -/
theorem txDisciplined.of_tc {u : Uart} (h : txDisciplined u) (htc : u.sr.tc = true) :
    u.ch.txBusy = true ∧ u.txInflight = false := by
  obtain ⟨hbusyTc, hidle⟩ := h
  cases hbusy : u.ch.txBusy with
  | true => exact ⟨rfl, by simpa [htc] using hbusyTc hbusy⟩
  | false =>
    obtain ⟨hclear, -⟩ := hidle hbusy
    exact absurd (htc.symm.trans hclear) (by decide)

/-- On a disciplined channel a byte in flight belongs to a busy transmit. -/
theorem txDisciplined.of_txInflight {u : Uart} (h : txDisciplined u) (hfl : u.txInflight = true) :
    u.ch.txBusy = true := by
  obtain ⟨-, hidle⟩ := h
  refine Bool.eq_true_of_not_eq_false fun hfree => ?_
  obtain ⟨-, hnone⟩ := hidle hfree
  exact absurd (hfl.symm.trans hnone) (by decide)

@[simp] theorem setCallback_txSide (u : Uart) (dir : Direction) (k : Nat) :
    txSide (setCallback u dir k) = txSide u := by
  cases dir <;> rfl

/-- The channel whose transmit callback runs: the bank is released and `TC` not yet cleared, a byte is
in flight exactly if the body has submitted the next transmit, and the enable that let the interrupt in
is still set. -/
structure AwaitsAck (u : Uart) : Prop where
  tc : u.sr.tc = true
  inflight : u.txInflight = u.ch.txBusy
  armed : u.cr.tcie = true ∨ u.cr.rxneie = true

/-- The clear of `TC` restores the discipline. -/
theorem AwaitsAck.acknowledged {u : Uart} (h : AwaitsAck u) (disarm : Bool) :
    txDisciplined (disarmTx disarm (clearTc u)) := by
  simp [txDisciplined, h.inflight]

/-- A set enable is asynchronous activity, so a blocking call is refused as mixed use
(42_serial_submission.md R181). -/
theorem AwaitsAck.mixed {u : Uart} (h : AwaitsAck u) : mixed u = true := by
  rw [mixed_eq_true]
  exact .inr (.inr h.armed)

/-! ### One action of a callback body -/

/-- What one action of a callback body can do to the transmit side of a channel. -/
inductive TxStep (u v : Uart) : Prop where
  | kept (h : txSide v = txSide u)
  | submitted (hbusy : u.ch.txBusy = false) (hv : txSide v = (true, u.sr.tc, true))
  | blocking (hunmixed : mixed u = false) (htc : u.sr.tc = true)

theorem BodyStep.txStep {s t : State} (h : BodyStep s t) (d : Channel) :
    TxStep (s.uart d) (t.uart d) := by
  have hrefl : ∀ u, TxStep u u := fun _ => .kept rfl
  cases h with
  | nothing | strobe | elow | display | claim | store => exact hrefl _
  | configure | recv | recvb => exact modUart_related hrefl (.kept rfl) d
  | regcb => exact modUart_related hrefl (.kept (setCallback_txSide _ _ _)) d
  | send c data length b hfree => exact modUart_related hrefl (.submitted hfree rfl) d
  | sendb c b hunmixed _ htc => exact modUart_related hrefl (.blocking hunmixed htc) d

/-- A submission meets an idle channel, and a blocking send none that would let it return. -/
theorem TxStep.keeps_txDisciplined {u v : Uart} (h : TxStep u v) (hu : txDisciplined u) :
    txDisciplined v := by
  cases h with
  | kept hkept => exact txDisciplined_of_txSide hu hkept
  | submitted hbusy hv =>
    obtain ⟨htc, -⟩ := hu.2 hbusy
    exact txDisciplined_iff.mpr (.inr (.inl (htc ▸ hv)))
  | blocking hunmixed htc =>
    obtain ⟨hfree, -⟩ := mixed_eq_false.mp hunmixed
    obtain ⟨hbusy, -⟩ := hu.of_tc htc
    exact absurd (hfree.symm.trans hbusy) (by decide)

/-- The enable that let the interrupt in keeps blocking calls out. -/
theorem TxStep.keeps_awaitsAck {u v : Uart} (h : TxStep u v) (henables : NoEnableCleared u v)
    (hu : AwaitsAck u) : AwaitsAck v := by
  have harmed := hu.armed.imp henables.1 henables.2
  cases h with
  | kept hkept =>
    simp only [txSide, Prod.mk.injEq] at hkept
    obtain ⟨hbusy, htc, hinflight⟩ := hkept
    exact ⟨htc.trans hu.tc, by rw [hinflight, hu.inflight, hbusy], harmed⟩
  | submitted _ hv =>
    simp only [txSide, Prod.mk.injEq] at hv
    obtain ⟨hbusy, htc, hinflight⟩ := hv
    exact ⟨htc.trans hu.tc, hinflight.trans hbusy.symm, harmed⟩
  | blocking hunmixed => exact absurd (hu.mixed.symm.trans hunmixed) (by decide)

/-! ### Every channel disciplined -/

/-- The premise of R286 and R287 on every channel. -/
def AllDisciplined (s : State) : Prop := ∀ d, txDisciplined (s.uart d)

theorem AllDisciplined.modUart {s : State} {c : Channel} {f : Uart → Uart} (h : AllDisciplined s)
    (hf : txDisciplined (f (s.uart c))) : AllDisciplined (s.modUart c f) := fun d => by
  rw [State.modUart_uart]
  split
  · exact hf
  · exact h d

/-- A change of a channel outside its transmit side keeps the discipline. -/
theorem AllDisciplined.modUart_of_txSide {s : State} {c : Channel} {f : Uart → Uart}
    (h : AllDisciplined s) (hf : txSide (f (s.uart c)) = txSide (s.uart c)) :
    AllDisciplined (s.modUart c f) :=
  h.modUart (txDisciplined_of_txSide (h c) hf)

theorem BodyStep.keeps_allDisciplined {s t : State} (hs : AllDisciplined s) (h : BodyStep s t) :
    AllDisciplined t := fun d => (h.txStep d).keeps_txDisciplined (hs d)

/-- While the transmit callback of channel `c` runs every other channel is disciplined. -/
def AckPending (c : Channel) (s : State) : Prop :=
  AwaitsAck (s.uart c) ∧ ∀ d, d ≠ c → txDisciplined (s.uart d)

theorem BodyStep.keeps_ackPending {c : Channel} {s t : State} (hs : AckPending c s)
    (h : BodyStep s t) : AckPending c t := by
  obtain ⟨hack, hothers⟩ := hs
  exact ⟨(h.txStep c).keeps_awaitsAck (h.noEnableCleared c) hack,
    fun d hd => (h.txStep d).keeps_txDisciplined (hothers d hd)⟩

/-! ### The interrupt handler -/

/-- A property that the log does not matter to and that every action keeps is kept by an invocation. -/
theorem invoke_keeps {P : State → Prop} (hlog : ∀ s x, P s → P (s.logCallback x))
    (hbody : ∀ s t, P s → BodyStep s t → P t) {c : Channel} {dir : Direction} {s t : State}
    (hs : P s) (h : invoke c dir s = .next t) : P t := by
  rcases invoke_eq_next.mp h with ⟨-, rfl⟩ | ⟨-, hcall⟩
  · exact hs
  · exact callBody_keeps hbody (hlog _ _ hs) hcall

section Handler

variable {c : Channel} {s t : State}

/-- An interrupt is let in by an enable of its channel. -/
theorem armed_of_irqPending {routed : Bool} {u : Uart} (h : irqPending routed u = true) :
    u.cr.tcie = true ∨ u.cr.rxneie = true := by
  obtain ⟨-, h⟩ := irqPending_eq_true.mp h
  exact h.imp And.left And.left

/-- The completion of a transmit leaves the discipline for its callback and restores it at the clear of
`TC` (43_serial_interrupt_handler.md R204). -/
theorem tcComplete_allDisciplined (hs : AllDisciplined s) (htc : (s.uart c).sr.tc = true)
    (harmed : (s.uart c).cr.tcie = true ∨ (s.uart c).cr.rxneie = true)
    (h : tcComplete c s = .next t) : AllDisciplined t := by
  obtain ⟨v, hv, rfl⟩ := tcComplete_eq_next.mp h
  obtain ⟨-, hinflight⟩ := (hs c).of_tc htc
  have hreleased : AckPending c (s.modUart c finishTx) :=
    ⟨by simpa using ⟨htc, hinflight, harmed⟩, fun d hd => by
      rw [State.modUart_uart_ne _ _ _ _ hd]
      exact hs d⟩
  obtain ⟨hack, hothers⟩ := invoke_keeps (P := AckPending c) (fun _ _ hu => hu)
    (fun _ _ hu huv => huv.keeps_ackPending hu) hreleased hv
  intro d
  rw [State.modUart_uart]
  split
  · exact hack.acknowledged _
  · rename_i hd
    exact hothers d hd

theorem tcNext_allDisciplined (hs : AllDisciplined s) (h : tcNext c s = .next t) :
    AllDisciplined t := by
  obtain ⟨hbusy, -, b, -, rfl⟩ := tcNext_eq_next.mp h
  exact hs.modUart (by simp [txDisciplined, hbusy])

theorem txHalf_allDisciplined (hs : AllDisciplined s)
    (harmed : (s.uart c).cr.tcie = true ∨ (s.uart c).cr.rxneie = true)
    (h : txHalf c s = .next t) : AllDisciplined t := by
  rcases txHalf_eq_next.mp h with ⟨-, rfl⟩ | ⟨htc, -, hdone⟩ | ⟨-, -, hnext⟩
  · exact hs
  · exact tcComplete_allDisciplined hs htc harmed hdone
  · exact tcNext_allDisciplined hs hnext

theorem rxHalf_allDisciplined (hs : AllDisciplined s) (h : rxHalf c s = .next t) :
    AllDisciplined t := by
  rcases rxHalf_eq_next.mp h with ⟨-, rfl⟩ | ⟨-, -, h⟩
  · exact hs
  · obtain ⟨v, hv, hbranch⟩ := rxBranch_eq_next.mp h
    obtain ⟨m, -, rfl⟩ := storeReceived_eq_next.mp hv
    have hstored := AllDisciplined.modUart_of_txSide (s := s.setMem m) (c := c)
      (f := fun u => nextRx s.cfg (afterDrRead s.cfg.drReadClearsRxne u)) hs rfl
    rcases hbranch with ⟨-, hdone⟩ | ⟨-, rfl⟩
    · exact invoke_keeps (P := AllDisciplined) (fun _ _ hu => hu)
        (fun _ _ hu huv => huv.keeps_allDisciplined hu) (hstored.modUart_of_txSide rfl) hdone
    · exact hstored

theorem usIrq_allDisciplined (hs : AllDisciplined s) (h : exec (.usIrq c) s = .next t) :
    AllDisciplined t := by
  obtain ⟨hp, u, v, hu, hv, rfl⟩ := execUsIrq_eq_next.mp h
  have hdone := rxHalf_allDisciplined (txHalf_allDisciplined hs (armed_of_irqPending hp) hu) hv
  exact hdone

/-- A byte reported sent leaves its busy transmit with `TC` set and nothing in flight
(43_serial_interrupt_handler.md R212). -/
theorem hwTxdone_allDisciplined (hs : AllDisciplined s) (h : exec (.hwTxdone c) s = .next t) :
    AllDisciplined t := by
  cases hfl : (s.uart c).txInflight with
  | false =>
    rw [exec_hwTxdone_of_idle hfl] at h
    cases h
  | true =>
    rw [exec_hwTxdone_of_inflight hfl] at h
    cases h
    exact hs.modUart (by simp [txDisciplined, (hs c).of_txInflight hfl])

end Handler

/-! ### The statement -/

/-- Settles O50, by the cases of an operation. -/
theorem asynchronousUseKeepsTransmitDiscipline :
    Obligations.AsynchronousUseKeepsTransmitDiscipline := by
  intro i s t hs hasync h
  change AllDisciplined s at hs
  change AllDisciplined t
  cases exec_eq_next h with
  | nop | recvbRejected | recvbIssued => exact hs
  | sendbRejected sel byte | sendbIssued sel byte => exact absurd rfl (hasync sel byte)
  | request _ hreq =>
    have hdone := (callbackRequest_eq_next hreq).keeps_allDisciplined hs
    exact hdone
  | tick htick =>
    obtain ⟨-, huarts, -⟩ := tick_frame htick
    intro d
    simpa [State.uart, huarts] using hs d
  | irq => exact usIrq_allDisciplined hs h
  | txdone => exact hwTxdone_allDisciplined hs h
  | rxbyte => exact hs.modUart_of_txSide rfl

end Sys2Proof.Machine
end
